-- ==== Sys2Proof/Word.lean ====
section
/-!
DEFINITION. The engine's data words: a 32-bit register value, a byte, a 4-byte column and a 16-byte block.

The spec packs no word into an integer (00_scope.md R11; 90_conflicts.md C1): a column is four named bytes, one a
row, and a block is four columns, so that byte `k` is row `k mod 4` of column `k div 4`.
-/

namespace Sys2Proof

/-- A 32-bit register value or buffer-memory address (00_scope.md R8, R9). -/
abbrev Word := BitVec 32

/-- One byte (00_scope.md R9). -/
abbrev Byte := BitVec 8

/-- A column of a State, the source's "word": the byte `r0` is row 0 and stands first (00_scope.md R11;
41_key_schedule.md R111). -/
structure Column where
  r0 : Byte
  r1 : Byte
  r2 : Byte
  r3 : Byte
deriving DecidableEq, Repr

/-- A State or block: 16 bytes as four columns, column-major (00_scope.md R11; 10_state.md R22). -/
structure Block where
  c0 : Column
  c1 : Column
  c2 : Column
  c3 : Column
deriving DecidableEq, Repr

/-- Four zero bytes. -/
def Column.zero : Column := ⟨0, 0, 0, 0⟩

/-- Sixteen zero bytes. -/
def Block.zero : Block := ⟨.zero, .zero, .zero, .zero⟩

end Sys2Proof
end

