-- ==== Sys2Proof/Config.lean ====
section
/-!
DEFINITION. What the spec fixes once for the engine (00_scope.md R8), what the model fixes where the spec leaves a
value to the platform, and the free values.

A free value has no body: nothing in Lean can evaluate it or prove a value of it. It is applied to the counter
`draws` of the state, so that each draw is independent of the others (93_implementation_defined.md U1, U9), or to the
address of the byte, which fixes it for the run (93_implementation_defined.md U8).

The three OPEN parameters of 92_eei_decisions.md (`ENGINE_BASE`, `MEM_ADMIT`, `LATENCY`) are no constants here. They
are plain data in the state (`Platform`, `State.latency`), so that a statement about every state holds for every value
of them, and so that a test can choose one.
-/

namespace Sys2Proof.Config

/-- Bytes in a block (00_scope.md R8). -/
def blockBytes : Nat := 16

/-- Bytes in the register window (10_state.md R24). -/
def windowBytes : Nat := 256

/-- The number of buffer-memory addresses, which wrap modulo it (00_scope.md R8; 20_memory.md R61). -/
def addressCount : Nat := 2 ^ 32

/-- FREE VALUE (log entry 4): what the byte of buffer memory at an address reads as while the state does not list it: "a
model takes any value the program has not written", fixed per byte for the run (70_reset_and_hazards.md R251;
93_implementation_defined.md U8). -/
opaque freePowerOnByte : Nat → Byte

/-- FREE VALUE (log entry 5): what the `n`-th draw of an unspecified register read returns. A host read of `STATE`,
`GFRES` or `OUTLEN` while `BUSY = 1` draws one (10_state.md R41; 93_implementation_defined.md U1). -/
opaque freeReadWord : Nat → Word

/-- FREE VALUE (log entry 6): how many buffer writes of a command in flight had landed when a reset abandoned it
(70_reset_and_hazards.md R250; 93_implementation_defined.md U9). -/
opaque freeLandedWrites : Nat → Nat

end Sys2Proof.Config
end

