-- ==== Sys2Proof/Syntax.lean ====
section
/-!
DEFINITION. The commands of the engine as syntax: one constructor for each row of spec/opcode_table.json
(30_encoding.md R81), with the variable fields that row admits (30_encoding.md R82).
-/

namespace Sys2Proof

/-- A command. `rkidx` is the round-key index `CMD[15:12]`, `pad` is `CMD.PAD` and `iven` is `CMD.IVEN`
(30_encoding.md R80, R84). Every other operand is implicit, taken from the registers. -/
inductive Instr where
  | gfDouble
  | gfMul
  | subBytes
  | invSubBytes
  | shiftRows
  | invShiftRows
  | mixColumns
  | invMixColumns
  | addRoundKey (rkidx : Nat)
  | keyExpand (rkidx : Nat)
  | encBlock
  | decBlock
  | ecbEnc (pad : Bool)
  | ecbDec (pad : Bool)
  | cbcEnc (pad iven : Bool)
  | cbcDec (pad iven : Bool)
  | ctr
deriving DecidableEq, Repr

end Sys2Proof
end

