-- ==== Sys2Proof/WellFormed.lean ====
section
/-!
DEFINITION. Which terms of `Instr` a command word can spell: the round-key index fits its four bits.
-/

namespace Sys2Proof

/-- `RKIDX` is the 4-bit field `CMD[15:12]` (30_encoding.md R80, R84), so an index is below 16. An index above the
key's `Nr` is still a legal word (30_encoding.md R83); its command completes with `ILLEGAL_COMMAND`. -/
def Instr.wellFormed : Instr → Bool
  | .addRoundKey k => decide (k < 16)
  | .keyExpand k => decide (k < 16)
  | .gfDouble | .gfMul | .subBytes | .invSubBytes | .shiftRows | .invShiftRows | .mixColumns | .invMixColumns
  | .encBlock | .decBlock | .ecbEnc _ | .ecbDec _ | .cbcEnc _ _ | .cbcDec _ _ | .ctr => true

end Sys2Proof
end

