-- ==== Sys2Proof/Decode.lean ====
section
/-!
DEFINITION. The command word: its fields, the decoder, the encoder, the opcode table of the spec as data, and the
assembler spelling. Decoding is total on every 32-bit word and rejects by name (30_encoding.md R80 to R87).
-/

namespace Sys2Proof

/-- Why a word is illegal (30_encoding.md R83). -/
inductive IllegalWord where
  /-- The OP value is one of the 239 that select nothing (30_encoding.md R85). -/
  | unassignedOp
  /-- A bit outside OP and the fields the OP admits is 1 (30_encoding.md R82, R83). -/
  | unadmittedBits
deriving DecidableEq, Repr

/-- `OP = CMD[7:0]` (30_encoding.md R80). -/
def opField (w : Word) : Byte := w.extractLsb' 0 8

/-- `PAD = CMD[8]` (30_encoding.md R80). -/
def padField (w : Word) : Bool := w.getLsbD 8

/-- `IVEN = CMD[9]` (30_encoding.md R80). -/
def ivenField (w : Word) : Bool := w.getLsbD 9

/-- `RKIDX = CMD[15:12]`, unsigned (30_encoding.md R80, R84). -/
def rkidxField (w : Word) : Nat := (w.extractLsb' 12 4).toNat

/-- The command `i`, if every bit of `w` outside OP and the admitted field bits `fields` is 0 (30_encoding.md R83). -/
def ifAdmitted (fields w : Word) (i : Instr) : Except IllegalWord Instr :=
  if w &&& ~~~(0x000000FF ||| fields) = 0 then .ok i else .error .unadmittedBits

/-- The command a word spells, or why it is illegal (30_encoding.md R81 to R83). -/
def decode (w : Word) : Except IllegalWord Instr :=
  let op := opField w
  if op = 0x01 then ifAdmitted 0 w .gfDouble
  else if op = 0x02 then ifAdmitted 0 w .gfMul
  else if op = 0x10 then ifAdmitted 0 w .subBytes
  else if op = 0x11 then ifAdmitted 0 w .invSubBytes
  else if op = 0x12 then ifAdmitted 0 w .shiftRows
  else if op = 0x13 then ifAdmitted 0 w .invShiftRows
  else if op = 0x14 then ifAdmitted 0 w .mixColumns
  else if op = 0x15 then ifAdmitted 0 w .invMixColumns
  else if op = 0x16 then ifAdmitted 0x0000F000 w (.addRoundKey (rkidxField w))
  else if op = 0x20 then ifAdmitted 0x0000F000 w (.keyExpand (rkidxField w))
  else if op = 0x30 then ifAdmitted 0 w .encBlock
  else if op = 0x31 then ifAdmitted 0 w .decBlock
  else if op = 0x40 then ifAdmitted 0x00000100 w (.ecbEnc (padField w))
  else if op = 0x41 then ifAdmitted 0x00000100 w (.ecbDec (padField w))
  else if op = 0x42 then ifAdmitted 0x00000300 w (.cbcEnc (padField w) (ivenField w))
  else if op = 0x43 then ifAdmitted 0x00000300 w (.cbcDec (padField w) (ivenField w))
  else if op = 0x44 then ifAdmitted 0 w .ctr
  else .error .unassignedOp

/-- The word with the given fields and every reserved bit 0 (30_encoding.md R80). -/
def encodeFields (op : Nat) (pad iven : Bool) (rkidx : Nat) : Word :=
  BitVec.ofNat 32 (op + 256 * pad.toNat + 512 * iven.toNat + 4096 * rkidx)

/-- The word that spells a command (30_encoding.md R80, R81). -/
def encode : Instr → Word
  | .gfDouble => encodeFields 0x01 false false 0
  | .gfMul => encodeFields 0x02 false false 0
  | .subBytes => encodeFields 0x10 false false 0
  | .invSubBytes => encodeFields 0x11 false false 0
  | .shiftRows => encodeFields 0x12 false false 0
  | .invShiftRows => encodeFields 0x13 false false 0
  | .mixColumns => encodeFields 0x14 false false 0
  | .invMixColumns => encodeFields 0x15 false false 0
  | .addRoundKey k => encodeFields 0x16 false false k
  | .keyExpand k => encodeFields 0x20 false false k
  | .encBlock => encodeFields 0x30 false false 0
  | .decBlock => encodeFields 0x31 false false 0
  | .ecbEnc p => encodeFields 0x40 p false 0
  | .ecbDec p => encodeFields 0x41 p false 0
  | .cbcEnc p v => encodeFields 0x42 p v 0
  | .cbcDec p v => encodeFields 0x43 p v 0
  | .ctr => encodeFields 0x44 false false 0

/-- One row of the table of 30_encoding.md R82: a word `w` spells the command when `(w AND mask) = pattern`. -/
structure OpcodeRow where
  mnemonic : String
  mask : Word
  pattern : Word
deriving DecidableEq, Repr

/-- The row of 30_encoding.md R82 (and of spec/opcode_table.json) that a command belongs to. -/
def Instr.row : Instr → OpcodeRow
  | .gfDouble => ⟨"GF_DOUBLE", 0xFFFFFFFF, 0x00000001⟩
  | .gfMul => ⟨"GF_MUL", 0xFFFFFFFF, 0x00000002⟩
  | .subBytes => ⟨"SUB_BYTES", 0xFFFFFFFF, 0x00000010⟩
  | .invSubBytes => ⟨"INV_SUB_BYTES", 0xFFFFFFFF, 0x00000011⟩
  | .shiftRows => ⟨"SHIFT_ROWS", 0xFFFFFFFF, 0x00000012⟩
  | .invShiftRows => ⟨"INV_SHIFT_ROWS", 0xFFFFFFFF, 0x00000013⟩
  | .mixColumns => ⟨"MIX_COLUMNS", 0xFFFFFFFF, 0x00000014⟩
  | .invMixColumns => ⟨"INV_MIX_COLUMNS", 0xFFFFFFFF, 0x00000015⟩
  | .addRoundKey _ => ⟨"ADD_ROUND_KEY", 0xFFFF0FFF, 0x00000016⟩
  | .keyExpand _ => ⟨"KEY_EXPAND", 0xFFFF0FFF, 0x00000020⟩
  | .encBlock => ⟨"ENC_BLOCK", 0xFFFFFFFF, 0x00000030⟩
  | .decBlock => ⟨"DEC_BLOCK", 0xFFFFFFFF, 0x00000031⟩
  | .ecbEnc _ => ⟨"ECB_ENC", 0xFFFFFEFF, 0x00000040⟩
  | .ecbDec _ => ⟨"ECB_DEC", 0xFFFFFEFF, 0x00000041⟩
  | .cbcEnc _ _ => ⟨"CBC_ENC", 0xFFFFFCFF, 0x00000042⟩
  | .cbcDec _ _ => ⟨"CBC_DEC", 0xFFFFFCFF, 0x00000043⟩
  | .ctr => ⟨"CTR", 0xFFFFFFFF, 0x00000044⟩

/-- The seventeen rows of the table of 30_encoding.md R82, in its order. -/
def opcodeRows : List OpcodeRow :=
  [Instr.gfDouble, .gfMul, .subBytes, .invSubBytes, .shiftRows, .invShiftRows, .mixColumns, .invMixColumns,
   .addRoundKey 0, .keyExpand 0, .encBlock, .decBlock, .ecbEnc false, .ecbDec false, .cbcEnc false false,
   .cbcDec false false, .ctr].map Instr.row

/-- Does the word spell the row's command (30_encoding.md R82)? -/
def OpcodeRow.spells (r : OpcodeRow) (w : Word) : Bool := w &&& r.mask == r.pattern

/-- `.P` sets `PAD` and `.IV` sets `IVEN` in the assembler spelling (30_encoding.md R87). -/
def suffixes (pad iven : Bool) : String := (if pad then ".P" else "") ++ (if iven then ".IV" else "")

/-- The assembler spelling of a command: its mnemonic, its suffixes, its round-key index in decimal
(30_encoding.md R87). -/
def Instr.assembly (i : Instr) : String :=
  match i with
  | .addRoundKey k | .keyExpand k => i.row.mnemonic ++ " " ++ toString k
  | .ecbEnc p | .ecbDec p => i.row.mnemonic ++ suffixes p false
  | .cbcEnc p v | .cbcDec p v => i.row.mnemonic ++ suffixes p v
  | .gfDouble | .gfMul | .subBytes | .invSubBytes | .shiftRows | .invShiftRows | .mixColumns | .invMixColumns
  | .encBlock | .decBlock | .ctr => i.row.mnemonic

/-- The command the decoder reads from an opcode-table word of `nbits` bits: the bits above `nbits` are 0. A command
is one 32-bit word written whole to `CMD` (30_encoding.md R86), so no byte order comes in. -/
def decodeTableWord (nbits w : Nat) : Option Instr :=
  (decode (BitVec.ofNat 32 (w % 2 ^ nbits))).toOption

end Sys2Proof
end

