-- ==== Sys2Proof/Machine/State.lean ====
section
/-!
DEFINITION. The state: the host-visible registers, the internal registers, buffer memory, the platform's open
parameters, and what the model needs to play the host against the engine (10_state.md; 20_memory.md). Also the reasons
a step can stop, and the state after reset.
-/

namespace Sys2Proof.Machine

/-- The status codes of `STATUS.ERR` (60_exceptions.md R220). Codes 8 to 15 are never produced, so they have no
constructor (93_implementation_defined.md U14). -/
inductive ErrCode where
  | ok
  | invalidDataSize
  | invalidKeySize
  | invalidBufferSize
  | invalidKey
  | invalidNonceSize
  | illegalCommand
  | busError
deriving DecidableEq, Repr

/-- The fields of `STATUS` (10_state.md R26). The host cannot write them, and its reserved bits read 0
(log entry 13). -/
structure Status where
  busy : Bool
  done : Bool
  err : ErrCode
deriving DecidableEq, Repr

/-- The 32 key bytes: word `j` of the window is the column `kj` (10_state.md R23, R35). -/
structure KeyBytes where
  k0 : Column
  k1 : Column
  k2 : Column
  k3 : Column
  k4 : Column
  k5 : Column
  k6 : Column
  k7 : Column
deriving DecidableEq, Repr

/-- The host-visible registers (10_state.md R24). `gfop` and `gfres` hold the bits that exist: `GFOP[15:0]` and
`GFRES[7:0]` (10_state.md R33, R34). -/
structure Regs where
  cmd : Word
  status : Status
  keylen : Word
  noncelen : Word
  src : Word
  dst : Word
  len : Word
  cap : Word
  outlen : Word
  gfop : BitVec 16
  gfres : Byte
  key : KeyBytes
  iv : Block
  state : Block
deriving DecidableEq, Repr

/-- The internal registers, which no host access reaches (10_state.md R42). `rk` is the word sequence of the round-key
schedule; it holds no word when cleared (log entry 12). -/
structure Internal where
  rk : List Column
  chain : Block
  ctrv : Block
  blk : Block
  nwr : Word
deriving DecidableEq, Repr

/-- The two kinds of buffer access (20_memory.md R62). -/
inductive AccessKind where
  | read
  | write
deriving DecidableEq, Repr

/-- One byte access of the engine to buffer memory: its kind, its address, the byte read or written
(20_memory.md R64, R67). -/
structure Access where
  kind : AccessKind
  addr : Word
  byte : Byte
deriving DecidableEq, Repr

/-- `len` consecutive addresses from `base`, modulo 2^32. -/
structure Range where
  base : Word
  len : Nat
deriving DecidableEq, Repr

/-- The platform's OPEN parameters (00_scope.md R8). `engineBase` is `ENGINE_BASE`. `MEM_ADMIT(addr, kind)` is given by
the ranges it refuses, one list a kind, and by whether the engine's bus reaches the register window (20_memory.md R62,
R75; log entries 2, 18). No step changes it. -/
structure Platform where
  engineBase : Word
  windowOnBus : Bool
  refusedReads : List Range
  refusedWrites : List Range
deriving DecidableEq, Repr

/-- Buffer memory: the addresses whose byte is known, in strictly rising order (20_memory.md R61; log entry 4). -/
abbrev Memory := List Host.Cell

/-- The registers of the window by name (10_state.md R24). -/
inductive Reg where
  | cmd
  | status
  | keylen
  | noncelen
  | src
  | dst
  | len
  | cap
  | outlen
  | gfop
  | gfres
  | key (j : Fin 8)
  | iv (j : Fin 4)
  | state (j : Fin 4)
deriving DecidableEq, Repr

/-- The width of a host access to the register window (10_state.md R39). -/
inductive AccessSize where
  | byte
  | halfword
  | word
deriving DecidableEq, Repr

/-- One action of the host, the external agent of 10_state.md R20. `writeReg`, `readReg`, `wait` and `writeMem` are
`WR`, `RD`, `WAIT` and `MEM` of 30_encoding.md R87. `readMem` reads a buffer byte, `reset` asserts the reset input
(70_reset_and_hazards.md R250) and `idle` lets a cycle pass. -/
inductive HostAct where
  | writeReg (addr : Word) (size : AccessSize) (value : Word)
  | readReg (addr : Word) (size : AccessSize)
  | wait
  | writeMem (addr : Word) (bytes : List Byte)
  | readMem (addr : Word)
  | reset
  | idle
deriving DecidableEq, Repr

/-- The whole machine. -/
structure State where
  /-- The host-visible registers (10_state.md R24). -/
  regs : Regs
  /-- The internal registers (10_state.md R42). -/
  internal : Internal
  /-- Buffer memory (20_memory.md R61). -/
  mem : Memory
  /-- The platform's open parameters (00_scope.md R8). -/
  platform : Platform
  /-- `LATENCY` of the commands to come, in the order of their issue; 1 once the list is used up (log entry 8). -/
  latency : List Nat
  /-- Cycles still to pass before the command in flight completes, beyond the completing one. -/
  countdown : Nat
  /-- The buffer bytes the engine owns (70_reset_and_hazards.md R255; log entry 11). -/
  owned : List Range
  /-- The host's actions to come, first one first (log entries 3, 15). -/
  script : List HostAct
  /-- The value the host's last read returned (log entry 7). -/
  rdata : Word
  /-- The accesses of the current or last command, newest first (20_memory.md R67; log entry 10). -/
  trace : List Access
  /-- How many free values have been drawn (log entry 5). -/
  draws : Nat
deriving DecidableEq, Repr

/-- Why the machine stops. -/
inductive Fault where
  /-- Raised by the host's buffer access (`hostAct`) when it touches a byte the engine owns, between issue and the
  host's read of `STATUS.BUSY = 0`: "a model records a fault for that run" (20_memory.md R69; 70_reset_and_hazards.md
  R255). Safe. -/
  | hostRace (addr : Word)
deriving DecidableEq, Repr

/-- Why a step has no meaning. -/
inductive Refusal where
  /-- A command that has no meaning yet, by its mnemonic. Raised by `exec` only. Safe. -/
  | notModelled (mnemonic : String)
  /-- Raised by the host's register access (`hostAct`) when it is no aligned 32-bit access inside the window: "a
  model refuses a host program that makes one" (10_state.md R39). Safe. -/
  | outsideWindowInterface (addr : Word) (size : AccessSize)
deriving DecidableEq, Repr

/-- Every register 0: idle, no command completed (70_reset_and_hazards.md R250). -/
def Regs.reset : Regs where
  cmd := 0
  status := ⟨false, false, .ok⟩
  keylen := 0
  noncelen := 0
  src := 0
  dst := 0
  len := 0
  cap := 0
  outlen := 0
  gfop := 0
  gfres := 0
  key := ⟨.zero, .zero, .zero, .zero, .zero, .zero, .zero, .zero⟩
  iv := .zero
  state := .zero

/-- Every internal register cleared, as at reset and at each completion (10_state.md R42). -/
def Internal.cleared : Internal := ⟨[], .zero, .zero, .zero, 0⟩

/-- The machine right after power-on reset (70_reset_and_hazards.md R250 to R252). The registers are the spec's;
memory lists nothing (log entry 4); the platform's parameters, the latency schedule, the host's script, its read data
and the draw counter are the model's (log entries 2, 3, 5, 7, 8). -/
def State.reset : State where
  regs := .reset
  internal := .cleared
  mem := []
  platform := ⟨0, false, [], []⟩
  latency := []
  countdown := 0
  owned := []
  script := []
  rdata := 0
  trace := []
  draws := 0

end Sys2Proof.Machine
end

