-- ==== Sys2Proof/Machine/Flags.lean ====
section
/-!
DEFINITION. The flags: the status codes' numbers, the `STATUS` word as the host reads it, and what issue and completion
make of the status (10_state.md R26, R45; 60_exceptions.md R220, R223, R225). The engine has no condition codes.
-/

namespace Sys2Proof.Machine

/-- The number of a status code (60_exceptions.md R220). -/
def errNumber : ErrCode → BitVec 4
  | .ok => 0
  | .invalidDataSize => 1
  | .invalidKeySize => 2
  | .invalidBufferSize => 3
  | .invalidKey => 4
  | .invalidNonceSize => 5
  | .illegalCommand => 6
  | .busError => 7

/-- `STATUS` as read: `BUSY[0]`, `DONE[1]`, `ERR[11:8]`, every reserved bit 0 (10_state.md R26). -/
def statusWord (st : Status) : Word :=
  (BitVec.ofBool st.busy).setWidth 32 ||| (BitVec.ofBool st.done).setWidth 32 <<< 1
    ||| (errNumber st.err).setWidth 32 <<< 8

/-- The status after an issue: a command in flight (60_exceptions.md R225). -/
def statusIssued : Status := ⟨true, false, .ok⟩

/-- The status after a completion with a code (60_exceptions.md R223). -/
def statusCompleted (code : ErrCode) : Status := ⟨false, true, code⟩

end Sys2Proof.Machine
end

