-- ==== Sys2Proof/Machine/Memory.lean ====
section
/-!
DEFINITION. Buffer memory as a sparse map in one canonical form: reading a byte, writing a byte, and the form itself
(20_memory.md R61, R64). A listed byte has a value; an unlisted one has whatever it had at power-on, a free value
(70_reset_and_hazards.md R251; log entry 4).
-/

namespace Sys2Proof.Machine

/-- The canonical form: addresses strictly rising and inside the 32-bit space. No entry equals what an unlisted address
reads as, since that is no value the model knows. -/
abbrev Memory.wf (m : Memory) : Prop :=
  m.Pairwise (fun p q => p.1 < q.1) ∧ ∀ c ∈ m, c.1 < Config.addressCount

/-- The byte listed at an address, if one is. -/
def Memory.listed : Memory → Nat → Option Byte
  | [], _ => none
  | (x, v) :: m, a => if a = x then some v else Memory.listed m a

/-- The byte at an address: the last value written (20_memory.md R64), else the free power-on value
(70_reset_and_hazards.md R251). -/
def Memory.read (m : Memory) (a : Nat) : Byte :=
  match m.listed a with
  | some v => v
  | none => Config.freePowerOnByte a

/-- Write a byte, keeping the canonical form. -/
def Memory.write : Memory → Nat → Byte → Memory
  | [], a, b => [(a, b)]
  | (x, v) :: m, a, b =>
    if a < x then (a, b) :: (x, v) :: m
    else if a = x then (a, b) :: m
    else (x, v) :: Memory.write m a b

/-- Write bytes at ascending addresses from `a`, wrapping modulo 2^32 (00_scope.md R12; 20_memory.md R61). -/
def Memory.writeBytes : List Byte → Word → Memory → Memory
  | [], _, m => m
  | b :: bs, a, m => Memory.writeBytes bs (a + 1) (m.write a.toNat b)

/-- `n` bytes at ascending addresses from `a`, wrapping modulo 2^32 (00_scope.md R12; 20_memory.md R61). -/
def Memory.readBytes : Nat → Word → Memory → List Byte
  | 0, _, _ => []
  | n + 1, a, m => m.read a.toNat :: Memory.readBytes n (a + 1) m

end Sys2Proof.Machine
end

