-- ==== Sys2Proof/Machine/Bytes.lean ====
section
/-!
DEFINITION. Byte layouts: rows and columns of a block, byte sequences, and the lanes of the 32-bit register words
(00_scope.md R10, R11; 10_state.md R22, R23).
-/

namespace Sys2Proof.Machine

/-- Byte of a column by its row (00_scope.md R11). Rows are 0 to 3. -/
def columnByte (c : Column) (r : Nat) : Byte :=
  match r with
  | 0 => c.r0
  | 1 => c.r1
  | 2 => c.r2
  | _ => c.r3

/-- Column of a block by its number, 0 to 3 (00_scope.md R11). -/
def blockColumn (s : Block) (c : Nat) : Column :=
  match c with
  | 0 => s.c0
  | 1 => s.c1
  | 2 => s.c2
  | _ => s.c3

/-- `S(r, c)`: the byte of a State at row `r` and column `c` (00_scope.md R11). -/
def stateAt (s : Block) (r c : Nat) : Byte := columnByte (blockColumn s c) r

/-- `s[k]`: row `k mod 4`, column `k div 4` (10_state.md R22). -/
def blockByte (s : Block) (k : Nat) : Byte := stateAt s (k % 4) (k / 4)

/-- The block with column `c` replaced. -/
def setBlockColumn (s : Block) (c : Nat) (v : Column) : Block :=
  match c with
  | 0 => { s with c0 := v }
  | 1 => { s with c1 := v }
  | 2 => { s with c2 := v }
  | _ => { s with c3 := v }

/-- The four bytes of a column, row 0 first. -/
def columnBytes (c : Column) : List Byte := [c.r0, c.r1, c.r2, c.r3]

/-- The sixteen bytes of a block, byte 0 first (00_scope.md R10, R11). -/
def blockBytes (s : Block) : List Byte :=
  columnBytes s.c0 ++ columnBytes s.c1 ++ columnBytes s.c2 ++ columnBytes s.c3

/-- The block of a 16-byte sequence; a byte the sequence lacks is 0. -/
def blockOfBytes (bs : List Byte) : Block :=
  ⟨⟨bs.getD 0 0, bs.getD 1 0, bs.getD 2 0, bs.getD 3 0⟩,
   ⟨bs.getD 4 0, bs.getD 5 0, bs.getD 6 0, bs.getD 7 0⟩,
   ⟨bs.getD 8 0, bs.getD 9 0, bs.getD 10 0, bs.getD 11 0⟩,
   ⟨bs.getD 12 0, bs.getD 13 0, bs.getD 14 0, bs.getD 15 0⟩⟩

/-- A function applied to each byte of a column. -/
def mapColumn (f : Byte → Byte) (c : Column) : Column := ⟨f c.r0, f c.r1, f c.r2, f c.r3⟩

/-- A function applied to each byte of a block. -/
def mapBlock (f : Byte → Byte) (s : Block) : Block :=
  ⟨mapColumn f s.c0, mapColumn f s.c1, mapColumn f s.c2, mapColumn f s.c3⟩

/-- Byte-wise exclusive or of two columns (00_scope.md R10). -/
def xorColumn (a b : Column) : Column := ⟨a.r0 ^^^ b.r0, a.r1 ^^^ b.r1, a.r2 ^^^ b.r2, a.r3 ^^^ b.r3⟩

/-- Byte-wise exclusive or of two blocks (00_scope.md R10). -/
def xorBlock (a b : Block) : Block :=
  ⟨xorColumn a.c0 b.c0, xorColumn a.c1 b.c1, xorColumn a.c2 b.c2, xorColumn a.c3 b.c3⟩

/-- A register word read: the lowest-numbered byte is in the least significant lane (10_state.md R23). -/
def wordOfColumn (c : Column) : Word :=
  c.r0.setWidth 32 ||| c.r1.setWidth 32 <<< 8 ||| c.r2.setWidth 32 <<< 16 ||| c.r3.setWidth 32 <<< 24

/-- A register word written: byte `4j+k` takes bits `[8k+7:8k]` (10_state.md R23). -/
def columnOfWord (w : Word) : Column :=
  ⟨w.extractLsb' 0 8, w.extractLsb' 8 8, w.extractLsb' 16 8, w.extractLsb' 24 8⟩

/-- The key's columns, word 0 first (10_state.md R35). -/
def keyColumns (k : KeyBytes) : List Column := [k.k0, k.k1, k.k2, k.k3, k.k4, k.k5, k.k6, k.k7]

/-- Word `j` of the key register. -/
def keyColumn (k : KeyBytes) (j : Nat) : Column := (keyColumns k).getD j .zero

/-- The key register with word `j` replaced. -/
def setKeyColumn (k : KeyBytes) (j : Nat) (v : Column) : KeyBytes :=
  match j with
  | 0 => { k with k0 := v }
  | 1 => { k with k1 := v }
  | 2 => { k with k2 := v }
  | 3 => { k with k3 := v }
  | 4 => { k with k4 := v }
  | 5 => { k with k5 := v }
  | 6 => { k with k6 := v }
  | _ => { k with k7 := v }

/-- The key register of 32 bytes in sequence, byte 0 first; a byte the sequence lacks is 0 (10_state.md R35). -/
def keyOfBytes (bs : List Byte) : KeyBytes :=
  let b0 := blockOfBytes bs
  let b1 := blockOfBytes (bs.drop 16)
  ⟨b0.c0, b0.c1, b0.c2, b0.c3, b1.c0, b1.c1, b1.c2, b1.c3⟩

end Sys2Proof.Machine
end

