-- ==== Sys2Proof/Machine/Operands.lean ====
section
/-!
DEFINITION. Operand assembly: the fields a command takes from the registers, the sizes derived from them, padding, the
counter, and the checks that come before any buffer access (30_encoding.md R84; 41_key_schedule.md R110;
43_modes.md R170 to R178). Length arithmetic is on unbounded naturals (43_modes.md R170).
-/

namespace Sys2Proof.Machine

/-- Operand A of the GF commands, `GFOP[7:0]` (10_state.md R33). -/
def gfOperandA (r : Regs) : Byte := r.gfop.extractLsb' 0 8

/-- Operand B of the GF commands, `GFOP[15:8]` (10_state.md R33). -/
def gfOperandB (r : Regs) : Byte := r.gfop.extractLsb' 8 8

/-- `KeySizeOK` (43_modes.md R171). -/
def keySizeOk (r : Regs) : Bool := r.keylen == 16 || r.keylen == 24 || r.keylen == 32

/-- `Nk = KEYLEN / 4`, the key's words (41_key_schedule.md R110). -/
def keyWordCount (r : Regs) : Nat := r.keylen.toNat / 4

/-- `Nr`: 10, 12 or 14 rounds for 4, 6 or 8 key words (41_key_schedule.md R110). -/
def roundCount (nk : Nat) : Nat :=
  if nk = 4 then 10 else if nk = 6 then 12 else 14

/-- `KEY[0..KEYLEN)` as words; the rest of the register is ignored (10_state.md R35; 41_key_schedule.md R111). -/
def keyWords (r : Regs) : List Column := (keyColumns r.key).take (keyWordCount r)

/-- `LEN` as a natural number. -/
def dataLength (r : Regs) : Nat := r.len.toNat

/-- `CAP` as a natural number. -/
def capacity (r : Regs) : Nat := r.cap.toNat

/-- `OutSize` of an encryption, not reduced modulo 2^32 (43_modes.md R172). -/
def outSize (pad : Bool) (r : Regs) : Nat :=
  if pad then dataLength r + 16 - dataLength r % 16 else dataLength r

/-- The pad value `v = 16 - (L mod 16)` (43_modes.md R174). -/
def padValue (len : Nat) : Nat := 16 - len % 16

/-- The data bytes of block `j`: 16, or what is left of the data (43_modes.md R180). -/
def blockDataLength (len j : Nat) : Nat := min 16 (len - 16 * j)

/-- A block of the padded data: the data bytes, then the pad value up to 16 bytes (43_modes.md R174, R180). -/
def padBlock (len : Nat) (data : List Byte) : Block :=
  blockOfBytes (data ++ List.replicate (16 - data.length) (BitVec.ofNat 8 (padValue len)))

/-- The claimed pad length `p = P[15]` of a decrypted last block (43_modes.md R176). -/
def padLength (p : Block) : Nat := (blockByte p 15).toNat

/-- `PadValid(P)`: the claimed length is 1 to 16 and the last `p` bytes all equal `p` (43_modes.md R176). -/
def padValid (p : Block) : Bool :=
  decide (1 ≤ padLength p) && decide (padLength p ≤ 16)
    && ((blockBytes p).drop (16 - padLength p)).all (· == blockByte p 15)

/-- The initial CBC chaining value: the IV if it is provided, else zero (43_modes.md R182, R183). -/
def initialChain (iven : Bool) (r : Regs) : Block := if iven then r.iv else .zero

/-- `CTR0`: the nonce bytes followed by zero bytes (43_modes.md R175). -/
def initialCounter (r : Regs) : Block :=
  blockOfBytes ((blockBytes r.iv).take r.noncelen.toNat ++ List.replicate (16 - r.noncelen.toNat) 0)

/-- Add 1 to a number whose bytes stand least significant first; a carry out of the last byte is dropped. -/
def incrementBytes : List Byte → List Byte
  | [] => []
  | b :: bs => if b + 1 = 0 then 0 :: incrementBytes bs else (b + 1) :: bs

/-- `CtrInc`: add 1 modulo 2^128, byte 15 least significant (43_modes.md R175). -/
def incrementCounter (c : Block) : Block := blockOfBytes (incrementBytes (blockBytes c).reverse).reverse

/-- The encrypt precondition of `ECB_ENC` and `CBC_ENC`: the first failing check (43_modes.md R172). -/
def encryptCheck (pad : Bool) (r : Regs) : Option ErrCode :=
  if !pad && dataLength r % 16 != 0 then some .invalidDataSize
  else if !keySizeOk r then some .invalidKeySize
  else if decide (outSize pad r > capacity r) then some .invalidBufferSize
  else none

/-- The decrypt precondition of `ECB_DEC` and `CBC_DEC`: the first failing check (43_modes.md R173). -/
def decryptCheck (pad : Bool) (r : Regs) : Option ErrCode :=
  if dataLength r % 16 != 0 then some .invalidDataSize
  else if pad && dataLength r == 0 then some .invalidDataSize
  else if !keySizeOk r then some .invalidKeySize
  else if !pad && decide (capacity r < dataLength r) then some .invalidBufferSize
  else if pad && decide (capacity r < dataLength r - 16) then some .invalidBufferSize
  else none

/-- The precondition of `CTR`: the key size, then the nonce size (43_modes.md R171, R178, R184). -/
def ctrCheck (r : Regs) : Option ErrCode :=
  if !keySizeOk r then some .invalidKeySize
  else if decide (r.noncelen.toNat > 16) then some .invalidNonceSize
  else none

/-- The check of a command that uses the key and no buffer (43_modes.md R171). -/
def keyCheck (r : Regs) : Option ErrCode := if !keySizeOk r then some .invalidKeySize else none

/-- The check of a command that takes a round-key index: the key size, then the index (60_exceptions.md R222). -/
def roundKeyCheck (rkidx : Nat) (r : Regs) : Option ErrCode :=
  if !keySizeOk r then some .invalidKeySize
  else if decide (rkidx > roundCount (keyWordCount r)) then some .illegalCommand
  else none

end Sys2Proof.Machine
end

