-- ==== Sys2Proof/Machine/Ops.lean ====
section
/-!
DEFINITION. The shared operations of the commands: a run of the engine inside one command, buffer accesses, register
results, `raise Error(CODE)` and `complete`, and issue (00_scope.md R12; 20_memory.md R61 to R67; 60_exceptions.md
R223 to R225).
-/

namespace Sys2Proof.Machine

/-- The engine inside a command: it goes on with a value, or it has raised an error (00_scope.md R12). The state of a
raised error holds the buffer writes made before it (60_exceptions.md R224). -/
inductive Run (α : Type) where
  | done (value : α) (s : State)
  | raised (code : ErrCode) (s : State)
deriving DecidableEq, Repr

/-- Go on, unless an error has been raised: `raise Error(CODE)` ends the command at once (00_scope.md R12). -/
def Run.andThen {α β : Type} (r : Run α) (k : α → State → Run β) : Run β :=
  match r with
  | .done v s => k v s
  | .raised code s => .raised code s

/-- Is the address in the range, modulo 2^32? -/
def Range.holds (r : Range) (a : Word) : Bool := decide ((a - r.base).toNat < r.len)

/-- Is the address in the register window (10_state.md R24)? -/
def inWindow (p : Platform) (a : Word) : Bool := decide ((a - p.engineBase).toNat < Config.windowBytes)

/-- `MEM_ADMIT(addr, kind)` (20_memory.md R62). It refuses the register window if the bus reaches it (20_memory.md
R75; log entry 18). -/
def memAdmit (p : Platform) (kind : AccessKind) (a : Word) : Bool :=
  !(p.windowOnBus && inWindow p a) &&
    match kind with
    | .read => !p.refusedReads.any (·.holds a)
    | .write => !p.refusedWrites.any (·.holds a)

/-- The access added to the trace. -/
def traceAccess (x : Access) (s : State) : State := { s with trace := x :: s.trace }

/-- The byte written to memory and counted in `NWR` (10_state.md R42). -/
def storeByte (a : Word) (b : Byte) (s : State) : State :=
  { s with mem := s.mem.write a.toNat b, internal := { s.internal with nwr := s.internal.nwr + 1 } }

/-- Read one byte of buffer memory; `BUS_ERROR` if it is refused (20_memory.md R62, R64). -/
def busRead (a : Word) (s : State) : Run Byte :=
  if memAdmit s.platform .read a then
    .done (s.mem.read a.toNat) (traceAccess ⟨.read, a, s.mem.read a.toNat⟩ s)
  else .raised .busError s

/-- Write one byte of buffer memory; `BUS_ERROR` if it is refused (20_memory.md R62, R64). -/
def busWrite (a : Word) (b : Byte) (s : State) : Run Unit :=
  if memAdmit s.platform .write a then .done () (storeByte a b (traceAccess ⟨.write, a, b⟩ s))
  else .raised .busError s

/-- `MemRead(addr, n)`: one byte at a time, ascending (00_scope.md R12). -/
def memRead : Nat → Word → State → Run (List Byte)
  | 0, _, s => .done [] s
  | n + 1, a, s => (busRead a s).andThen fun b s => (memRead n (a + 1) s).andThen fun bs s => .done (b :: bs) s

/-- `MemWrite(addr, n, v)`: one byte at a time, ascending (00_scope.md R12). -/
def memWrite : List Byte → Word → State → Run Unit
  | [], _, s => .done () s
  | b :: bs, a, s => (busWrite a b s).andThen fun _ s => memWrite bs (a + 1) s

/-- `SRC + 16*j` modulo 2^32 (20_memory.md R61). -/
def srcBlock (r : Regs) (j : Nat) : Word := r.src + BitVec.ofNat 32 (16 * j)

/-- `DST + 16*j` modulo 2^32 (20_memory.md R61). -/
def dstBlock (r : Regs) (j : Nat) : Word := r.dst + BitVec.ofNat 32 (16 * j)

/-- `RK <- v` (10_state.md R42). -/
def setRk (v : List Column) (s : State) : State := { s with internal := { s.internal with rk := v } }

/-- `CHAIN <- v` (10_state.md R42). -/
def setChain (v : Block) (s : State) : State := { s with internal := { s.internal with chain := v } }

/-- `CTRV <- v` (10_state.md R42). -/
def setCtrv (v : Block) (s : State) : State := { s with internal := { s.internal with ctrv := v } }

/-- `BLK <- v` (10_state.md R42). -/
def setBlk (v : Block) (s : State) : State := { s with internal := { s.internal with blk := v } }

/-- `STATE <- v` (10_state.md R37). -/
def setState (v : Block) (s : State) : State := { s with regs := { s.regs with state := v } }

/-- `GFRES <- v` (10_state.md R34). -/
def setGfres (v : Byte) (s : State) : State := { s with regs := { s.regs with gfres := v } }

/-- Completion: `OUTLEN` takes the count of bytes written, `STATUS` the code, and the internal registers are cleared
(60_exceptions.md R223). This is the one way a command ends, and how the engine reports an error. -/
def complete (code : ErrCode) (s : State) : State :=
  { s with
    regs := { s.regs with outlen := s.internal.nwr, status := statusCompleted code }
    internal := .cleared }

/-- End a command: `complete(OK)`, or the completion of the error it raised (00_scope.md R12; 60_exceptions.md R223). -/
def finish (r : Run Unit) : Host.Outcome State Fault Refusal :=
  match r with
  | .done _ s => .next (complete .ok s)
  | .raised code s => .next (complete code s)

/-- Raise the error of a failed check, else go on (60_exceptions.md R222). -/
def checked (check : Option ErrCode) (s : State) (k : State → Run Unit) : Run Unit :=
  match check with
  | some code => .raised code s
  | none => k s

/-- Start the command word `v`: `CMD <- v; BUSY <- 1; DONE <- 0; ERR <- 0; NWR <- 0` (60_exceptions.md R225). The
trace, the model's own, starts anew with it (log entry 10). -/
def startCommand (v : Word) (s : State) : State :=
  { s with
    regs := { s.regs with cmd := v, status := statusIssued }
    internal := { s.internal with nwr := 0 }
    trace := [] }

/-- The buffer bytes the engine owns from the issue of a command on: `[SRC, SRC+LEN)` and `[DST, DST+CAP)` of an ECB or
CBC command, `[SRC, SRC+LEN)` of `CTR` (70_reset_and_hazards.md R255). -/
def ownedBy (i : Instr) (r : Regs) : List Range :=
  match i with
  | .ecbEnc _ | .ecbDec _ | .cbcEnc _ _ | .cbcDec _ _ => [⟨r.src, dataLength r⟩, ⟨r.dst, capacity r⟩]
  | .ctr => [⟨r.src, dataLength r⟩]
  | .gfDouble | .gfMul | .subBytes | .invSubBytes | .shiftRows | .invShiftRows | .mixColumns | .invMixColumns
  | .addRoundKey _ | .keyExpand _ | .encBlock | .decBlock => []

/-- The buffer bytes a command word makes the engine own; an illegal word accesses none. -/
def ownedByWord (v : Word) (r : Regs) : List Range :=
  match decode v with
  | .ok i => ownedBy i r
  | .error _ => []

/-- Issue, on an accepted host write of `v` to `CMD` (60_exceptions.md R225). `LATENCY` of the command is the head of the
schedule and at least 1 (70_reset_and_hazards.md R257). -/
def issue (v : Word) (s : State) : State :=
  { startCommand v s with
    owned := ownedByWord v s.regs ++ s.owned
    countdown := s.latency.headD 1 - 1
    latency := s.latency.tail }

end Sys2Proof.Machine
end

