-- ==== Sys2Proof/Machine/Gf.lean ====
section
/-!
DEFINITION. Galois-field arithmetic: `double_gf`, `mul_gf`, and the commands `GF_DOUBLE` and `GF_MUL`
(40_gf_arithmetic.md).
-/

namespace Sys2Proof.Machine

/-- `double_gf(b)`: `b` times `{02}` (40_gf_arithmetic.md R100). -/
def doubleGf (b : Byte) : Byte := if b.msb then (b <<< 1) ^^^ 0x1B else b <<< 1

/-- The last `n` iterations of `mul_gf`, from bit `i` of `m` on (40_gf_arithmetic.md R101). -/
def mulGfFrom : Nat → Nat → Byte → Byte → Byte → Byte
  | 0, _, _, _, acc => acc
  | n + 1, i, b, m, acc => mulGfFrom n (i + 1) (doubleGf b) m (if m.getLsbD i then acc ^^^ b else acc)

/-- `mul_gf(b, m)`: `b` times `m`, in eight iterations (40_gf_arithmetic.md R101). -/
def mulGf (b m : Byte) : Byte := mulGfFrom 8 0 b m 0

/-- `GF_DOUBLE` (40_gf_arithmetic.md R103). -/
def execGfDouble (s : State) : Host.Outcome State Fault Refusal :=
  finish (.done () (setGfres (doubleGf (gfOperandA s.regs)) s))

/-- `GF_MUL` (40_gf_arithmetic.md R104). -/
def execGfMul (s : State) : Host.Outcome State Fault Refusal :=
  finish (.done () (setGfres (mulGf (gfOperandA s.regs) (gfOperandB s.regs)) s))

end Sys2Proof.Machine
end

