-- ==== Sys2Proof/Machine/KeySchedule.lean ====
section
/-!
DEFINITION. The key schedule expander and the command `KEY_EXPAND` (41_key_schedule.md).
-/

namespace Sys2Proof.Machine

/-- The round constants, indices 0 to 10 (41_key_schedule.md R112). -/
def rconTable : List Byte := [0x00, 0x01, 0x02, 0x04, 0x08, 0x10, 0x20, 0x40, 0x80, 0x1B, 0x36]

/-- The word XORed in: `[Rcon[j], 0, 0, 0]` (41_key_schedule.md R112; 90_conflicts.md C1). -/
def rconWord (j : Nat) : Column := ⟨rconTable.getD j 0, 0, 0, 0⟩

/-- `RotWord([w0, w1, w2, w3]) = [w1, w2, w3, w0]` (41_key_schedule.md R113; 90_conflicts.md C1). -/
def rotWord (w : Column) : Column := ⟨w.r1, w.r2, w.r3, w.r0⟩

/-- `SubWord` (41_key_schedule.md R114). -/
def subWord (w : Column) : Column := mapColumn sbox w

/-- Word `i` of an expanded key (41_key_schedule.md R111). -/
def scheduleWord (w : List Column) (i : Nat) : Column := w.getD i .zero

/-- `w[i]` from the words before it (41_key_schedule.md R115). -/
def nextKeyWord (nk i : Nat) (w : List Column) : Column :=
  let t := scheduleWord w (i - 1)
  let t :=
    if i % nk = 0 then xorColumn (subWord (rotWord t)) (rconWord (i / nk))
    else if nk > 6 ∧ i % nk = 4 then subWord t
    else t
  xorColumn t (scheduleWord w (i - nk))

/-- The words from `i` on, `n` of them (41_key_schedule.md R115). -/
def expandFrom (nk : Nat) : Nat → Nat → List Column → List Column
  | 0, _, w => w
  | n + 1, i, w => expandFrom nk n (i + 1) (w ++ [nextKeyWord nk i w])

/-- `ExpandKey(key)` for a key of 4, 6 or 8 words: `4*(Nr+1)` words (41_key_schedule.md R115). -/
def expandKey (key : List Column) : List Column :=
  let nk := key.length
  expandFrom nk (4 * (roundCount nk + 1) - nk) nk key

/-- Round key `r`: the State whose column `c` is word `w[4r + c]` (41_key_schedule.md R116). -/
def roundKey (w : List Column) (r : Nat) : Block :=
  ⟨scheduleWord w (4 * r), scheduleWord w (4 * r + 1), scheduleWord w (4 * r + 2), scheduleWord w (4 * r + 3)⟩

/-- `RK <- ExpandKey(KEY[0..KEYLEN))`: every command computes its own schedule (41_key_schedule.md R117). -/
def loadSchedule (s : State) : State := setRk (expandKey (keyWords s.regs)) s

/-- `KEY_EXPAND k` (41_key_schedule.md R118). -/
def execKeyExpand (rkidx : Nat) (s : State) : Host.Outcome State Fault Refusal :=
  finish <| checked (roundKeyCheck rkidx s.regs) s fun s =>
    let s := loadSchedule s
    .done () (setState (roundKey s.internal.rk rkidx) s)

end Sys2Proof.Machine
end

