-- ==== Sys2Proof/Machine/Round.lean ====
section
/-!
DEFINITION. The round-transform engine: the step functions, both block transforms, and the commands that expose them
(42_round_transform.md).
-/

namespace Sys2Proof.Machine

/-- `SubBytes` (42_round_transform.md R132). -/
def subBytes (s : Block) : Block := mapBlock sbox s

/-- `InvSubBytes` (42_round_transform.md R133). -/
def invSubBytes (s : Block) : Block := mapBlock invSbox s

/-- `ShiftRows`: row `r` moves left by `r` columns (42_round_transform.md R134). -/
def shiftRows (s : Block) : Block :=
  ⟨⟨s.c0.r0, s.c1.r1, s.c2.r2, s.c3.r3⟩,
   ⟨s.c1.r0, s.c2.r1, s.c3.r2, s.c0.r3⟩,
   ⟨s.c2.r0, s.c3.r1, s.c0.r2, s.c1.r3⟩,
   ⟨s.c3.r0, s.c0.r1, s.c1.r2, s.c2.r3⟩⟩

/-- `InvShiftRows`: row `r` moves right by `r` columns (42_round_transform.md R135). -/
def invShiftRows (s : Block) : Block :=
  ⟨⟨s.c0.r0, s.c3.r1, s.c2.r2, s.c1.r3⟩,
   ⟨s.c1.r0, s.c0.r1, s.c3.r2, s.c2.r3⟩,
   ⟨s.c2.r0, s.c1.r1, s.c0.r2, s.c3.r3⟩,
   ⟨s.c3.r0, s.c2.r1, s.c1.r2, s.c0.r3⟩⟩

/-- One column of `MixColumns`: the matrix of `{02,03,01,01}` through `double_gf` (42_round_transform.md R136). -/
def mixColumn (a : Column) : Column :=
  ⟨doubleGf a.r0 ^^^ (doubleGf a.r1 ^^^ a.r1) ^^^ a.r2 ^^^ a.r3,
   a.r0 ^^^ doubleGf a.r1 ^^^ (doubleGf a.r2 ^^^ a.r2) ^^^ a.r3,
   a.r0 ^^^ a.r1 ^^^ doubleGf a.r2 ^^^ (doubleGf a.r3 ^^^ a.r3),
   (doubleGf a.r0 ^^^ a.r0) ^^^ a.r1 ^^^ a.r2 ^^^ doubleGf a.r3⟩

/-- `MixColumns` (42_round_transform.md R136). -/
def mixColumns (s : Block) : Block := ⟨mixColumn s.c0, mixColumn s.c1, mixColumn s.c2, mixColumn s.c3⟩

/-- One column of `InvMixColumns`: the matrix of `{0E,0B,0D,09}` through `mul_gf` (42_round_transform.md R137). -/
def invMixColumn (a : Column) : Column :=
  ⟨mulGf a.r0 0x0E ^^^ mulGf a.r1 0x0B ^^^ mulGf a.r2 0x0D ^^^ mulGf a.r3 0x09,
   mulGf a.r0 0x09 ^^^ mulGf a.r1 0x0E ^^^ mulGf a.r2 0x0B ^^^ mulGf a.r3 0x0D,
   mulGf a.r0 0x0D ^^^ mulGf a.r1 0x09 ^^^ mulGf a.r2 0x0E ^^^ mulGf a.r3 0x0B,
   mulGf a.r0 0x0B ^^^ mulGf a.r1 0x0D ^^^ mulGf a.r2 0x09 ^^^ mulGf a.r3 0x0E⟩

/-- `InvMixColumns` (42_round_transform.md R137). -/
def invMixColumns (s : Block) : Block :=
  ⟨invMixColumn s.c0, invMixColumn s.c1, invMixColumn s.c2, invMixColumn s.c3⟩

/-- `AddRoundKey` (42_round_transform.md R138). -/
def addRoundKey (s k : Block) : Block := xorBlock s k

/-- `Nr = len(RK) - 1` of a schedule of `4*(Nr+1)` words (42_round_transform.md R139). -/
def scheduleRounds (w : List Column) : Nat := w.length / 4 - 1

/-- `n` middle rounds of `Cipher`, from round `r` on (42_round_transform.md R139). -/
def cipherRounds (w : List Column) : Nat → Nat → Block → Block
  | 0, _, s => s
  | n + 1, r, s => cipherRounds w n (r + 1) (addRoundKey (mixColumns (shiftRows (subBytes s))) (roundKey w r))

/-- `Cipher(RK, s)` (42_round_transform.md R139). -/
def cipher (w : List Column) (s : Block) : Block :=
  let nr := scheduleRounds w
  let s := addRoundKey s (roundKey w 0)
  let s := cipherRounds w (nr - 1) 1 s
  addRoundKey (shiftRows (subBytes s)) (roundKey w nr)

/-- Rounds `r` down to 1 of `InvCipher` (42_round_transform.md R140). -/
def invCipherRounds (w : List Column) : Nat → Block → Block
  | 0, s => s
  | r + 1, s =>
    invCipherRounds w r (invSubBytes (invShiftRows (invMixColumns (addRoundKey s (roundKey w (r + 1))))))

/-- `InvCipher(RK, s)` (42_round_transform.md R140). -/
def invCipher (w : List Column) (s : Block) : Block :=
  let nr := scheduleRounds w
  let s := invSubBytes (invShiftRows (addRoundKey s (roundKey w nr)))
  let s := invCipherRounds w (nr - 1) s
  addRoundKey s (roundKey w 0)

/-- `SUB_BYTES` (42_round_transform.md R150). -/
def execSubBytes (s : State) : Host.Outcome State Fault Refusal :=
  finish (.done () (setState (subBytes s.regs.state) s))

/-- `INV_SUB_BYTES` (42_round_transform.md R151). -/
def execInvSubBytes (s : State) : Host.Outcome State Fault Refusal :=
  finish (.done () (setState (invSubBytes s.regs.state) s))

/-- `SHIFT_ROWS` (42_round_transform.md R152). -/
def execShiftRows (s : State) : Host.Outcome State Fault Refusal :=
  finish (.done () (setState (shiftRows s.regs.state) s))

/-- `INV_SHIFT_ROWS` (42_round_transform.md R153). -/
def execInvShiftRows (s : State) : Host.Outcome State Fault Refusal :=
  finish (.done () (setState (invShiftRows s.regs.state) s))

/-- `MIX_COLUMNS` (42_round_transform.md R154). -/
def execMixColumns (s : State) : Host.Outcome State Fault Refusal :=
  finish (.done () (setState (mixColumns s.regs.state) s))

/-- `INV_MIX_COLUMNS` (42_round_transform.md R155). -/
def execInvMixColumns (s : State) : Host.Outcome State Fault Refusal :=
  finish (.done () (setState (invMixColumns s.regs.state) s))

/-- `ADD_ROUND_KEY k` (42_round_transform.md R156). -/
def execAddRoundKey (rkidx : Nat) (s : State) : Host.Outcome State Fault Refusal :=
  finish <| checked (roundKeyCheck rkidx s.regs) s fun s =>
    let s := loadSchedule s
    .done () (setState (addRoundKey s.regs.state (roundKey s.internal.rk rkidx)) s)

/-- `ENC_BLOCK` (42_round_transform.md R157). -/
def execEncBlock (s : State) : Host.Outcome State Fault Refusal :=
  finish <| checked (keyCheck s.regs) s fun s =>
    let s := loadSchedule s
    .done () (setState (cipher s.internal.rk s.regs.state) s)

/-- `DEC_BLOCK` (42_round_transform.md R158). -/
def execDecBlock (s : State) : Host.Outcome State Fault Refusal :=
  finish <| checked (keyCheck s.regs) s fun s =>
    let s := loadSchedule s
    .done () (setState (invCipher s.internal.rk s.regs.state) s)

end Sys2Proof.Machine
end

