-- ==== Sys2Proof/Machine/Modes.lean ====
section
/-!
DEFINITION. The mode controller: ECB, CBC and CTR across a buffer (43_modes.md). Each command makes its buffer accesses
in the order of 20_memory.md R67: blocks in ascending order; in an ECB or CBC block all reads, then all writes; in CTR
each byte read, then written.
-/

namespace Sys2Proof.Machine

/-- The input block `j` of an encryption into `BLK`: its data bytes, then the pad value (43_modes.md R180). -/
def readPlainBlock (j : Nat) (s : State) : Run Unit :=
  (memRead (blockDataLength (dataLength s.regs) j) (srcBlock s.regs j) s).andThen fun data s =>
    .done () (setBlk (padBlock (dataLength s.regs) data) s)

/-- `n` blocks of `ECB_ENC` from block `j` on (43_modes.md R180). -/
def ecbEncBlocks : Nat → Nat → State → Run Unit
  | 0, _, s => .done () s
  | n + 1, j, s =>
    (readPlainBlock j s).andThen fun _ s =>
      let s := setBlk (cipher s.internal.rk s.internal.blk) s
      (memWrite (blockBytes s.internal.blk) (dstBlock s.regs j) s).andThen fun _ s => ecbEncBlocks n (j + 1) s

/-- `n` blocks of `CBC_ENC` from block `j` on (43_modes.md R182). -/
def cbcEncBlocks : Nat → Nat → State → Run Unit
  | 0, _, s => .done () s
  | n + 1, j, s =>
    (readPlainBlock j s).andThen fun _ s =>
      let s := setBlk (cipher s.internal.rk (xorBlock s.internal.blk s.internal.chain)) s
      (memWrite (blockBytes s.internal.blk) (dstBlock s.regs j) s).andThen fun _ s =>
        cbcEncBlocks n (j + 1) (setChain s.internal.blk s)

/-- The decrypted block `j`, held in `BLK`, written out. With `unpad`, which the last block of a decryption with
`PAD = 1` has, the padding is checked, then the capacity, and the pad bytes are left out (43_modes.md R176, R177,
R181). -/
def writePlainBlock (unpad : Bool) (j : Nat) (s : State) : Run Unit :=
  let blk := s.internal.blk
  if unpad then
    if !padValid blk then .raised .invalidKey s
    else if decide (dataLength s.regs - padLength blk > capacity s.regs) then .raised .invalidBufferSize s
    else memWrite ((blockBytes blk).take (16 - padLength blk)) (dstBlock s.regs j) s
  else memWrite (blockBytes blk) (dstBlock s.regs j) s

/-- `n` blocks of `ECB_DEC` from block `j` on; the last of them is the last of the data (43_modes.md R181). -/
def ecbDecBlocks (pad : Bool) : Nat → Nat → State → Run Unit
  | 0, _, s => .done () s
  | n + 1, j, s =>
    (memRead 16 (srcBlock s.regs j) s).andThen fun c s =>
      let s := setBlk (invCipher s.internal.rk (blockOfBytes c)) s
      (writePlainBlock (pad && n == 0) j s).andThen fun _ s => ecbDecBlocks pad n (j + 1) s

/-- `n` blocks of `CBC_DEC` from block `j` on; the chaining value is the raw ciphertext block (43_modes.md R183). -/
def cbcDecBlocks (pad : Bool) : Nat → Nat → State → Run Unit
  | 0, _, s => .done () s
  | n + 1, j, s =>
    (memRead 16 (srcBlock s.regs j) s).andThen fun c s =>
      let s := setBlk (xorBlock (invCipher s.internal.rk (blockOfBytes c)) s.internal.chain) s
      let s := setChain (blockOfBytes c) s
      (writePlainBlock (pad && n == 0) j s).andThen fun _ s => cbcDecBlocks pad n (j + 1) s

/-- Data bytes XORed in place with keystream bytes, each read and then written (43_modes.md R184; 20_memory.md R67). -/
def ctrBytes : List Byte → Word → State → Run Unit
  | [], _, s => .done () s
  | k :: ks, a, s =>
    (busRead a s).andThen fun b s => (busWrite a (b ^^^ k) s).andThen fun _ s => ctrBytes ks (a + 1) s

/-- `n` keystream blocks of `CTR` from block `j` on (43_modes.md R184). -/
def ctrBlocks : Nat → Nat → State → Run Unit
  | 0, _, s => .done () s
  | n + 1, j, s =>
    let s := setBlk (cipher s.internal.rk s.internal.ctrv) s
    let ks := (blockBytes s.internal.blk).take (blockDataLength (dataLength s.regs) j)
    (ctrBytes ks (srcBlock s.regs j) s).andThen fun _ s =>
      ctrBlocks n (j + 1) (setCtrv (incrementCounter s.internal.ctrv) s)

/-- `ECB_ENC` (43_modes.md R180). -/
def execEcbEnc (pad : Bool) (s : State) : Host.Outcome State Fault Refusal :=
  finish <| checked (encryptCheck pad s.regs) s fun s =>
    ecbEncBlocks (outSize pad s.regs / 16) 0 (loadSchedule s)

/-- `ECB_DEC` (43_modes.md R181). -/
def execEcbDec (pad : Bool) (s : State) : Host.Outcome State Fault Refusal :=
  finish <| checked (decryptCheck pad s.regs) s fun s =>
    ecbDecBlocks pad (dataLength s.regs / 16) 0 (loadSchedule s)

/-- `CBC_ENC` (43_modes.md R182). -/
def execCbcEnc (pad iven : Bool) (s : State) : Host.Outcome State Fault Refusal :=
  finish <| checked (encryptCheck pad s.regs) s fun s =>
    cbcEncBlocks (outSize pad s.regs / 16) 0 (setChain (initialChain iven s.regs) (loadSchedule s))

/-- `CBC_DEC` (43_modes.md R183). -/
def execCbcDec (pad iven : Bool) (s : State) : Host.Outcome State Fault Refusal :=
  finish <| checked (decryptCheck pad s.regs) s fun s =>
    cbcDecBlocks pad (dataLength s.regs / 16) 0 (setChain (initialChain iven s.regs) (loadSchedule s))

/-- `CTR` (43_modes.md R184). -/
def execCtr (s : State) : Host.Outcome State Fault Refusal :=
  finish <| checked (ctrCheck s.regs) s fun s =>
    ctrBlocks ((dataLength s.regs + 15) / 16) 0 (setCtrv (initialCounter s.regs) (loadSchedule s))

end Sys2Proof.Machine
end

