-- ==== Sys2Proof/Machine/Dispatch.lean ====
section
/-! DEFINITION. The meaning of each command, one arm a constructor. -/

namespace Sys2Proof.Machine

def exec (i : Instr) (s : State) : Host.Outcome State Fault Refusal :=
  match i with
  | .gfDouble => Sys2Proof.Machine.execGfDouble s
  | .gfMul => Sys2Proof.Machine.execGfMul s
  | .subBytes => Sys2Proof.Machine.execSubBytes s
  | .invSubBytes => Sys2Proof.Machine.execInvSubBytes s
  | .shiftRows => Sys2Proof.Machine.execShiftRows s
  | .invShiftRows => Sys2Proof.Machine.execInvShiftRows s
  | .mixColumns => Sys2Proof.Machine.execMixColumns s
  | .invMixColumns => Sys2Proof.Machine.execInvMixColumns s
  | .addRoundKey k => Sys2Proof.Machine.execAddRoundKey k s
  | .keyExpand k => Sys2Proof.Machine.execKeyExpand k s
  | .encBlock => Sys2Proof.Machine.execEncBlock s
  | .decBlock => Sys2Proof.Machine.execDecBlock s
  | .ecbEnc pad => Sys2Proof.Machine.execEcbEnc pad s
  | .ecbDec pad => Sys2Proof.Machine.execEcbDec pad s
  | .cbcEnc pad iven => Sys2Proof.Machine.execCbcEnc pad iven s
  | .cbcDec pad iven => Sys2Proof.Machine.execCbcDec pad iven s
  | .ctr => Sys2Proof.Machine.execCtr s

end Sys2Proof.Machine
end

