-- ==== Sys2Proof/Machine/Window.lean ====
section
/-!
DEFINITION. The register window: its map, what a host read of a register returns, what a host write of a register does
(10_state.md R23 to R41).
-/

namespace Sys2Proof.Machine

/-- The offset of a register in the window (10_state.md R24). -/
def regOffset : Reg → Nat
  | .cmd => 0x000
  | .status => 0x004
  | .keylen => 0x008
  | .noncelen => 0x00C
  | .src => 0x010
  | .dst => 0x014
  | .len => 0x018
  | .cap => 0x01C
  | .outlen => 0x020
  | .gfop => 0x024
  | .gfres => 0x028
  | .key j => 0x040 + 4 * j.val
  | .iv j => 0x060 + 4 * j.val
  | .state j => 0x070 + 4 * j.val

/-- The register at a word-aligned offset; none at a reserved offset (10_state.md R24). -/
def regAt (off : Nat) : Option Reg :=
  if off = 0x000 then some .cmd
  else if off = 0x004 then some .status
  else if off = 0x008 then some .keylen
  else if off = 0x00C then some .noncelen
  else if off = 0x010 then some .src
  else if off = 0x014 then some .dst
  else if off = 0x018 then some .len
  else if off = 0x01C then some .cap
  else if off = 0x020 then some .outlen
  else if off = 0x024 then some .gfop
  else if off = 0x028 then some .gfres
  else if off % 4 = 0 ∧ 0x040 ≤ off ∧ off < 0x060 then some (.key (Fin.ofNat 8 ((off - 0x040) / 4)))
  else if off % 4 = 0 ∧ 0x060 ≤ off ∧ off < 0x070 then some (.iv (Fin.ofNat 4 ((off - 0x060) / 4)))
  else if off % 4 = 0 ∧ 0x070 ≤ off ∧ off < 0x080 then some (.state (Fin.ofNat 4 ((off - 0x070) / 4)))
  else none

/-- The bus address of a register (10_state.md R24; 30_encoding.md R87). -/
def regAddr (p : Platform) (r : Reg) : Word := p.engineBase + BitVec.ofNat 32 (regOffset r)

/-- The offset of a host access to the window, if it is a 32-bit access at a word-aligned offset inside it
(10_state.md R39). -/
def windowOffset (p : Platform) (addr : Word) (size : AccessSize) : Option Nat :=
  let off := (addr - p.engineBase).toNat
  if size = .word ∧ off < Config.windowBytes ∧ off % 4 = 0 then some off else none

/-- The word a register holds: bits it does not have read 0 (10_state.md R23 to R38). -/
def regValue (r : Regs) : Reg → Word
  | .cmd => r.cmd
  | .status => statusWord r.status
  | .keylen => r.keylen
  | .noncelen => r.noncelen
  | .src => r.src
  | .dst => r.dst
  | .len => r.len
  | .cap => r.cap
  | .outlen => r.outlen
  | .gfop => r.gfop.setWidth 32
  | .gfres => r.gfres.setWidth 32
  | .key j => wordOfColumn (keyColumn r.key j.val)
  | .iv j => wordOfColumn (blockColumn r.iv j.val)
  | .state j => wordOfColumn (blockColumn r.state j.val)

/-- The registers whose value a command in flight may be updating (10_state.md R41). -/
def unsettled : Reg → Bool
  | .state _ | .gfres | .outlen => true
  | .cmd | .status | .keylen | .noncelen | .src | .dst | .len | .cap | .gfop | .key _ | .iv _ => false

/-- The registers after a write of `v` to a register that is no command: read-only registers keep their value and
`GFOP` takes its 16 bits (10_state.md R23, R33, R38). -/
def setReg (r : Regs) (v : Word) : Reg → Regs
  | .cmd | .status | .outlen | .gfres => r
  | .keylen => { r with keylen := v }
  | .noncelen => { r with noncelen := v }
  | .src => { r with src := v }
  | .dst => { r with dst := v }
  | .len => { r with len := v }
  | .cap => { r with cap := v }
  | .gfop => { r with gfop := v.setWidth 16 }
  | .key j => { r with key := setKeyColumn r.key j.val (columnOfWord v) }
  | .iv j => { r with iv := setBlockColumn r.iv j.val (columnOfWord v) }
  | .state j => { r with state := setBlockColumn r.state j.val (columnOfWord v) }

/-- A host write of `v` at an offset: dropped while a command is in flight (10_state.md R40); a write to `CMD` issues
(10_state.md R25); a write to a reserved offset is ignored (10_state.md R38). -/
def writeWindow (off : Nat) (v : Word) (s : State) : State :=
  if s.regs.status.busy then s
  else match regAt off with
    | none => s
    | some .cmd => issue v s
    | some r => { s with regs := setReg s.regs v r }

/-- A free value returned to the host (93_implementation_defined.md U1). -/
def readFree (s : State) : State :=
  { s with rdata := Config.freeReadWord s.draws, draws := s.draws + 1 }

/-- A host read of `STATUS`. Once it returns `BUSY = 0` the engine owns no buffer byte (70_reset_and_hazards.md
R255). -/
def readStatus (s : State) : State :=
  { s with rdata := statusWord s.regs.status, owned := if s.regs.status.busy then s.owned else [] }

/-- A host read at an offset: a reserved offset returns 0 (10_state.md R38); while a command is in flight the registers
it may be updating return a free value (10_state.md R41). -/
def readWindow (off : Nat) (s : State) : State :=
  match regAt off with
  | none => { s with rdata := 0 }
  | some .status => readStatus s
  | some r => if s.regs.status.busy && unsettled r then readFree s else { s with rdata := regValue s.regs r }

end Sys2Proof.Machine
end

