-- ==== Sys2Proof/Machine/HostProgram.lean ====
section
/-!
DEFINITION. The host-program notation of 30_encoding.md R87, as lists of host actions.
-/

namespace Sys2Proof.Machine

/-- `WR <reg>, <imm32>` (30_encoding.md R87). -/
def hostWr (p : Platform) (r : Reg) (v : Word) : List HostAct := [.writeReg (regAddr p r) .word v]

/-- `RD <reg>` (30_encoding.md R87). -/
def hostRd (p : Platform) (r : Reg) : List HostAct := [.readReg (regAddr p r) .word]

/-- `WRB`: one write per four bytes to the words `reg 0`, `reg 1`, ... of a byte-array register (30_encoding.md R87). -/
def hostWrb (p : Platform) (reg : Nat → Reg) : Nat → List Column → List HostAct
  | _, [] => []
  | j, c :: cs => hostWr p (reg j) (wordOfColumn c) ++ hostWrb p reg (j + 1) cs

/-- `CMD <mnemonic>` (30_encoding.md R87). -/
def hostCmd (p : Platform) (i : Instr) : List HostAct := hostWr p .cmd (encode i)

/-- `RUN <mnemonic>`: the command, then the poll loop (30_encoding.md R87). -/
def hostRun (p : Platform) (i : Instr) : List HostAct := hostCmd p i ++ [.wait]

end Sys2Proof.Machine
end

