-- ==== Sys2Proof/Machine/Cycle.lean ====
section
/-!
DEFINITION. One step of the machine: a host action, or the completion of the command in flight (70_reset_and_hazards.md
R250 to R259; log entry 1). While a command is in flight and cycles remain, the host acts against the busy engine.
-/

namespace Sys2Proof.Machine

/-- The engine runs the command in `CMD` and completes it. An illegal word completes with `ILLEGAL_COMMAND`
(60_exceptions.md R229). -/
def runCommand (s : State) : Host.Outcome State Fault Refusal :=
  match decode s.regs.cmd with
  | .ok i => exec i s
  | .error _ => .next (complete .illegalCommand s)

/-- The bytes written in a trace, oldest first. -/
def tracedWrites (t : List Access) : List (Word × Byte) :=
  t.reverse.filterMap fun x => match x.kind with
    | .read => none
    | .write => some (x.addr, x.byte)

/-- The write sequence of the command in flight, in the order of 20_memory.md R67 (log entry 19). -/
def pendingWrites (s : State) : List (Word × Byte) :=
  match runCommand { s with trace := [] } with
  | .next t => tracedWrites t.trace
  | .fault _ | .refused _ => []

/-- Memory after a sequence of byte writes. -/
def applyWrites : List (Word × Byte) → Memory → Memory
  | [], m => m
  | (a, b) :: ws, m => applyWrites ws (m.write a.toNat b)

/-- Every register at its reset value; memory and what lies outside the engine stay (70_reset_and_hazards.md R250,
R251). The host's duty towards the buffers of a command it issued stays too: only its read of `STATUS.BUSY = 0` ends it
(20_memory.md R69; 70_reset_and_hazards.md R255). -/
def resetEngine (s : State) : State :=
  { s with regs := .reset, internal := .cleared, countdown := 0, trace := [] }

/-- The reset input. A command in flight is abandoned after a freely drawn number of its buffer writes
(70_reset_and_hazards.md R250; 93_implementation_defined.md U9). -/
def assertReset (s : State) : State :=
  if s.regs.status.busy then
    { resetEngine s with
      mem := applyWrites ((pendingWrites s).take (Config.freeLandedWrites s.draws)) s.mem
      draws := s.draws + 1 }
  else resetEngine s

/-- Does the engine own the buffer byte (70_reset_and_hazards.md R255)? -/
def ownedByte (s : State) (a : Word) : Bool := s.owned.any (·.holds a)

/-- The first of `n` ascending addresses from `a` that the engine owns. -/
def firstOwned (s : State) : Nat → Word → Option Word
  | 0, _ => none
  | n + 1, a => if ownedByte s a then some a else firstOwned s n (a + 1)

/-- One action of the host, on a state whose script no longer holds it. A register access outside the interface is
refused (10_state.md R39) and an access to a byte the engine owns is a race (20_memory.md R69). A `MEM` of several bytes
is one action, and the host's accesses are not subject to `MEM_ADMIT` (log entries 14, 15). -/
def hostAct (x : HostAct) (s : State) : Host.Outcome State Fault Refusal :=
  match x with
  | .writeReg addr size v =>
    match windowOffset s.platform addr size with
    | some off => .next (writeWindow off v s)
    | none => .refused (.outsideWindowInterface addr size)
  | .readReg addr size =>
    match windowOffset s.platform addr size with
    | some off => .next (readWindow off s)
    | none => .refused (.outsideWindowInterface addr size)
  | .wait =>
    if s.regs.status.busy then .next { readStatus s with script := .wait :: s.script }
    else .next (readStatus s)
  | .writeMem addr bytes =>
    match firstOwned s bytes.length addr with
    | some a => .fault (.hostRace a)
    | none => .next { s with mem := Memory.writeBytes bytes addr s.mem }
  | .readMem addr =>
    if ownedByte s addr then .fault (.hostRace addr)
    else .next { s with rdata := (s.mem.read addr.toNat).setWidth 32 }
  | .reset => .next (assertReset s)
  | .idle => .next s

/-- The host's turn: its next action, if it has one. With none the engine waits (70_reset_and_hazards.md R252). -/
def hostTurn (s : State) : Host.Outcome State Fault Refusal :=
  match s.script with
  | [] => .next s
  | x :: xs => hostAct x { s with script := xs }

/-- One cycle. A command in flight completes once its latency has passed (70_reset_and_hazards.md R257); before that,
and while the engine is idle, the host acts. -/
def cycle (s : State) : Host.Outcome State Fault Refusal :=
  if s.regs.status.busy then
    if s.countdown = 0 then runCommand s
    else hostTurn { s with countdown := s.countdown - 1 }
  else hostTurn s

/-- The state in which the command word of an opcode-table row is in flight and completes in the next step: `CMD` was
written with it and its latency is 1 (60_exceptions.md R225; log entry 1). -/
def fetchWord (s : State) (nbits w : Nat) : State :=
  { startCommand (BitVec.ofNat 32 (w % 2 ^ nbits)) s with countdown := 0 }

end Sys2Proof.Machine
end

