-- ==== Sys2Proof/Machine/Step.lean ====
section
/-! DEFINITION. The step of the machine, and how a command word comes to be the next one to run. -/

namespace Sys2Proof.Machine

/-- One step (log entry 1). -/
def step (s : State) : Host.Outcome State Fault Refusal := cycle s

/-- The state whose next step runs the command word `w` (log entry 1). -/
def State.withFetchWord (s : State) (nbits w : Nat) : State := fetchWord s nbits w

end Sys2Proof.Machine
end

