-- ==== Sys2Proof/Safety.lean ====
section
/-!
DEFINITION. What counts as a good state and a safe run, in the terms the statements use.
-/

namespace Sys2Proof.Machine

/-- How many bytes of a trace were written. -/
def writeCount (t : List Access) : Nat := (tracedWrites t).length

/-- What holds of the state between two steps of every run. -/
structure State.Inv (s : State) : Prop where
  /-- Buffer memory is in its canonical form. -/
  memory : s.mem.wf
  /-- Every internal register lives only while a command executes (10_state.md R42). -/
  cleared : s.internal = .cleared
  /-- While a command is in flight `DONE = 0` and `ERR = 0` (10_state.md R26). -/
  busy : s.regs.status.busy = true → s.regs.status = statusIssued ∧ s.trace = []
  /-- An idle engine counts no cycles. -/
  idle : s.regs.status.busy = false → s.countdown = 0
  /-- `ERR` is a code of a completed command (10_state.md R26). -/
  noError : s.regs.status.done = false → s.regs.status.err = .ok
  /-- `OUTLEN` is the number of buffer bytes the completed command wrote (10_state.md R32). -/
  outlen : s.regs.status.done = true → s.regs.outlen = BitVec.ofNat 32 (writeCount s.trace)

/-- A step of a safe run: the machine goes on, and no command has just ended in `BUS_ERROR`, which a claim about a
program takes as a premise (60_exceptions.md R228; log entry 9). -/
def SafeStep (s : State) : Prop := ∃ t, step s = .next t ∧ t.regs.status.err ≠ .busError

/-- A run of `n` safe steps (60_exceptions.md R237). -/
def SafeRun : Nat → State → Prop
  | 0, _ => True
  | n + 1, s => ∃ t, step s = .next t ∧ t.regs.status.err ≠ .busError ∧ SafeRun n t

/-- The end of a run: the host has no action left and no command is in flight (60_exceptions.md R237). -/
def State.ended (s : State) : Bool := s.script.isEmpty && !s.regs.status.busy

end Sys2Proof.Machine
end

