-- ==== Sys2Proof/Certificates/Slice0/Obligations.lean ====
section
/-!
DEFINITION. The statements for the provers, and the reference functions they are stated with. The reference functions
are written from the rules anew, over whole blocks of memory and over byte and row and column indices, so that a statement
compares two readings of one rule.
-/

namespace Sys2Proof.Reference

open Sys2Proof.Machine

/-- Address `k` bytes from `base`, modulo 2^32 (20_memory.md R61). -/
def byteAddr (base : Word) (k : Nat) : Word := base + BitVec.ofNat 32 k

/-- The key length is 16, 24 or 32 bytes (43_modes.md R171). -/
def ValidKey (r : Regs) : Prop := r.keylen.toNat = 16 ∨ r.keylen.toNat = 24 ∨ r.keylen.toNat = 32

/-- `Nk` (41_key_schedule.md R110). -/
def keyWordsOf (r : Regs) : Nat := r.keylen.toNat / 4

/-- `Nr` is 10, 12 or 14 for `Nk` 4, 6 or 8 (41_key_schedule.md R110). -/
def roundsOf (r : Regs) : Nat := keyWordsOf r + 6

/-- The expanded key of the current registers (41_key_schedule.md R117). -/
def schedule (r : Regs) : List Column := expandKey ((List.range (keyWordsOf r)).map (keyColumn r.key))

/-- `b` times `x` modulo `x^8+x^4+x^3+x+1` (40_gf_arithmetic.md R100). -/
def timesX (b : Byte) : Byte := (b <<< 1) ^^^ (if b.getLsbD 7 then 0x1B else 0x00)

/-- `b` times `x^n`. -/
def timesXPow (n : Nat) (b : Byte) : Byte := (List.range n).foldl (fun v _ => timesX v) b

/-- `t` in the recurrence of `w[i]` (41_key_schedule.md R115): the word before it, rotated, substituted and with the
round constant `x^(i/Nk - 1)` in row 0 at a multiple of `Nk`; substituted in the middle of a group of eight; else as it
is. -/
def scheduleTerm (nk i : Nat) (p : Column) : Column :=
  if i % nk = 0 then ⟨sbox p.r1 ^^^ timesXPow (i / nk - 1) 1, sbox p.r2, sbox p.r3, sbox p.r0⟩
  else if nk = 8 ∧ i % 8 = 4 then ⟨sbox p.r0, sbox p.r1, sbox p.r2, sbox p.r3⟩
  else p

/-- Round key `r` of a schedule (41_key_schedule.md R116). -/
def keyAt (w : List Column) (r : Nat) : Block :=
  ⟨w.getD (4 * r) .zero, w.getD (4 * r + 1) .zero, w.getD (4 * r + 2) .zero, w.getD (4 * r + 3) .zero⟩

/-- `Cipher` with `nr` rounds, as a fold over the rounds (42_round_transform.md R139). -/
def encipher (w : List Column) (nr : Nat) (b : Block) : Block :=
  let start := xorBlock b (keyAt w 0)
  let middle := (List.range (nr - 1)).foldl
    (fun s i => xorBlock (mixColumns (shiftRows (subBytes s))) (keyAt w (i + 1))) start
  xorBlock (shiftRows (subBytes middle)) (keyAt w nr)

/-- `InvCipher` with `nr` rounds, as a fold over the rounds (42_round_transform.md R140). -/
def decipher (w : List Column) (nr : Nat) (b : Block) : Block :=
  let start := invSubBytes (invShiftRows (xorBlock b (keyAt w nr)))
  let middle := (List.range (nr - 1)).foldl
    (fun s i => invSubBytes (invShiftRows (invMixColumns (xorBlock s (keyAt w (nr - 1 - i)))))) start
  xorBlock middle (keyAt w 0)

/-- Byte `i` of the padded data in memory `m`: a data byte, or the pad value (43_modes.md R174). -/
def plainByte (r : Regs) (m : Memory) (i : Nat) : Byte :=
  if i < r.len.toNat then m.read (byteAddr r.src i).toNat else BitVec.ofNat 8 (16 - r.len.toNat % 16)

/-- Block `j` of the padded data. -/
def plainBlock (r : Regs) (m : Memory) (j : Nat) : Block :=
  blockOfBytes ((List.range 16).map fun k => plainByte r m (16 * j + k))

/-- The block of sixteen bytes of memory from an address on (20_memory.md R63). -/
def memoryBlock (m : Memory) (a : Word) : Block :=
  blockOfBytes ((List.range 16).map fun k => m.read (byteAddr a k).toNat)

/-- The bytes an encryption puts out: the data's, or those of the padded data (43_modes.md R172, R174). -/
def encryptedBytes (pad : Bool) (r : Regs) : Nat :=
  if pad then 16 * (r.len.toNat / 16 + 1) else r.len.toNat

/-- The chaining value a command starts from: the IV of a CBC command with an IV, else zero (43_modes.md R182, R183). -/
def firstChain (iven : Bool) (r : Regs) : Block := if iven then r.iv else .zero

/-- Memory and chaining value after the first `n` blocks of an encryption, each read from the memory the blocks before
it left (20_memory.md R67; 43_modes.md R180, R182). With `cbc` false the chaining value stays zero, which is ECB. -/
def encryptBlocks (cbc : Bool) (r : Regs) (n : Nat) (m : Memory) (chain : Block) : Memory × Block :=
  (List.range n).foldl (fun (p : Memory × Block) j =>
    let c := cipher (schedule r) (xorBlock (plainBlock r p.1 j) p.2)
    (Memory.writeBytes (blockBytes c) (byteAddr r.dst (16 * j)) p.1, if cbc then c else .zero)) (m, chain)

/-- Memory and chaining value after the first `n` blocks of a decryption, written out whole (20_memory.md R67;
43_modes.md R181, R183). -/
def decryptBlocks (cbc : Bool) (r : Regs) (n : Nat) (m : Memory) (chain : Block) : Memory × Block :=
  (List.range n).foldl (fun (p : Memory × Block) j =>
    let c := memoryBlock p.1 (byteAddr r.src (16 * j))
    let b := xorBlock (invCipher (schedule r) c) p.2
    (Memory.writeBytes (blockBytes b) (byteAddr r.dst (16 * j)) p.1, if cbc then c else .zero)) (m, chain)

/-- All blocks of a decryption but the last. -/
def earlierBlocks (cbc : Bool) (iven : Bool) (s : Machine.State) : Memory × Block :=
  decryptBlocks cbc s.regs (s.regs.len.toNat / 16 - 1) s.mem (firstChain iven s.regs)

/-- The decrypted last block, after the earlier ones are written. -/
def lastPlain (cbc : Bool) (iven : Bool) (s : Machine.State) : Block :=
  let p := earlierBlocks cbc iven s
  xorBlock (invCipher (schedule s.regs) (memoryBlock p.1 (byteAddr s.regs.src (s.regs.len.toNat - 16)))) p.2

/-- The last `p` of sixteen bytes all equal `p`, and `p` is 1 to 16 (43_modes.md R176). -/
def PaddedBy (b : Block) (p : Nat) : Prop :=
  1 ≤ p ∧ p ≤ 16 ∧ ∀ k < 16, 16 - p ≤ k → (blockByte b k).toNat = p

/-- `CTR0` as a number: the nonce bytes are its most significant ones (43_modes.md R175). -/
def counterStart (r : Regs) : Nat :=
  ((List.range 16).map fun k =>
    (if k < r.noncelen.toNat then (blockByte r.iv k).toNat else 0) * 256 ^ (15 - k)).sum

/-- The 16 bytes of a number modulo 2^128, most significant first (43_modes.md R175). -/
def counterBlock (n : Nat) : Block :=
  blockOfBytes ((List.range 16).map fun k => BitVec.ofNat 8 (n / 256 ^ (15 - k)))

/-- Byte `i` of the keystream (43_modes.md R184). -/
def keystreamByte (r : Regs) (i : Nat) : Byte :=
  blockByte (cipher (schedule r) (counterBlock (counterStart r + i / 16))) (i % 16)

/-- The platform admits reading `n` bytes from `base`. -/
def ReadsAdmitted (s : Machine.State) (base : Word) (n : Nat) : Prop :=
  ∀ k < n, memAdmit s.platform .read (byteAddr base k) = true

/-- The platform admits writing `n` bytes from `base`. -/
def WritesAdmitted (s : Machine.State) (base : Word) (n : Nat) : Prop :=
  ∀ k < n, memAdmit s.platform .write (byteAddr base k) = true

/-- No byte is in both buffers (20_memory.md R68). -/
def BuffersApart (a : Word) (n : Nat) (b : Word) (m : Nat) : Prop :=
  ∀ i < n, ∀ k < m, byteAddr a i ≠ byteAddr b k

/-- A completion with a code and a count of bytes written: what 60_exceptions.md R223 writes, with `STATE` and `GFRES`
as given and every other register, the platform and the host's side as they were. Memory and trace are not said. -/
structure Completes (code : ErrCode) (n : Nat) (state : Block) (gfres : Byte) (s t : Machine.State) : Prop where
  regs : t.regs = { s.regs with
    state := state, gfres := gfres, outlen := BitVec.ofNat 32 n, status := ⟨false, true, code⟩ }
  internal : t.internal = ⟨[], .zero, .zero, .zero, 0⟩
  platform : t.platform = s.platform
  latency : t.latency = s.latency
  countdown : t.countdown = s.countdown
  owned : t.owned = s.owned
  script : t.script = s.script
  rdata : t.rdata = s.rdata
  draws : t.draws = s.draws

/-- Buffer memory is as it was and no access was made. -/
def KeepsBuffers (s t : Machine.State) : Prop := t.mem = s.mem ∧ t.trace = s.trace

/-- The command completes with the code, and changes nothing but `STATUS`, `OUTLEN = 0` and the cleared internal
registers. -/
def FailsUntouched (code : ErrCode) (i : Instr) (s : Machine.State) : Prop :=
  ∃ t, exec i s = .next t ∧ Completes code 0 s.regs.state s.regs.gfres s t ∧ KeepsBuffers s t

/-- A command that reads and writes no buffer memory completes with `OK`, and `STATE` becomes a block that `P` holds
of. -/
def TransformsState (i : Instr) (s : Machine.State) (P : Block → Prop) : Prop :=
  ∃ t, exec i s = .next t ∧ Completes .ok 0 t.regs.state s.regs.gfres s t ∧ KeepsBuffers s t ∧ P t.regs.state

/-- The number of a status code in the table of 60_exceptions.md R220. -/
def codeNumber : ErrCode → Nat
  | .ok => 0
  | .invalidDataSize => 1
  | .invalidKeySize => 2
  | .invalidBufferSize => 3
  | .invalidKey => 4
  | .invalidNonceSize => 5
  | .illegalCommand => 6
  | .busError => 7

/-- `STATUS` as a number: `BUSY` in bit 0, `DONE` in bit 1, `ERR` in bits 11:8, every other bit 0 (10_state.md R26). -/
def statusNumber (st : Status) : Nat := st.busy.toNat + 2 * st.done.toNat + 256 * codeNumber st.err

/-- The command is a mode command. -/
def IsMode : Instr → Bool
  | .ecbEnc _ | .ecbDec _ | .cbcEnc _ _ | .cbcDec _ _ | .ctr => true
  | .gfDouble | .gfMul | .subBytes | .invSubBytes | .shiftRows | .invShiftRows | .mixColumns | .invMixColumns
  | .addRoundKey _ | .keyExpand _ | .encBlock | .decBlock => false

/-- The command writes `GFRES` (10_state.md R34). -/
def IsGf : Instr → Bool
  | .gfDouble | .gfMul => true
  | .subBytes | .invSubBytes | .shiftRows | .invShiftRows | .mixColumns | .invMixColumns
  | .addRoundKey _ | .keyExpand _ | .encBlock | .decBlock
  | .ecbEnc _ | .ecbDec _ | .cbcEnc _ _ | .cbcDec _ _ | .ctr => false

/-- The status codes a command can complete with (60_exceptions.md R221). -/
def possibleCodes : Instr → List ErrCode
  | .gfDouble | .gfMul | .subBytes | .invSubBytes | .shiftRows | .invShiftRows | .mixColumns | .invMixColumns => [.ok]
  | .addRoundKey _ | .keyExpand _ => [.ok, .invalidKeySize, .illegalCommand]
  | .encBlock | .decBlock => [.ok, .invalidKeySize]
  | .ecbEnc _ | .cbcEnc _ _ => [.ok, .invalidDataSize, .invalidKeySize, .invalidBufferSize, .busError]
  | .ecbDec _ | .cbcDec _ _ => [.ok, .invalidDataSize, .invalidKeySize, .invalidBufferSize, .invalidKey, .busError]
  | .ctr => [.ok, .invalidKeySize, .invalidNonceSize, .busError]

/-- Reads of `n` bytes from offset `i` of the source, ascending. -/
def sourceReads (r : Regs) (i n : Nat) : List (AccessKind × Word) :=
  (List.range n).map fun k => (.read, byteAddr r.src (i + k))

/-- Writes of `n` bytes from offset `i` of the destination, ascending. -/
def destinationWrites (r : Regs) (i n : Nat) : List (AccessKind × Word) :=
  (List.range n).map fun k => (.write, byteAddr r.dst (i + k))

/-- The kinds and addresses of the accesses made between two states, oldest first. -/
def accessesBetween (s t : Machine.State) : List (AccessKind × Word) :=
  ((t.trace.take (t.trace.length - s.trace.length)).reverse).map fun x => (x.kind, x.addr)

/-- The host's next action, with a list of actions behind it. -/
def HostIsNext (s : Machine.State) (x : HostAct) (xs : List HostAct) : Prop :=
  s.script = x :: xs ∧ (s.regs.status.busy = true → 0 < s.countdown)

end Sys2Proof.Reference

open Sys2Proof Sys2Proof.Machine Sys2Proof.Reference

/-! ## The command word -/

/-- Words written out from the encodings of 30_encoding.md R81, R82 and R87 decode to the commands they spell, and words
of 95_test_vectors.md V-ILL are illegal. -/
def Obligations.SampleWordsDecode : Prop :=
  decode 0x00000001 = .ok .gfDouble ∧ decode 0x00000002 = .ok .gfMul ∧ decode 0x00000010 = .ok .subBytes ∧
  decode 0x00000015 = .ok .invMixColumns ∧ decode 0x0000A016 = .ok (.addRoundKey 10) ∧
  decode 0x00001020 = .ok (.keyExpand 1) ∧ decode 0x00000030 = .ok .encBlock ∧ decode 0x00000031 = .ok .decBlock ∧
  decode 0x00000140 = .ok (.ecbEnc true) ∧ decode 0x00000041 = .ok (.ecbDec false) ∧
  decode 0x00000242 = .ok (.cbcEnc false true) ∧ decode 0x00000343 = .ok (.cbcDec true true) ∧
  decode 0x00000044 = .ok .ctr ∧ decode 0x00000000 = .error .unassignedOp ∧
  decode 0x00000440 = .error .unadmittedBits ∧ decode 0x80000042 = .error .unadmittedBits

/-- Decoding an encoded command gives it back, for every command and every operand the encoding admits
(30_encoding.md R80 to R82). -/
def Obligations.DecodeEncodeRoundTrip : Prop :=
  ∀ i : Instr, i.wellFormed = true → decode (encode i) = .ok i

/-- A legal word is the encoding of the command it decodes to, so each command has one word (30_encoding.md R80 to R83). -/
def Obligations.EncodeDecodeRoundTrip : Prop :=
  ∀ (w : Word) (i : Instr), decode w = .ok i → i.wellFormed = true ∧ encode i = w

/-- A word is legal when exactly one row of the table of 30_encoding.md R82 has `(w AND mask) = match`, and then it
decodes to a command of that row (30_encoding.md R83). -/
def Obligations.LegalWordsMatchOneTableRow : Prop :=
  ∀ w : Word,
    ((∃ i, decode w = .ok i) ↔ ∃ r ∈ opcodeRows, w &&& r.mask = r.pattern) ∧
    (∀ i, decode w = .ok i → i.row ∈ opcodeRows ∧ w &&& i.row.mask = i.row.pattern) ∧
    ∀ r ∈ opcodeRows, ∀ r' ∈ opcodeRows, w &&& r.mask = r.pattern → w &&& r'.mask = r'.pattern → r = r'

/-- When the command in flight completes in this step and `CMD` decodes to `i`, the step is `exec i`. In particular the
step after `withFetchWord` runs the word placed. That a command executes whole in its completing step is the model's
choice (log entry 1). -/
def Obligations.StepRunsDecodedCommand : Prop :=
  (∀ (s : Machine.State) (i : Instr), s.regs.status.busy = true → s.countdown = 0 → decode s.regs.cmd = .ok i →
    step s = exec i s) ∧
  ∀ (s : Machine.State) (w : Word) (i : Instr), decode w = .ok i →
    step (s.withFetchWord 32 w.toNat) = exec i (s.withFetchWord 32 w.toNat) ∧
      (s.withFetchWord 32 w.toNat).regs.cmd = w

/-- An illegal word, or a round-key index above `Nr` under a valid key, completes with `ILLEGAL_COMMAND` and changes
nothing but `STATUS` and `OUTLEN = 0` (60_exceptions.md R229). The word stays in `CMD`. -/
def Obligations.IllegalCommandChangesOnlyStatus : Prop :=
  (∀ (s : Machine.State) (why : IllegalWord), s.regs.status.busy = true → s.countdown = 0 →
    decode s.regs.cmd = .error why → s.internal.nwr = 0 →
    ∃ t, step s = .next t ∧ Completes .illegalCommand 0 s.regs.state s.regs.gfres s t ∧ KeepsBuffers s t ∧
      t.regs.cmd = s.regs.cmd) ∧
  ∀ (s : Machine.State) (k : Nat), ValidKey s.regs → roundsOf s.regs < k → s.internal.nwr = 0 →
    FailsUntouched .illegalCommand (.addRoundKey k) s ∧ FailsUntouched .illegalCommand (.keyExpand k) s

/-! ## Galois-field arithmetic -/

/-- `GF_DOUBLE` writes `GFRES` with `GFOP[7:0]` shifted left by one, XORed with `0x1B` if its high bit was set, and
nothing else but the completion (40_gf_arithmetic.md R100, R103). -/
def Obligations.GfDoubleCompletes : Prop :=
  ∀ s : Machine.State, s.internal.nwr = 0 → ∃ t, exec .gfDouble s = .next t ∧
    Completes .ok 0 s.regs.state (timesX (s.regs.gfop.extractLsb' 0 8)) s t ∧ KeepsBuffers s t

/-- `GF_MUL` writes `GFRES` with the XOR of `A * x^i` over the bits `i` that are 1 in `B`, and nothing else but the
completion (40_gf_arithmetic.md R101, R104). -/
def Obligations.GfMulCompletes : Prop :=
  ∀ s : Machine.State, s.internal.nwr = 0 → ∃ t, exec .gfMul s = .next t ∧
    Completes .ok 0 s.regs.state
      ((List.range 8).foldl (fun acc i =>
        if s.regs.gfop.getLsbD (8 + i) then acc ^^^ timesXPow i (s.regs.gfop.extractLsb' 0 8) else acc) 0) s t ∧
    KeepsBuffers s t

/-- `mul_gf` is the product of polynomials over GF(2) modulo `x^8+x^4+x^3+x+1`, with the laws that follow
(40_gf_arithmetic.md R102). -/
def Obligations.MulGfIsFieldProduct : Prop :=
  let poly (b : Byte) : Polynomial (ZMod 2) :=
    ∑ i ∈ Finset.range 8, if b.getLsbD i then (Polynomial.X : Polynomial (ZMod 2)) ^ i else 0
  (∀ b m : Byte, ∃ q : Polynomial (ZMod 2), poly b * poly m =
    poly (mulGf b m) + q * (Polynomial.X ^ 8 + Polynomial.X ^ 4 + Polynomial.X ^ 3 + Polynomial.X + 1)) ∧
  ∀ b m : Byte, mulGf b 0x00 = 0x00 ∧ mulGf b 0x01 = b ∧ mulGf b 0x02 = doubleGf b ∧
    mulGf b 0x03 = doubleGf b ^^^ b ∧ mulGf b m = mulGf m b

/-! ## Step functions and block transforms -/

/-- The S-box is the affine map of the multiplicative inverse, and the two tables are inverse permutations
(42_round_transform.md R130, R131). -/
def Obligations.SboxTablesAreAlgebraic : Prop :=
  sbox 0x00 = 0x63 ∧
  (∀ x : Byte, x ≠ 0 → ∃ b, mulGf x b = 0x01) ∧
  (∀ x b : Byte, mulGf x b = 0x01 → sbox x =
    b ^^^ b.rotateLeft 1 ^^^ b.rotateLeft 2 ^^^ b.rotateLeft 3 ^^^ b.rotateLeft 4 ^^^ 0x63) ∧
  ∀ x : Byte, invSbox (sbox x) = x ∧ sbox (invSbox x) = x

/-- `SUB_BYTES` and `INV_SUB_BYTES` replace every byte of `STATE` through their table and change nothing else but the
completion (42_round_transform.md R132, R133, R150, R151). -/
def Obligations.SubstitutionCommandsComplete : Prop :=
  ∀ s : Machine.State, s.internal.nwr = 0 →
    TransformsState .subBytes s (fun v => ∀ k < 16, blockByte v k = sbox (blockByte s.regs.state k)) ∧
    TransformsState .invSubBytes s (fun v => ∀ k < 16, blockByte v k = invSbox (blockByte s.regs.state k))

/-- `SHIFT_ROWS` and `INV_SHIFT_ROWS`: row `r` moves left, or right, by `r` columns, and nothing else changes but the
completion (42_round_transform.md R134, R135, R152, R153). -/
def Obligations.RowShiftCommandsComplete : Prop :=
  ∀ s : Machine.State, s.internal.nwr = 0 →
    TransformsState .shiftRows s
      (fun v => ∀ r < 4, ∀ c < 4, stateAt v r c = stateAt s.regs.state r ((c + r) % 4)) ∧
    TransformsState .invShiftRows s
      (fun v => ∀ r < 4, ∀ c < 4, stateAt v r c = stateAt s.regs.state r ((c + 4 - r) % 4))

/-- `MIX_COLUMNS` and `INV_MIX_COLUMNS` multiply every column by the circulant matrix whose row 0 is `02 03 01 01`, or
`0E 0B 0D 09`, each further row rotated right by one, and change nothing else but the completion
(42_round_transform.md R136, R137, R154, R155). -/
def Obligations.ColumnMixCommandsComplete : Prop :=
  let product (row : List Byte) (b : Block) (r c : Nat) : Byte :=
    (List.range 4).foldl (fun acc i => acc ^^^ mulGf (stateAt b i c) (row.getD ((i + 4 - r) % 4) 0)) 0
  ∀ s : Machine.State, s.internal.nwr = 0 →
    TransformsState .mixColumns s
      (fun v => ∀ r < 4, ∀ c < 4, stateAt v r c = product [0x02, 0x03, 0x01, 0x01] s.regs.state r c) ∧
    TransformsState .invMixColumns s
      (fun v => ∀ r < 4, ∀ c < 4, stateAt v r c = product [0x0E, 0x0B, 0x0D, 0x09] s.regs.state r c)

/-- Each inverse step function undoes its step function, and `AddRoundKey` undoes itself (42_round_transform.md R133,
R135, R137, R138). -/
def Obligations.InverseStepsUndoSteps : Prop :=
  ∀ b k : Block, invSubBytes (subBytes b) = b ∧ invShiftRows (shiftRows b) = b ∧
    invMixColumns (mixColumns b) = b ∧ addRoundKey (addRoundKey b k) k = b

/-- For every valid key and every block, the inverse block transform undoes the forward one, and the forward one the
inverse one (42_round_transform.md R141 for the first). -/
def Obligations.InvCipherUndoesCipher : Prop :=
  ∀ (r : Regs) (b : Block), ValidKey r →
    invCipher (schedule r) (cipher (schedule r) b) = b ∧ cipher (schedule r) (invCipher (schedule r) b) = b

/-- `ENC_BLOCK` puts the block transform of the spec, round by round, into `STATE`, and `DEC_BLOCK` the inverse one;
nothing else changes but the completion (42_round_transform.md R139, R140, R157, R158). -/
def Obligations.BlockCommandsComplete : Prop :=
  ∀ s : Machine.State, ValidKey s.regs → s.internal.nwr = 0 →
    TransformsState .encBlock s
      (fun v => v = encipher (schedule s.regs) (roundsOf s.regs) s.regs.state) ∧
    TransformsState .decBlock s
      (fun v => v = decipher (schedule s.regs) (roundsOf s.regs) s.regs.state)

/-- `ENC_BLOCK` then `DEC_BLOCK` under the same key restores `STATE`, and so does the other order
(42_round_transform.md R158). -/
def Obligations.EncBlockThenDecBlockRestores : Prop :=
  ∀ (s : Machine.State) (i j : Instr), ValidKey s.regs →
    (i = .encBlock ∧ j = .decBlock ∨ i = .decBlock ∧ j = .encBlock) →
    ∃ t u, exec i s = .next t ∧ exec j t = .next u ∧ u.regs.state = s.regs.state ∧ u.regs.status.err = .ok

/-! ## Key schedule -/

/-- The expanded key has `4*(Nr+1)` words, begins with the key, and follows the recurrence (41_key_schedule.md R110,
R111, R115). -/
def Obligations.ExpandedKeyFollowsRecurrence : Prop :=
  ∀ r : Regs, ValidKey r →
    (schedule r).length = 4 * (roundsOf r + 1) ∧
    (∀ i < keyWordsOf r, (schedule r).getD i .zero = keyColumn r.key i) ∧
    ∀ i, keyWordsOf r ≤ i → i < 4 * (roundsOf r + 1) → (schedule r).getD i .zero =
      xorColumn (scheduleTerm (keyWordsOf r) i ((schedule r).getD (i - 1) .zero))
        ((schedule r).getD (i - keyWordsOf r) .zero)

/-- `KEY_EXPAND k` puts round key `k` into `STATE` and `ADD_ROUND_KEY k` XORs it into `STATE`, for every `k` up to `Nr`;
nothing else changes but the completion (41_key_schedule.md R116, R118; 42_round_transform.md R138, R156). -/
def Obligations.RoundKeyCommandsComplete : Prop :=
  ∀ (s : Machine.State) (k : Nat), ValidKey s.regs → k ≤ roundsOf s.regs → s.internal.nwr = 0 →
    TransformsState (.keyExpand k) s
      (fun v => ∀ b < 4, ∀ c < 4, stateAt v b c = columnByte ((schedule s.regs).getD (4 * k + c) .zero) b) ∧
    TransformsState (.addRoundKey k) s
      (fun v => ∀ b < 4, ∀ c < 4, stateAt v b c =
        stateAt s.regs.state b c ^^^ columnByte ((schedule s.regs).getD (4 * k + c) .zero) b)

/-- Key bytes at and beyond `KEYLEN` change no result of any command (10_state.md R35): two states that differ only
there complete every command alike. -/
def Obligations.KeyBytesBeyondLengthUnused : Prop :=
  ∀ (s : Machine.State) (key : KeyBytes) (i : Instr) (t t' : Machine.State),
    (∀ j < 8, 4 * j < s.regs.keylen.toNat → keyColumn key j = keyColumn s.regs.key j) →
    exec i s = .next t → exec i { s with regs := { s.regs with key := key } } = .next t' →
    t' = { t with regs := { t.regs with key := key } }

/-! ## Checks before any access -/

/-- The checks of every key-using command, in order: the data size, then the key size, then the nonce size or the
capacity. A failing check completes with its code, makes no buffer access and writes no register but `STATUS` and
`OUTLEN = 0` (43_modes.md R171, R172, R173, R178). -/
def Obligations.FailedChecksTouchNothing : Prop :=
  ∀ s : Machine.State, s.internal.nwr = 0 →
    (∀ k, ¬ ValidKey s.regs → FailsUntouched .invalidKeySize (.addRoundKey k) s ∧
      FailsUntouched .invalidKeySize (.keyExpand k) s ∧ FailsUntouched .invalidKeySize .encBlock s ∧
      FailsUntouched .invalidKeySize .decBlock s ∧ FailsUntouched .invalidKeySize .ctr s) ∧
    (∀ (pad : Bool) (i : Instr), (i = .ecbEnc pad ∨ ∃ iven, i = .cbcEnc pad iven) →
      (pad = false → s.regs.len.toNat % 16 ≠ 0 → FailsUntouched .invalidDataSize i s) ∧
      ((pad = false → s.regs.len.toNat % 16 = 0) → ¬ ValidKey s.regs → FailsUntouched .invalidKeySize i s) ∧
      ((pad = false → s.regs.len.toNat % 16 = 0) → ValidKey s.regs →
        s.regs.cap.toNat < encryptedBytes pad s.regs → FailsUntouched .invalidBufferSize i s)) ∧
    (∀ (pad : Bool) (i : Instr), (i = .ecbDec pad ∨ ∃ iven, i = .cbcDec pad iven) →
      (s.regs.len.toNat % 16 ≠ 0 ∨ pad = true ∧ s.regs.len.toNat = 0 → FailsUntouched .invalidDataSize i s) ∧
      (s.regs.len.toNat % 16 = 0 → (pad = true → s.regs.len.toNat ≠ 0) → ¬ ValidKey s.regs →
        FailsUntouched .invalidKeySize i s) ∧
      (s.regs.len.toNat % 16 = 0 → (pad = true → s.regs.len.toNat ≠ 0) → ValidKey s.regs →
        s.regs.cap.toNat + (if pad then 16 else 0) < s.regs.len.toNat → FailsUntouched .invalidBufferSize i s)) ∧
    (ValidKey s.regs → 16 < s.regs.noncelen.toNat → FailsUntouched .invalidNonceSize .ctr s)

/-! ## Mode commands -/

/-- `ECB_ENC` and `CBC_ENC`, padded or not: with the checks passed and the accesses admitted, memory is the one the
blocks leave when each is read from memory, encrypted and written in turn, `OUTLEN` is the size of the output, and no
register changes but `STATUS` and `OUTLEN` (43_modes.md R174, R180, R182; 20_memory.md R67). This holds for buffers that
overlap as for ones that do not. -/
def Obligations.EncryptionsComplete : Prop :=
  ∀ (s : Machine.State) (pad : Bool), ValidKey s.regs → (pad = false → s.regs.len.toNat % 16 = 0) →
    encryptedBytes pad s.regs ≤ s.regs.cap.toNat → s.internal.nwr = 0 →
    ReadsAdmitted s s.regs.src s.regs.len.toNat → WritesAdmitted s s.regs.dst (encryptedBytes pad s.regs) →
    (∃ t, exec (.ecbEnc pad) s = .next t ∧
      Completes .ok (encryptedBytes pad s.regs) s.regs.state s.regs.gfres s t ∧
      t.mem = (encryptBlocks false s.regs (encryptedBytes pad s.regs / 16) s.mem .zero).1) ∧
    ∀ iven, ∃ t, exec (.cbcEnc pad iven) s = .next t ∧
      Completes .ok (encryptedBytes pad s.regs) s.regs.state s.regs.gfres s t ∧
      t.mem = (encryptBlocks true s.regs (encryptedBytes pad s.regs / 16) s.mem (firstChain iven s.regs)).1

/-- `ECB_DEC` and `CBC_DEC` without unpadding: every block is decrypted and written out whole, and `OUTLEN = LEN`
(43_modes.md R181, R183; 20_memory.md R67). -/
def Obligations.UnpaddedDecryptionsComplete : Prop :=
  ∀ s : Machine.State, ValidKey s.regs → s.regs.len.toNat % 16 = 0 → s.regs.len.toNat ≤ s.regs.cap.toNat →
    s.internal.nwr = 0 →
    ReadsAdmitted s s.regs.src s.regs.len.toNat → WritesAdmitted s s.regs.dst s.regs.len.toNat →
    (∃ t, exec (.ecbDec false) s = .next t ∧
      Completes .ok s.regs.len.toNat s.regs.state s.regs.gfres s t ∧
      t.mem = (decryptBlocks false s.regs (s.regs.len.toNat / 16) s.mem .zero).1) ∧
    ∀ iven, ∃ t, exec (.cbcDec false iven) s = .next t ∧
      Completes .ok s.regs.len.toNat s.regs.state s.regs.gfres s t ∧
      t.mem = (decryptBlocks true s.regs (s.regs.len.toNat / 16) s.mem (firstChain iven s.regs)).1

/-- `ECB_DEC` and `CBC_DEC` with unpadding, when the last block's padding is valid and `LEN - p` fits the capacity: the
earlier blocks are written whole, `16 - p` bytes of the last one, and `OUTLEN = LEN - p` (43_modes.md R176, R177, R181,
R183). -/
def Obligations.PaddedDecryptionsComplete : Prop :=
  ∀ (s : Machine.State) (cbc iven : Bool) (p : Nat), ValidKey s.regs → s.regs.len.toNat % 16 = 0 →
    s.regs.len.toNat ≠ 0 → (cbc = false → iven = false) → s.internal.nwr = 0 →
    PaddedBy (lastPlain cbc iven s) p → s.regs.len.toNat - p ≤ s.regs.cap.toNat →
    ReadsAdmitted s s.regs.src s.regs.len.toNat → WritesAdmitted s s.regs.dst (s.regs.len.toNat - p) →
    ∃ t, exec (if cbc then .cbcDec true iven else .ecbDec true) s = .next t ∧
      Completes .ok (s.regs.len.toNat - p) s.regs.state s.regs.gfres s t ∧
      t.mem = Memory.writeBytes ((blockBytes (lastPlain cbc iven s)).take (16 - p))
        (byteAddr s.regs.dst (s.regs.len.toNat - 16)) (earlierBlocks cbc iven s).1

/-- `ECB_DEC` and `CBC_DEC` with unpadding, when the padding of the last block is not valid or `LEN - p` exceeds the
capacity: the completion is `INVALID_KEY`, or `INVALID_BUFFER_SIZE`, the earlier blocks stay written and
`OUTLEN = LEN - 16` (43_modes.md R176, R177; 60_exceptions.md R223). -/
def Obligations.FailedUnpaddingKeepsEarlierBlocks : Prop :=
  ∀ (s : Machine.State) (cbc iven : Bool) (code : ErrCode), ValidKey s.regs → s.regs.len.toNat % 16 = 0 →
    s.regs.len.toNat ≠ 0 → s.regs.len.toNat - 16 ≤ s.regs.cap.toNat → (cbc = false → iven = false) →
    s.internal.nwr = 0 →
    (code = .invalidKey ∧ (∀ p, ¬ PaddedBy (lastPlain cbc iven s) p) ∨
      code = .invalidBufferSize ∧
        ∃ p, PaddedBy (lastPlain cbc iven s) p ∧ s.regs.cap.toNat < s.regs.len.toNat - p) →
    ReadsAdmitted s s.regs.src s.regs.len.toNat → WritesAdmitted s s.regs.dst (s.regs.len.toNat - 16) →
    ∃ t, exec (if cbc then .cbcDec true iven else .ecbDec true) s = .next t ∧
      Completes code (s.regs.len.toNat - 16) s.regs.state s.regs.gfres s t ∧
      t.mem = (earlierBlocks cbc iven s).1

/-- `CTR`: every byte of `[SRC, SRC+LEN)` is XORed with its keystream byte, where keystream block `j` is the encryption
of `CTR0 + j` modulo 2^128; every other byte and every register but `STATUS` and `OUTLEN = LEN` stay (43_modes.md R175,
R184). -/
def Obligations.CtrCompletes : Prop :=
  ∀ s : Machine.State, ValidKey s.regs → s.regs.noncelen.toNat ≤ 16 → s.internal.nwr = 0 →
    ReadsAdmitted s s.regs.src s.regs.len.toNat → WritesAdmitted s s.regs.src s.regs.len.toNat →
    ∃ t, exec .ctr s = .next t ∧ Completes .ok s.regs.len.toNat s.regs.state s.regs.gfres s t ∧
      (∀ i < s.regs.len.toNat, t.mem.read (byteAddr s.regs.src i).toNat =
        s.mem.read (byteAddr s.regs.src i).toNat ^^^ keystreamByte s.regs i) ∧
      ∀ a : Word, (∀ i < s.regs.len.toNat, byteAddr s.regs.src i ≠ a) → t.mem.read a.toNat = s.mem.read a.toNat

/-- With disjoint buffers, an ECB or CBC encryption that the platform admits reads only the data as it stood at issue: output block `j` is the
encryption of block `j` of the padded data, XORed with output block `j-1` in CBC (43_modes.md R180, R182;
20_memory.md R68). -/
def Obligations.EncryptionOfDisjointBuffers : Prop :=
  ∀ (s t : Machine.State) (pad cbc iven : Bool), ValidKey s.regs → (pad = false → s.regs.len.toNat % 16 = 0) →
    encryptedBytes pad s.regs ≤ s.regs.cap.toNat → (cbc = false → iven = false) →
    ReadsAdmitted s s.regs.src s.regs.len.toNat → WritesAdmitted s s.regs.dst (encryptedBytes pad s.regs) →
    BuffersApart s.regs.src s.regs.len.toNat s.regs.dst (encryptedBytes pad s.regs) →
    exec (if cbc then .cbcEnc pad iven else .ecbEnc pad) s = .next t →
    ∀ j < encryptedBytes pad s.regs / 16,
      memoryBlock t.mem (byteAddr s.regs.dst (16 * j)) = cipher (schedule s.regs) (xorBlock (plainBlock s.regs s.mem j)
        (if j = 0 then firstChain iven s.regs
          else if cbc then memoryBlock t.mem (byteAddr s.regs.dst (16 * (j - 1))) else .zero))

/-! ## Frames and accesses of every command -/

/-- A mode command, completing with any code, stores to nothing but the first `OUTLEN` bytes of its output: those from
`DST` on, or from `SRC` on for `CTR`. Every other command stores to nothing (20_memory.md R66; 10_state.md R32). -/
def Obligations.StoresOnlyReportedBytes : Prop :=
  ∀ (i : Instr) (s t : Machine.State) (a : Word), s.internal.nwr = 0 → exec i s = .next t →
    (IsMode i = true →
      (∀ k < t.regs.outlen.toNat, byteAddr (if i = .ctr then s.regs.src else s.regs.dst) k ≠ a) →
      t.mem.read a.toNat = s.mem.read a.toNat) ∧
    (IsMode i = false → t.regs.outlen = 0 ∧ KeepsBuffers s t)

/-- Every command completes in a next state. Its registers are those at issue but for `STATUS`, `OUTLEN`, `GFRES` of a GF
command and `STATE` of a command that is neither a GF nor a mode command; those two change only with code `OK`
(10_state.md R34 to R37; 60_exceptions.md R223, R225). -/
def Obligations.CommandsWriteOnlyTheirResults : Prop :=
  ∀ (i : Instr) (s : Machine.State), ∃ (t : Machine.State) (code : ErrCode) (n : Nat) (state : Block) (gfres : Byte),
    exec i s = .next t ∧ Completes code n state gfres s t ∧
    (IsGf i = false ∨ code ≠ .ok → gfres = s.regs.gfres) ∧
    (IsGf i = true ∨ IsMode i = true ∨ code ≠ .ok → state = s.regs.state)

/-- The codes a command can complete with are those 60_exceptions.md R221 marks for it, and `BUS_ERROR` comes only where
the platform refuses an address the command may access. -/
def Obligations.CompletionCodesAreThoseOfTheTable : Prop :=
  ∀ (i : Instr) (s t : Machine.State), exec i s = .next t → t.regs.status.err ∈ possibleCodes i ∧
    (t.regs.status.err = .busError →
      (∃ k < s.regs.len.toNat, memAdmit s.platform .read (byteAddr s.regs.src k) = false) ∨
      (∃ k < (if i = .ctr then s.regs.len else s.regs.cap).toNat,
        memAdmit s.platform .write (byteAddr (if i = .ctr then s.regs.src else s.regs.dst) k) = false))

/-- Every access of an ECB or CBC command is a read at `SRC + i`, `i < LEN`, or a write at `DST + i`, `i < CAP`; every
access of `CTR` is at `SRC + i`, `i < LEN` (20_memory.md R66). -/
def Obligations.AccessesStayInBounds : Prop :=
  ∀ (i : Instr) (s t : Machine.State), exec i s = .next t →
    ∃ xs : List Access, t.trace = xs ++ s.trace ∧ (IsMode i = false → xs = []) ∧
      ∀ x ∈ xs, memAdmit s.platform x.kind x.addr = true ∧
        (if i = .ctr ∨ x.kind = .read then ∃ k < s.regs.len.toNat, x.addr = byteAddr s.regs.src k
         else ∃ k < s.regs.cap.toNat, x.addr = byteAddr s.regs.dst k)

/-- Memory after a command is memory before it with the command's traced writes made in their order, and `OUTLEN` counts
them (20_memory.md R62; 60_exceptions.md R223, R224). -/
def Obligations.TraceAccountsForMemory : Prop :=
  ∀ (i : Instr) (s t : Machine.State), s.internal.nwr = 0 → exec i s = .next t →
    ∃ xs : List Access, t.trace = xs ++ s.trace ∧ t.mem = applyWrites (tracedWrites xs) s.mem ∧
      t.regs.outlen = BitVec.ofNat 32 (writeCount xs)

/-- The order of accesses: ECB and CBC go block by block in ascending order, all reads of a block, then all its writes,
each ascending; `CTR` reads and then writes each byte in ascending order (20_memory.md R67), on a platform that admits
every access. A decryption with
unpadding makes, in its last block, only the writes that `OUTLEN` counts. -/
def Obligations.AccessOrderIsBlockByBlock : Prop :=
  ∀ (s t : Machine.State), s.internal.nwr = 0 → ValidKey s.regs →
    (∀ kind a, memAdmit s.platform kind a = true) →
    (∀ pad i, (i = .ecbEnc pad ∨ ∃ iven, i = .cbcEnc pad iven) → (pad = false → s.regs.len.toNat % 16 = 0) →
      encryptedBytes pad s.regs ≤ s.regs.cap.toNat → exec i s = .next t →
      accessesBetween s t = (List.range (encryptedBytes pad s.regs / 16)).flatMap fun j =>
        sourceReads s.regs (16 * j) (min 16 (s.regs.len.toNat - 16 * j)) ++ destinationWrites s.regs (16 * j) 16) ∧
    (∀ pad i, (i = .ecbDec pad ∨ ∃ iven, i = .cbcDec pad iven) → s.regs.len.toNat % 16 = 0 →
      (pad = true → s.regs.len.toNat ≠ 0) →
      s.regs.len.toNat ≤ s.regs.cap.toNat + (if pad then 16 else 0) → exec i s = .next t →
      accessesBetween s t = (List.range (s.regs.len.toNat / 16)).flatMap fun j =>
        sourceReads s.regs (16 * j) 16 ++
          destinationWrites s.regs (16 * j) (min 16 (t.regs.outlen.toNat - 16 * j))) ∧
    (s.regs.noncelen.toNat ≤ 16 → exec .ctr s = .next t →
      accessesBetween s t = (List.range s.regs.len.toNat).flatMap fun k =>
        [(.read, byteAddr s.regs.src k), (.write, byteAddr s.regs.src k)])

/-- A mode command whose checks pass and whose first read is refused completes with `BUS_ERROR`, with nothing read or
written (20_memory.md R62; 60_exceptions.md R228). -/
def Obligations.RefusedFirstReadIsBusError : Prop :=
  ∀ s : Machine.State, s.internal.nwr = 0 → ValidKey s.regs → 0 < s.regs.len.toNat →
    memAdmit s.platform .read s.regs.src = false →
    (∀ pad i, (i = .ecbEnc pad ∨ ∃ iven, i = .cbcEnc pad iven) → (pad = false → s.regs.len.toNat % 16 = 0) →
      encryptedBytes pad s.regs ≤ s.regs.cap.toNat → FailsUntouched .busError i s) ∧
    (∀ pad i, (i = .ecbDec pad ∨ ∃ iven, i = .cbcDec pad iven) → s.regs.len.toNat % 16 = 0 →
      s.regs.len.toNat ≤ s.regs.cap.toNat + (if pad then 16 else 0) → FailsUntouched .busError i s) ∧
    (s.regs.noncelen.toNat ≤ 16 → FailsUntouched .busError .ctr s)

/-- An ECB or CBC encryption whose write number `k` is the first refused access completes with `BUS_ERROR` and
`OUTLEN = k`, and the `k` bytes written before it stay (20_memory.md R62; 60_exceptions.md R228). -/
def Obligations.RefusedWriteKeepsEarlierWrites : Prop :=
  ∀ (s : Machine.State) (pad cbc iven : Bool) (k : Nat), ValidKey s.regs →
    (pad = false → s.regs.len.toNat % 16 = 0) → encryptedBytes pad s.regs ≤ s.regs.cap.toNat →
    (cbc = false → iven = false) → s.internal.nwr = 0 → k < encryptedBytes pad s.regs →
    ReadsAdmitted s s.regs.src s.regs.len.toNat → WritesAdmitted s s.regs.dst k →
    memAdmit s.platform .write (byteAddr s.regs.dst k) = false →
    let before := encryptBlocks cbc s.regs (k / 16) s.mem (firstChain iven s.regs)
    let block := cipher (schedule s.regs) (xorBlock (plainBlock s.regs before.1 (k / 16)) before.2)
    ∃ t, exec (if cbc then .cbcEnc pad iven else .ecbEnc pad) s = .next t ∧
      Completes .busError k s.regs.state s.regs.gfres s t ∧
      t.mem = Memory.writeBytes ((blockBytes block).take (k % 16)) (byteAddr s.regs.dst (16 * (k / 16))) before.1

/-- A read after the first is refused: an ECB or CBC command whose read number `k` is the first refused access completes
with `BUS_ERROR`, and exactly the blocks before that byte's block are written and counted (20_memory.md R62, R67;
60_exceptions.md R222, R228). -/
def Obligations.RefusedReadKeepsEarlierBlocks : Prop :=
  ∀ (s : Machine.State) (pad cbc iven : Bool) (k : Nat), ValidKey s.regs → (cbc = false → iven = false) →
    s.internal.nwr = 0 → k < s.regs.len.toNat →
    ReadsAdmitted s s.regs.src k → WritesAdmitted s s.regs.dst (16 * (k / 16)) →
    memAdmit s.platform .read (byteAddr s.regs.src k) = false →
    ((pad = false → s.regs.len.toNat % 16 = 0) → encryptedBytes pad s.regs ≤ s.regs.cap.toNat →
      ∃ t, exec (if cbc then .cbcEnc pad iven else .ecbEnc pad) s = .next t ∧
        Completes .busError (16 * (k / 16)) s.regs.state s.regs.gfres s t ∧
        t.mem = (encryptBlocks cbc s.regs (k / 16) s.mem (firstChain iven s.regs)).1) ∧
    (s.regs.len.toNat % 16 = 0 → s.regs.len.toNat ≤ s.regs.cap.toNat + (if pad then 16 else 0) →
      ∃ t, exec (if cbc then .cbcDec pad iven else .ecbDec pad) s = .next t ∧
        Completes .busError (16 * (k / 16)) s.regs.state s.regs.gfres s t ∧
        t.mem = (decryptBlocks cbc s.regs (k / 16) s.mem (firstChain iven s.regs)).1)

/-- A decryption whose write number `k` is the first refused access completes with `BUS_ERROR` and `OUTLEN = k`, and the
`k` bytes written before it stay. With unpadding, a write into the last block comes only after its padding and the
capacity are found good (20_memory.md R62; 43_modes.md R176, R177; 60_exceptions.md R222, R228). -/
def Obligations.RefusedWriteOfDecryptionKeepsEarlierWrites : Prop :=
  ∀ (s : Machine.State) (pad cbc iven : Bool) (k : Nat), ValidKey s.regs → s.regs.len.toNat % 16 = 0 →
    s.regs.len.toNat ≤ s.regs.cap.toNat + (if pad then 16 else 0) → (cbc = false → iven = false) →
    s.internal.nwr = 0 → k < s.regs.len.toNat →
    (pad = true → k < s.regs.len.toNat - 16 ∨
      ∃ p, PaddedBy (lastPlain cbc iven s) p ∧ s.regs.len.toNat - p ≤ s.regs.cap.toNat ∧ k < s.regs.len.toNat - p) →
    ReadsAdmitted s s.regs.src s.regs.len.toNat → WritesAdmitted s s.regs.dst k →
    memAdmit s.platform .write (byteAddr s.regs.dst k) = false →
    let before := decryptBlocks cbc s.regs (k / 16) s.mem (firstChain iven s.regs)
    let block := xorBlock (invCipher (schedule s.regs)
      (memoryBlock before.1 (byteAddr s.regs.src (16 * (k / 16))))) before.2
    ∃ t, exec (if cbc then .cbcDec pad iven else .ecbDec pad) s = .next t ∧
      Completes .busError k s.regs.state s.regs.gfres s t ∧
      t.mem = Memory.writeBytes ((blockBytes block).take (k % 16)) (byteAddr s.regs.dst (16 * (k / 16))) before.1

/-- `CTR` whose read or write of byte `k` is the first refused access completes with `BUS_ERROR` and `OUTLEN = k`: the
bytes before it are transformed and every other byte stays (20_memory.md R62, R67; 60_exceptions.md R222, R228). -/
def Obligations.RefusedAccessOfCtrKeepsEarlierBytes : Prop :=
  ∀ (s : Machine.State) (k : Nat), ValidKey s.regs → s.regs.noncelen.toNat ≤ 16 → s.internal.nwr = 0 →
    k < s.regs.len.toNat → ReadsAdmitted s s.regs.src k → WritesAdmitted s s.regs.src k →
    (memAdmit s.platform .read (byteAddr s.regs.src k) = false ∨
      memAdmit s.platform .write (byteAddr s.regs.src k) = false) →
    ∃ t, exec .ctr s = .next t ∧ Completes .busError k s.regs.state s.regs.gfres s t ∧
      (∀ i < k, t.mem.read (byteAddr s.regs.src i).toNat =
        s.mem.read (byteAddr s.regs.src i).toNat ^^^ keystreamByte s.regs i) ∧
      ∀ a : Word, (∀ i < k, byteAddr s.regs.src i ≠ a) → t.mem.read a.toNat = s.mem.read a.toNat

/-! ## The machine as a whole -/

/-- The state after reset: every register 0, the internal registers cleared, the engine idle (70_reset_and_hazards.md
R250). That the engine owns no buffer byte then is the model's reading (log entry 11). -/
def Obligations.ResetClearsEveryRegister : Prop :=
  (∀ r : Reg, regValue State.reset.regs r = 0) ∧
  State.reset.internal = ⟨[], .zero, .zero, .zero, 0⟩ ∧
  State.reset.regs.status = ⟨false, false, .ok⟩ ∧ State.reset.owned = []

/-- The state after reset meets the invariant. -/
def Obligations.ResetMeetsInvariant : Prop := State.reset.Inv

/-- Every step keeps the invariant: memory's canonical form, the internal registers cleared between steps, `BUSY` and
`DONE` never together, no error code without a completed command, and `OUTLEN` the count of bytes the completed command
wrote (10_state.md R26, R32, R42; 60_exceptions.md R223). -/
def Obligations.StepKeepsInvariant : Prop :=
  ∀ s t : Machine.State, s.Inv → step s = .next t → t.Inv

/-- No step changes the platform's parameters: `MEM_ADMIT` "does not change during a run" (20_memory.md R62). -/
def Obligations.StepKeepsPlatform : Prop :=
  ∀ s t : Machine.State, step s = .next t → t.platform = s.platform

/-- The latency of a command changes nothing but when it completes (60_exceptions.md R225; 70_reset_and_hazards.md R257).
With no host action to come, the command completes after its cycles in the state it would have reached at once, idle and
done. A host that polls with `WAIT` (30_encoding.md R87) reads the completed `STATUS` one step after that, whatever the
number of cycles: the state is then the same but for what the host holds, its last read, its script and the ownership,
which that read ends (70_reset_and_hazards.md R255). -/
def Obligations.LatencyChangesNoResult : Prop :=
  (∀ (s : Machine.State) (n : Nat), s.regs.status.busy = true → s.script = [] →
    ∃ t, Host.Core.run Sys2Proof.core (n + 1) { s with countdown := n } = .next t ∧
      step { s with countdown := 0 } = .next t ∧ t.regs.status.busy = false ∧ t.regs.status.done = true) ∧
  ∀ (s : Machine.State) (n : Nat) (xs : List HostAct), s.regs.status.busy = true → s.script = .wait :: xs →
    ∃ t, step { s with countdown := 0 } = .next t ∧ t.regs.status.busy = false ∧ t.regs.status.done = true ∧
      Host.Core.run Sys2Proof.core (n + 2) { s with countdown := n } =
        .next { t with script := xs, rdata := BitVec.ofNat 32 (2 + 256 * codeNumber t.regs.status.err), owned := [] }

/-! ## The host and the register window -/

/-- A host write of `v` to `CMD` while the engine is idle is accepted and issues: `CMD` holds `v`, `BUSY = 1`,
`DONE = 0`, `ERR = 0`, no byte is counted yet, and no other register or buffer byte changes (10_state.md R25;
60_exceptions.md R225). The engine owns the buffers of a mode command from then on (70_reset_and_hazards.md R255). -/
def Obligations.CmdWriteIssues : Prop :=
  ∀ (s : Machine.State) (v : Word) (xs : List HostAct), s.regs.status.busy = false →
    s.script = .writeReg (regAddr s.platform .cmd) .word v :: xs →
    ∃ t, step s = .next t ∧ t.regs = { s.regs with cmd := v, status := ⟨true, false, .ok⟩ } ∧
      t.internal = { s.internal with nwr := 0 } ∧ t.mem = s.mem ∧ t.script = xs ∧ t.trace = [] ∧
      (∀ i, decode v = .ok i → IsMode i = true →
        (∀ k < s.regs.len.toNat, ownedByte t (byteAddr s.regs.src k) = true) ∧
        (i ≠ .ctr → ∀ k < s.regs.cap.toNat, ownedByte t (byteAddr s.regs.dst k) = true))

/-- While a command is in flight every host write to the window is dropped, to `CMD` as to any other register
(10_state.md R40). -/
def Obligations.BusyWritesAreDropped : Prop :=
  ∀ (s : Machine.State) (off : Nat) (v : Word) (xs : List HostAct), s.regs.status.busy = true → 0 < s.countdown →
    off < 256 → off % 4 = 0 →
    s.script = .writeReg (byteAddr s.platform.engineBase off) .word v :: xs →
    step s = .next { s with script := xs, countdown := s.countdown - 1 }

/-- While a command is in flight a read of `STATUS` returns `BUSY = 1, DONE = 0, ERR = 0`, a read of `STATE`, `GFRES` or
`OUTLEN` returns the next free value, and any other register returns its value; no register changes (10_state.md
R41). -/
def Obligations.BusyReadsReturnSettledOrFreeValues : Prop :=
  ∀ (s : Machine.State) (r : Reg) (xs : List HostAct), s.regs.status = ⟨true, false, .ok⟩ → 0 < s.countdown →
    s.script = .readReg (regAddr s.platform r) .word :: xs →
    ∃ t, step s = .next t ∧ t.regs = s.regs ∧ t.mem = s.mem ∧ t.owned = s.owned ∧
      (r = .status → t.rdata = 0x00000001) ∧
      (r = .gfres ∨ r = .outlen ∨ (∃ j, r = .state j) →
        t.rdata = Config.freeReadWord s.draws ∧ t.draws = s.draws + 1) ∧
      (r ≠ .status → r ≠ .gfres → r ≠ .outlen → (∀ j, r ≠ .state j) → t.rdata = regValue s.regs r)

/-- While the engine is idle, a write to a read-write register is what the next read of it returns, with the bits
`GFOP` does not have as 0; byte `4j+k` of a byte array takes lane `k` of the word; every other register and buffer
memory stay (10_state.md R23, R24, R33). -/
def Obligations.RegisterWritesReadBack : Prop :=
  ∀ (s : Machine.State) (r : Reg) (v : Word) (xs : List HostAct), s.regs.status.busy = false →
    r ≠ .cmd → r ≠ .status → r ≠ .outlen → r ≠ .gfres →
    s.script = .writeReg (regAddr s.platform r) .word v :: .readReg (regAddr s.platform r) .word :: xs →
    ∃ t u, step s = .next t ∧ step t = .next u ∧
      u.rdata = (if r = .gfop then v &&& 0x0000FFFF else v) ∧ u.regs = t.regs ∧ u.mem = s.mem ∧
      (∀ r', r' ≠ r → regValue t.regs r' = regValue s.regs r') ∧
      (∀ j : Fin 8, ∀ k < 4, r = .key j → columnByte (keyColumn t.regs.key j) k = v.extractLsb' (8 * k) 8) ∧
      (∀ j : Fin 4, ∀ k < 4, r = .iv j → blockByte t.regs.iv (4 * j + k) = v.extractLsb' (8 * k) 8) ∧
      (∀ j : Fin 4, ∀ k < 4, r = .state j → blockByte t.regs.state (4 * j + k) = v.extractLsb' (8 * k) 8)

/-- While the engine is idle, a write to `STATUS`, `OUTLEN`, `GFRES` or a reserved offset is ignored, and a read of a reserved offset, or of a
reserved bit of any register but `CMD`, returns 0 (10_state.md R38). A read at a register's offset returns its value, and
`STATUS` reads as `BUSY + 2*DONE + 256*ERR` with the numbers of 60_exceptions.md R220 (10_state.md R24, R26). -/
def Obligations.ReadOnlyAndReservedOffsets : Prop :=
  ∀ (s : Machine.State) (off : Nat) (v : Word) (xs : List HostAct), off < 256 → off % 4 = 0 →
    s.regs.status.busy = false →
    ((off = 0x004 ∨ off = 0x020 ∨ off = 0x028 ∨ (0x02C ≤ off ∧ off < 0x040) ∨ 0x080 ≤ off) →
      s.script = .writeReg (byteAddr s.platform.engineBase off) .word v :: xs →
      step s = .next { s with script := xs }) ∧
    (s.script = .readReg (byteAddr s.platform.engineBase off) .word :: xs →
      ∃ t, step s = .next t ∧ t.regs = s.regs ∧
        ((0x02C ≤ off ∧ off < 0x040) ∨ 0x080 ≤ off → t.rdata = 0) ∧
        (∀ r, off = regOffset r → t.rdata = regValue s.regs r) ∧
        (off = 0x004 → t.rdata = BitVec.ofNat 32 (statusNumber s.regs.status)) ∧
        (off = 0x004 → t.rdata &&& 0xFFFFF0FC = 0) ∧ (off = 0x024 → t.rdata &&& 0xFFFF0000 = 0) ∧
        (off = 0x028 → t.rdata &&& 0xFFFFFF00 = 0))

/-- What an idle host read returns at each offset of the map: a numeric register's value, `GFOP` and `GFRES` zero-extended,
and the four bytes of a key, IV or State word in lanes, the lowest-numbered byte in bits 7:0. The read changes no register
and no buffer byte (10_state.md R23 to R37). -/
def Obligations.IdleReadsFollowRegisterMap : Prop :=
  ∀ (s : Machine.State) (off : Nat) (xs : List HostAct), off < 256 → s.regs.status.busy = false →
    s.script = .readReg (byteAddr s.platform.engineBase off) .word :: xs → off % 4 = 0 →
    ∃ t, step s = .next t ∧ t.regs = s.regs ∧ t.internal = s.internal ∧ t.mem = s.mem ∧
      (off = 0x000 → t.rdata = s.regs.cmd) ∧
      (off = 0x004 → t.rdata.toNat = 2 * s.regs.status.done.toNat + 256 * codeNumber s.regs.status.err) ∧
      (off = 0x008 → t.rdata = s.regs.keylen) ∧ (off = 0x00C → t.rdata = s.regs.noncelen) ∧
      (off = 0x010 → t.rdata = s.regs.src) ∧ (off = 0x014 → t.rdata = s.regs.dst) ∧
      (off = 0x018 → t.rdata = s.regs.len) ∧ (off = 0x01C → t.rdata = s.regs.cap) ∧
      (off = 0x020 → t.rdata = s.regs.outlen) ∧ (off = 0x024 → t.rdata.toNat = s.regs.gfop.toNat) ∧
      (off = 0x028 → t.rdata.toNat = s.regs.gfres.toNat) ∧
      ∀ k < 4,
        (∀ j < 8, off = 0x040 + 4 * j → t.rdata.extractLsb' (8 * k) 8 = columnByte (keyColumn s.regs.key j) k) ∧
        (∀ j < 4, off = 0x060 + 4 * j → t.rdata.extractLsb' (8 * k) 8 = blockByte s.regs.iv (4 * j + k)) ∧
        (∀ j < 4, off = 0x070 + 4 * j → t.rdata.extractLsb' (8 * k) 8 = blockByte s.regs.state (4 * j + k))

/-- A byte or halfword access, a misaligned one, or one outside the window is refused (10_state.md R39). -/
def Obligations.OtherWindowAccessesAreRefused : Prop :=
  ∀ (s : Machine.State) (a : Word) (size : AccessSize) (v : Word) (xs : List HostAct),
    (size ≠ .word ∨ (a - s.platform.engineBase).toNat % 4 ≠ 0 ∨ 256 ≤ (a - s.platform.engineBase).toNat) →
    (HostIsNext s (.writeReg a size v) xs ∨ HostIsNext s (.readReg a size) xs) →
    step s = .refused (.outsideWindowInterface a size)

/-- A host access to a buffer byte the engine owns is a fault, and a read of `STATUS` that returns `BUSY = 0` ends the
ownership (20_memory.md R69; 70_reset_and_hazards.md R255). The model's choice, not the spec's words: any other host access
goes on, whatever the platform's `MEM_ADMIT` (log entry 14), a write storing its bytes and a read returning the byte; and a
`MEM` of several bytes is one action, which faults if the engine owns any of them (log entry 15). -/
def Obligations.HostAccessToOwnedBytesFaults : Prop :=
  ∀ (s : Machine.State) (a : Word) (bs : List Byte) (xs : List HostAct),
    (HostIsNext s (.readMem a) xs →
      (ownedByte s a = true → ∃ x, step s = .fault (.hostRace x)) ∧
      (ownedByte s a = false → ∃ t, step s = .next t ∧ t.rdata = (s.mem.read a.toNat).setWidth 32 ∧
        t.mem = s.mem ∧ t.regs = s.regs)) ∧
    (HostIsNext s (.writeMem a bs) xs →
      ((∃ k < bs.length, ownedByte s (byteAddr a k) = true) → ∃ x, step s = .fault (.hostRace x)) ∧
      ((∀ k < bs.length, ownedByte s (byteAddr a k) = false) → ∃ t, step s = .next t ∧
        t.mem = Memory.writeBytes bs a s.mem ∧ t.regs = s.regs)) ∧
    (HostIsNext s (.readReg (regAddr s.platform .status) .word) xs →
      ∃ t, step s = .next t ∧ t.owned = if s.regs.status.busy then s.owned else [])

/-- Reset gives every register its reset value and leaves buffer memory alone, but for a command in flight: of its write
sequence a first part stays written, and the rest is never written; an illegal word in flight has written nothing
(70_reset_and_hazards.md R250, R251; 60_exceptions.md R229). The engine's ownership of buffer bytes stays until the host's
read of `BUSY = 0` (70_reset_and_hazards.md R255; log entry 11). The model's choice, not the spec's words: the write
sequence is the one `exec` makes from the state at the reset (log entry 19). -/
def Obligations.ResetLeavesFirstPartOfWrites : Prop :=
  ∀ (s : Machine.State) (xs : List HostAct), HostIsNext s .reset xs →
    ∃ t, step s = .next t ∧ t.regs = Regs.reset ∧ t.internal = ⟨[], .zero, .zero, .zero, 0⟩ ∧
      t.platform = s.platform ∧ t.script = xs ∧ t.owned = s.owned ∧
      (s.regs.status.busy = false → t.mem = s.mem) ∧
      (s.regs.status.busy = true → ∀ why, decode s.regs.cmd = .error why → t.mem = s.mem) ∧
      (s.regs.status.busy = true → ∀ i u, decode s.regs.cmd = .ok i → exec i { s with trace := [] } = .next u →
        ∃ n, t.mem = applyWrites ((tracedWrites u.trace).take n) s.mem)

/-! ## Laws of several commands -/

/-- `CTR` applied twice with the same key and nonce restores memory: every byte reads as before, and where every byte of
the buffer was known before, memory is the same data (43_modes.md R185, item 4). -/
def Obligations.CtrTwiceRestoresMemory : Prop :=
  ∀ s : Machine.State, ValidKey s.regs → s.regs.noncelen.toNat ≤ 16 →
    ReadsAdmitted s s.regs.src s.regs.len.toNat → WritesAdmitted s s.regs.src s.regs.len.toNat →
    ∃ t u, exec .ctr s = .next t ∧ exec .ctr t = .next u ∧ t.regs.status.err = .ok ∧ u.regs.status.err = .ok ∧
      (∀ a, u.mem.read a = s.mem.read a) ∧
      (s.mem.wf → (∀ k < s.regs.len.toNat, s.mem.listed (byteAddr s.regs.src k).toNat ≠ none) → u.mem = s.mem)

/-- An ECB or CBC encryption, padded or not, followed by the decryption of its output with the same key and IV, restores
the data and reports its length, for every data length and every place of the second output that is disjoint from the
ciphertext (43_modes.md R185, items 1 to 3; R183 for CBC without padding) or equal to it (20_memory.md R68). -/
def Obligations.DecryptionRestoresEncryptedData : Prop :=
  ∀ (s t : Machine.State) (pad cbc iven : Bool) (out cap : Word), ValidKey s.regs →
    (pad = false → s.regs.len.toNat % 16 = 0) → encryptedBytes pad s.regs ≤ s.regs.cap.toNat →
    s.internal.nwr = 0 → (cbc = false → iven = false) → (∀ kind a, memAdmit s.platform kind a = true) →
    BuffersApart s.regs.src s.regs.len.toNat s.regs.dst (encryptedBytes pad s.regs) →
    (out = s.regs.dst ∨ BuffersApart s.regs.dst (encryptedBytes pad s.regs) out s.regs.len.toNat) →
    s.regs.len.toNat ≤ cap.toNat →
    exec (if cbc then .cbcEnc pad iven else .ecbEnc pad) s = .next t →
    ∃ u, exec (if cbc then .cbcDec pad iven else .ecbDec pad)
        { t with regs := { t.regs with src := s.regs.dst, dst := out, len := t.regs.outlen, cap := cap } } = .next u ∧
      u.regs.status.err = .ok ∧ u.regs.outlen = s.regs.len ∧
      ∀ i < s.regs.len.toNat, u.mem.read (byteAddr out i).toNat = s.mem.read (byteAddr s.regs.src i).toNat

/-- In place, with `DST = SRC`, every ECB and CBC command completes as it does with disjoint buffers: the same code, the
same `OUTLEN` and the same output bytes (20_memory.md R68; 70_reset_and_hazards.md R256). -/
def Obligations.InPlaceGivesDisjointOutput : Prop :=
  ∀ (s t t' : Machine.State) (i : Instr),
    (∃ pad, i = .ecbEnc pad ∨ i = .ecbDec pad ∨ ∃ iven, i = .cbcEnc pad iven ∨ i = .cbcDec pad iven) →
    s.internal.nwr = 0 → (∀ kind a, memAdmit s.platform kind a = true) →
    BuffersApart s.regs.src s.regs.len.toNat s.regs.dst s.regs.cap.toNat →
    exec i s = .next t → exec i { s with regs := { s.regs with dst := s.regs.src } } = .next t' →
    t'.regs.status = t.regs.status ∧ t'.regs.outlen = t.regs.outlen ∧
      ∀ k < t.regs.outlen.toNat,
        t'.mem.read (byteAddr s.regs.src k).toNat = t.mem.read (byteAddr s.regs.dst k).toNat
end

