-- ==== Sys2Proof/Laws/Memory.lean ====
section
/-!
SUPPORT. Buffer memory: read after write, the canonical form is kept by every write, and memories that list the same are
equal.
-/

namespace Sys2Proof.Machine

@[simp] theorem Memory.listed_nil (a : Nat) : Memory.listed [] a = none := rfl

theorem Memory.listed_cons (x : Nat) (v : Byte) (m : Memory) (a : Nat) :
    Memory.listed ((x, v) :: m) a = if a = x then some v else Memory.listed m a := rfl

/-- An address below every listed one is unlisted. -/
theorem Memory.listed_below {m : Memory} {a : Nat} (h : ∀ c ∈ m, a < c.1) : m.listed a = none := by
  induction m with
  | nil => rfl
  | cons p m ih =>
    have := h p (by simp)
    rw [Memory.listed_cons, if_neg (by omega)]
    exact ih fun c hc => h c (by simp [hc])

/-- What is listed after a write, at every address. -/
theorem Memory.listed_write (m : Memory) (a : Nat) (b : Byte) (x : Nat) :
    (m.write a b).listed x = if x = a then some b else m.listed x := by
  induction m with
  | nil => rfl
  | cons p m ih =>
    obtain ⟨y, v⟩ := p
    simp only [Memory.write]
    split
    · rfl
    · split
      · next he =>
        subst he
        simp only [Memory.listed_cons]
        split <;> rfl
      · next hne =>
        rw [Memory.listed_cons, Memory.listed_cons, ih]
        split
        · next hx => rw [if_neg (by omega)]
        · rfl

theorem Memory.read_listed {m : Memory} {a : Nat} {v : Byte} (h : m.listed a = some v) : m.read a = v := by
  simp [Memory.read, h]

/-- A byte nothing has written reads as its free power-on value (70_reset_and_hazards.md R251). -/
theorem Memory.read_unlisted {m : Memory} {a : Nat} (h : m.listed a = none) : m.read a = Config.freePowerOnByte a := by
  simp [Memory.read, h]

/-- Read after write, at every address (20_memory.md R64). -/
theorem Memory.read_write (m : Memory) (a : Nat) (b : Byte) (x : Nat) :
    (m.write a b).read x = if x = a then b else m.read x := by
  by_cases hx : x = a
  · rw [if_pos hx]
    exact Memory.read_listed (by rw [Memory.listed_write, if_pos hx])
  · rw [if_neg hx]
    unfold Memory.read
    rw [Memory.listed_write, if_neg hx]

/-- A listed address of the memory after a write is the written one or was listed before. -/
theorem Memory.mem_write {m : Memory} {a : Nat} {b : Byte} {c : Host.Cell} (h : c ∈ m.write a b) :
    c = (a, b) ∨ c ∈ m := by
  induction m with
  | nil => simpa [Memory.write] using h
  | cons p m ih =>
    obtain ⟨y, v⟩ := p
    simp only [Memory.write] at h
    split at h
    · exact List.mem_cons.1 h
    · split at h
      · exact (List.mem_cons.1 h).imp id (List.mem_cons_of_mem _)
      · rcases List.mem_cons.1 h with h | h
        · exact .inr (h ▸ List.mem_cons_self)
        · exact (ih h).imp id (List.mem_cons_of_mem _)

theorem Memory.pairwise_write {m : Memory} (h : m.Pairwise fun p q => p.1 < q.1) (a : Nat) (b : Byte) :
    (m.write a b).Pairwise fun p q => p.1 < q.1 := by
  induction m with
  | nil => exact List.pairwise_singleton ..
  | cons p m ih =>
    obtain ⟨y, v⟩ := p
    obtain ⟨hy, hm⟩ := List.pairwise_cons.1 h
    simp only [Memory.write]
    split
    · next hlt =>
      refine List.pairwise_cons.2 ⟨?_, h⟩
      simp only [List.mem_cons, forall_eq_or_imp]
      exact ⟨hlt, fun c hc => lt_trans hlt (hy c hc)⟩
    · split
      · next he => exact List.pairwise_cons.2 ⟨he ▸ hy, hm⟩
      · next hlt hne =>
        refine List.pairwise_cons.2 ⟨fun c hc => ?_, ih hm⟩
        rcases Memory.mem_write hc with rfl | hc
        · show y < a
          omega
        · exact hy c hc

/-- A write of a byte at an address of the 32-bit space keeps the canonical form. -/
theorem Memory.wf_write {m : Memory} (h : m.wf) {a : Nat} (ha : a < Config.addressCount) (b : Byte) :
    (m.write a b).wf := by
  refine ⟨Memory.pairwise_write h.1 a b, fun c hc => ?_⟩
  rcases Memory.mem_write hc with rfl | hc
  · exact ha
  · exact h.2 c hc

theorem word_lt_addressCount (a : Word) : a.toNat < Config.addressCount := a.isLt

theorem Memory.wf_writeWord {m : Memory} (h : m.wf) (a : Word) (b : Byte) : (m.write a.toNat b).wf :=
  Memory.wf_write h (word_lt_addressCount a) b

theorem Memory.wf_writeBytes {m : Memory} (h : m.wf) (bs : List Byte) (a : Word) : (Memory.writeBytes bs a m).wf := by
  induction bs generalizing a m with
  | nil => exact h
  | cons b bs ih => exact ih (Memory.wf_writeWord h a b) (a + 1)

@[simp] theorem Memory.readBytes_length (n : Nat) (a : Word) (m : Memory) : (Memory.readBytes n a m).length = n := by
  induction n generalizing a with
  | zero => rfl
  | succ n ih => simp [Memory.readBytes, ih]

/-- Every byte of a block read of memory, by its offset. -/
theorem Memory.readBytes_getElem (n : Nat) (a : Word) (m : Memory) (k : Nat) (h : k < (Memory.readBytes n a m).length) :
    (Memory.readBytes n a m)[k] = m.read (a + BitVec.ofNat 32 k).toNat := by
  induction n generalizing a k with
  | zero => simp at h
  | succ n ih =>
    cases k with
    | zero => simp [Memory.readBytes]
    | succ k =>
      simp only [Memory.readBytes, List.getElem_cons_succ]
      rw [ih, BitVec.add_assoc]
      congr 3
      apply BitVec.eq_of_toNat_eq
      simp [BitVec.toNat_add, Nat.add_comm]

/-- A memory in canonical form is what it lists. -/
theorem Memory.ext_of_listed {m m' : Memory} (h : m.wf) (h' : m'.wf) (hr : ∀ a, m.listed a = m'.listed a) : m = m' := by
  induction m generalizing m' with
  | nil =>
    cases m' with
    | nil => rfl
    | cons q m' =>
      obtain ⟨y, w⟩ := q
      have := hr y
      simp [Memory.listed_cons] at this
  | cons p m ih =>
    cases m' with
    | nil =>
      obtain ⟨x, v⟩ := p
      have := hr x
      simp [Memory.listed_cons] at this
    | cons q m' =>
      obtain ⟨x, v⟩ := p
      obtain ⟨y, w⟩ := q
      obtain ⟨hx, hm⟩ := List.pairwise_cons.1 h.1
      obtain ⟨hy, hm'⟩ := List.pairwise_cons.1 h'.1
      have above : ∀ {a b : Nat} {u : Byte} {l : Memory}, a < b → (∀ c ∈ l, b < c.1) →
          Memory.listed ((b, u) :: l) a = none := fun hlt hl => Memory.listed_below (by
        simp only [List.mem_cons, forall_eq_or_imp]
        exact ⟨hlt, fun c hc => lt_trans hlt (hl c hc)⟩)
      have hxy : x = y := by
        rcases lt_trichotomy x y with hlt | he | hgt
        · have := hr x
          rw [above hlt hy] at this
          simp [Memory.listed_cons] at this
        · exact he
        · have := hr y
          rw [above hgt hx] at this
          simp [Memory.listed_cons] at this
      subst hxy
      have hvw : v = w := by simpa [Memory.listed_cons] using hr x
      subst hvw
      congr 1
      refine ih ⟨hm, fun c hc => h.2 c (by simp [hc])⟩ ⟨hm', fun c hc => h'.2 c (by simp [hc])⟩ fun a => ?_
      by_cases ha : a = x
      · subst ha
        rw [Memory.listed_below hx, Memory.listed_below hy]
      · simpa [Memory.listed_cons, ha] using hr a

end Sys2Proof.Machine
end

