-- ==== Sys2Proof/Laws/State.lean ====
section
/-!
SUPPORT. What each update of the state leaves in each field, one lemma a field and an update, so that no proof unfolds a
record update.
-/

namespace Sys2Proof.Machine

@[simp] theorem setRk_regs (v : List Column) (s : State) : (setRk v s).regs = s.regs := rfl
@[simp] theorem setRk_internal (v : List Column) (s : State) : (setRk v s).internal = { s.internal with rk := v } := rfl
@[simp] theorem setRk_mem (v : List Column) (s : State) : (setRk v s).mem = s.mem := rfl
@[simp] theorem setRk_platform (v : List Column) (s : State) : (setRk v s).platform = s.platform := rfl
@[simp] theorem setRk_latency (v : List Column) (s : State) : (setRk v s).latency = s.latency := rfl
@[simp] theorem setRk_countdown (v : List Column) (s : State) : (setRk v s).countdown = s.countdown := rfl
@[simp] theorem setRk_owned (v : List Column) (s : State) : (setRk v s).owned = s.owned := rfl
@[simp] theorem setRk_script (v : List Column) (s : State) : (setRk v s).script = s.script := rfl
@[simp] theorem setRk_rdata (v : List Column) (s : State) : (setRk v s).rdata = s.rdata := rfl
@[simp] theorem setRk_trace (v : List Column) (s : State) : (setRk v s).trace = s.trace := rfl
@[simp] theorem setRk_draws (v : List Column) (s : State) : (setRk v s).draws = s.draws := rfl

@[simp] theorem setChain_regs (v : Block) (s : State) : (setChain v s).regs = s.regs := rfl
@[simp] theorem setChain_internal (v : Block) (s : State) : (setChain v s).internal = { s.internal with chain := v } := rfl
@[simp] theorem setChain_mem (v : Block) (s : State) : (setChain v s).mem = s.mem := rfl
@[simp] theorem setChain_platform (v : Block) (s : State) : (setChain v s).platform = s.platform := rfl
@[simp] theorem setChain_latency (v : Block) (s : State) : (setChain v s).latency = s.latency := rfl
@[simp] theorem setChain_countdown (v : Block) (s : State) : (setChain v s).countdown = s.countdown := rfl
@[simp] theorem setChain_owned (v : Block) (s : State) : (setChain v s).owned = s.owned := rfl
@[simp] theorem setChain_script (v : Block) (s : State) : (setChain v s).script = s.script := rfl
@[simp] theorem setChain_rdata (v : Block) (s : State) : (setChain v s).rdata = s.rdata := rfl
@[simp] theorem setChain_trace (v : Block) (s : State) : (setChain v s).trace = s.trace := rfl
@[simp] theorem setChain_draws (v : Block) (s : State) : (setChain v s).draws = s.draws := rfl

@[simp] theorem setCtrv_regs (v : Block) (s : State) : (setCtrv v s).regs = s.regs := rfl
@[simp] theorem setCtrv_internal (v : Block) (s : State) : (setCtrv v s).internal = { s.internal with ctrv := v } := rfl
@[simp] theorem setCtrv_mem (v : Block) (s : State) : (setCtrv v s).mem = s.mem := rfl
@[simp] theorem setCtrv_platform (v : Block) (s : State) : (setCtrv v s).platform = s.platform := rfl
@[simp] theorem setCtrv_latency (v : Block) (s : State) : (setCtrv v s).latency = s.latency := rfl
@[simp] theorem setCtrv_countdown (v : Block) (s : State) : (setCtrv v s).countdown = s.countdown := rfl
@[simp] theorem setCtrv_owned (v : Block) (s : State) : (setCtrv v s).owned = s.owned := rfl
@[simp] theorem setCtrv_script (v : Block) (s : State) : (setCtrv v s).script = s.script := rfl
@[simp] theorem setCtrv_rdata (v : Block) (s : State) : (setCtrv v s).rdata = s.rdata := rfl
@[simp] theorem setCtrv_trace (v : Block) (s : State) : (setCtrv v s).trace = s.trace := rfl
@[simp] theorem setCtrv_draws (v : Block) (s : State) : (setCtrv v s).draws = s.draws := rfl

@[simp] theorem setBlk_regs (v : Block) (s : State) : (setBlk v s).regs = s.regs := rfl
@[simp] theorem setBlk_internal (v : Block) (s : State) : (setBlk v s).internal = { s.internal with blk := v } := rfl
@[simp] theorem setBlk_mem (v : Block) (s : State) : (setBlk v s).mem = s.mem := rfl
@[simp] theorem setBlk_platform (v : Block) (s : State) : (setBlk v s).platform = s.platform := rfl
@[simp] theorem setBlk_latency (v : Block) (s : State) : (setBlk v s).latency = s.latency := rfl
@[simp] theorem setBlk_countdown (v : Block) (s : State) : (setBlk v s).countdown = s.countdown := rfl
@[simp] theorem setBlk_owned (v : Block) (s : State) : (setBlk v s).owned = s.owned := rfl
@[simp] theorem setBlk_script (v : Block) (s : State) : (setBlk v s).script = s.script := rfl
@[simp] theorem setBlk_rdata (v : Block) (s : State) : (setBlk v s).rdata = s.rdata := rfl
@[simp] theorem setBlk_trace (v : Block) (s : State) : (setBlk v s).trace = s.trace := rfl
@[simp] theorem setBlk_draws (v : Block) (s : State) : (setBlk v s).draws = s.draws := rfl

@[simp] theorem loadSchedule_regs (s : State) : (loadSchedule s).regs = s.regs := rfl
@[simp] theorem loadSchedule_internal (s : State) : (loadSchedule s).internal = { s.internal with rk := expandKey (keyWords s.regs) } := rfl
@[simp] theorem loadSchedule_mem (s : State) : (loadSchedule s).mem = s.mem := rfl
@[simp] theorem loadSchedule_platform (s : State) : (loadSchedule s).platform = s.platform := rfl
@[simp] theorem loadSchedule_latency (s : State) : (loadSchedule s).latency = s.latency := rfl
@[simp] theorem loadSchedule_countdown (s : State) : (loadSchedule s).countdown = s.countdown := rfl
@[simp] theorem loadSchedule_owned (s : State) : (loadSchedule s).owned = s.owned := rfl
@[simp] theorem loadSchedule_script (s : State) : (loadSchedule s).script = s.script := rfl
@[simp] theorem loadSchedule_rdata (s : State) : (loadSchedule s).rdata = s.rdata := rfl
@[simp] theorem loadSchedule_trace (s : State) : (loadSchedule s).trace = s.trace := rfl
@[simp] theorem loadSchedule_draws (s : State) : (loadSchedule s).draws = s.draws := rfl

@[simp] theorem setState_regs (v : Block) (s : State) : (setState v s).regs = { s.regs with state := v } := rfl
@[simp] theorem setState_internal (v : Block) (s : State) : (setState v s).internal = s.internal := rfl
@[simp] theorem setState_mem (v : Block) (s : State) : (setState v s).mem = s.mem := rfl
@[simp] theorem setState_platform (v : Block) (s : State) : (setState v s).platform = s.platform := rfl
@[simp] theorem setState_latency (v : Block) (s : State) : (setState v s).latency = s.latency := rfl
@[simp] theorem setState_countdown (v : Block) (s : State) : (setState v s).countdown = s.countdown := rfl
@[simp] theorem setState_owned (v : Block) (s : State) : (setState v s).owned = s.owned := rfl
@[simp] theorem setState_script (v : Block) (s : State) : (setState v s).script = s.script := rfl
@[simp] theorem setState_rdata (v : Block) (s : State) : (setState v s).rdata = s.rdata := rfl
@[simp] theorem setState_trace (v : Block) (s : State) : (setState v s).trace = s.trace := rfl
@[simp] theorem setState_draws (v : Block) (s : State) : (setState v s).draws = s.draws := rfl

@[simp] theorem setGfres_regs (v : Byte) (s : State) : (setGfres v s).regs = { s.regs with gfres := v } := rfl
@[simp] theorem setGfres_internal (v : Byte) (s : State) : (setGfres v s).internal = s.internal := rfl
@[simp] theorem setGfres_mem (v : Byte) (s : State) : (setGfres v s).mem = s.mem := rfl
@[simp] theorem setGfres_platform (v : Byte) (s : State) : (setGfres v s).platform = s.platform := rfl
@[simp] theorem setGfres_latency (v : Byte) (s : State) : (setGfres v s).latency = s.latency := rfl
@[simp] theorem setGfres_countdown (v : Byte) (s : State) : (setGfres v s).countdown = s.countdown := rfl
@[simp] theorem setGfres_owned (v : Byte) (s : State) : (setGfres v s).owned = s.owned := rfl
@[simp] theorem setGfres_script (v : Byte) (s : State) : (setGfres v s).script = s.script := rfl
@[simp] theorem setGfres_rdata (v : Byte) (s : State) : (setGfres v s).rdata = s.rdata := rfl
@[simp] theorem setGfres_trace (v : Byte) (s : State) : (setGfres v s).trace = s.trace := rfl
@[simp] theorem setGfres_draws (v : Byte) (s : State) : (setGfres v s).draws = s.draws := rfl

@[simp] theorem traceAccess_regs (x : Access) (s : State) : (traceAccess x s).regs = s.regs := rfl
@[simp] theorem traceAccess_internal (x : Access) (s : State) : (traceAccess x s).internal = s.internal := rfl
@[simp] theorem traceAccess_mem (x : Access) (s : State) : (traceAccess x s).mem = s.mem := rfl
@[simp] theorem traceAccess_platform (x : Access) (s : State) : (traceAccess x s).platform = s.platform := rfl
@[simp] theorem traceAccess_latency (x : Access) (s : State) : (traceAccess x s).latency = s.latency := rfl
@[simp] theorem traceAccess_countdown (x : Access) (s : State) : (traceAccess x s).countdown = s.countdown := rfl
@[simp] theorem traceAccess_owned (x : Access) (s : State) : (traceAccess x s).owned = s.owned := rfl
@[simp] theorem traceAccess_script (x : Access) (s : State) : (traceAccess x s).script = s.script := rfl
@[simp] theorem traceAccess_rdata (x : Access) (s : State) : (traceAccess x s).rdata = s.rdata := rfl
@[simp] theorem traceAccess_trace (x : Access) (s : State) : (traceAccess x s).trace = x :: s.trace := rfl
@[simp] theorem traceAccess_draws (x : Access) (s : State) : (traceAccess x s).draws = s.draws := rfl

@[simp] theorem storeByte_regs (a : Word) (b : Byte) (s : State) : (storeByte a b s).regs = s.regs := rfl
@[simp] theorem storeByte_internal (a : Word) (b : Byte) (s : State) : (storeByte a b s).internal = { s.internal with nwr := s.internal.nwr + 1 } := rfl
@[simp] theorem storeByte_mem (a : Word) (b : Byte) (s : State) : (storeByte a b s).mem = s.mem.write a.toNat b := rfl
@[simp] theorem storeByte_platform (a : Word) (b : Byte) (s : State) : (storeByte a b s).platform = s.platform := rfl
@[simp] theorem storeByte_latency (a : Word) (b : Byte) (s : State) : (storeByte a b s).latency = s.latency := rfl
@[simp] theorem storeByte_countdown (a : Word) (b : Byte) (s : State) : (storeByte a b s).countdown = s.countdown := rfl
@[simp] theorem storeByte_owned (a : Word) (b : Byte) (s : State) : (storeByte a b s).owned = s.owned := rfl
@[simp] theorem storeByte_script (a : Word) (b : Byte) (s : State) : (storeByte a b s).script = s.script := rfl
@[simp] theorem storeByte_rdata (a : Word) (b : Byte) (s : State) : (storeByte a b s).rdata = s.rdata := rfl
@[simp] theorem storeByte_trace (a : Word) (b : Byte) (s : State) : (storeByte a b s).trace = s.trace := rfl
@[simp] theorem storeByte_draws (a : Word) (b : Byte) (s : State) : (storeByte a b s).draws = s.draws := rfl

@[simp] theorem complete_regs (code : ErrCode) (s : State) : (complete code s).regs = { s.regs with outlen := s.internal.nwr, status := statusCompleted code } := rfl
@[simp] theorem complete_internal (code : ErrCode) (s : State) : (complete code s).internal = .cleared := rfl
@[simp] theorem complete_mem (code : ErrCode) (s : State) : (complete code s).mem = s.mem := rfl
@[simp] theorem complete_platform (code : ErrCode) (s : State) : (complete code s).platform = s.platform := rfl
@[simp] theorem complete_latency (code : ErrCode) (s : State) : (complete code s).latency = s.latency := rfl
@[simp] theorem complete_countdown (code : ErrCode) (s : State) : (complete code s).countdown = s.countdown := rfl
@[simp] theorem complete_owned (code : ErrCode) (s : State) : (complete code s).owned = s.owned := rfl
@[simp] theorem complete_script (code : ErrCode) (s : State) : (complete code s).script = s.script := rfl
@[simp] theorem complete_rdata (code : ErrCode) (s : State) : (complete code s).rdata = s.rdata := rfl
@[simp] theorem complete_trace (code : ErrCode) (s : State) : (complete code s).trace = s.trace := rfl
@[simp] theorem complete_draws (code : ErrCode) (s : State) : (complete code s).draws = s.draws := rfl

@[simp] theorem startCommand_regs (v : Word) (s : State) : (startCommand v s).regs = { s.regs with cmd := v, status := statusIssued } := rfl
@[simp] theorem startCommand_internal (v : Word) (s : State) : (startCommand v s).internal = { s.internal with nwr := 0 } := rfl
@[simp] theorem startCommand_mem (v : Word) (s : State) : (startCommand v s).mem = s.mem := rfl
@[simp] theorem startCommand_platform (v : Word) (s : State) : (startCommand v s).platform = s.platform := rfl
@[simp] theorem startCommand_latency (v : Word) (s : State) : (startCommand v s).latency = s.latency := rfl
@[simp] theorem startCommand_countdown (v : Word) (s : State) : (startCommand v s).countdown = s.countdown := rfl
@[simp] theorem startCommand_owned (v : Word) (s : State) : (startCommand v s).owned = s.owned := rfl
@[simp] theorem startCommand_script (v : Word) (s : State) : (startCommand v s).script = s.script := rfl
@[simp] theorem startCommand_rdata (v : Word) (s : State) : (startCommand v s).rdata = s.rdata := rfl
@[simp] theorem startCommand_trace (v : Word) (s : State) : (startCommand v s).trace = [] := rfl
@[simp] theorem startCommand_draws (v : Word) (s : State) : (startCommand v s).draws = s.draws := rfl

@[simp] theorem issue_regs (v : Word) (s : State) : (issue v s).regs = { s.regs with cmd := v, status := statusIssued } := rfl
@[simp] theorem issue_internal (v : Word) (s : State) : (issue v s).internal = { s.internal with nwr := 0 } := rfl
@[simp] theorem issue_mem (v : Word) (s : State) : (issue v s).mem = s.mem := rfl
@[simp] theorem issue_platform (v : Word) (s : State) : (issue v s).platform = s.platform := rfl
@[simp] theorem issue_latency (v : Word) (s : State) : (issue v s).latency = s.latency.tail := rfl
@[simp] theorem issue_countdown (v : Word) (s : State) : (issue v s).countdown = s.latency.headD 1 - 1 := rfl
@[simp] theorem issue_owned (v : Word) (s : State) : (issue v s).owned = ownedByWord v s.regs ++ s.owned := rfl
@[simp] theorem issue_script (v : Word) (s : State) : (issue v s).script = s.script := rfl
@[simp] theorem issue_rdata (v : Word) (s : State) : (issue v s).rdata = s.rdata := rfl
@[simp] theorem issue_trace (v : Word) (s : State) : (issue v s).trace = [] := rfl
@[simp] theorem issue_draws (v : Word) (s : State) : (issue v s).draws = s.draws := rfl

@[simp] theorem readFree_regs (s : State) : (readFree s).regs = s.regs := rfl
@[simp] theorem readFree_internal (s : State) : (readFree s).internal = s.internal := rfl
@[simp] theorem readFree_mem (s : State) : (readFree s).mem = s.mem := rfl
@[simp] theorem readFree_platform (s : State) : (readFree s).platform = s.platform := rfl
@[simp] theorem readFree_latency (s : State) : (readFree s).latency = s.latency := rfl
@[simp] theorem readFree_countdown (s : State) : (readFree s).countdown = s.countdown := rfl
@[simp] theorem readFree_owned (s : State) : (readFree s).owned = s.owned := rfl
@[simp] theorem readFree_script (s : State) : (readFree s).script = s.script := rfl
@[simp] theorem readFree_rdata (s : State) : (readFree s).rdata = Config.freeReadWord s.draws := rfl
@[simp] theorem readFree_trace (s : State) : (readFree s).trace = s.trace := rfl
@[simp] theorem readFree_draws (s : State) : (readFree s).draws = s.draws + 1 := rfl

@[simp] theorem readStatus_regs (s : State) : (readStatus s).regs = s.regs := rfl
@[simp] theorem readStatus_internal (s : State) : (readStatus s).internal = s.internal := rfl
@[simp] theorem readStatus_mem (s : State) : (readStatus s).mem = s.mem := rfl
@[simp] theorem readStatus_platform (s : State) : (readStatus s).platform = s.platform := rfl
@[simp] theorem readStatus_latency (s : State) : (readStatus s).latency = s.latency := rfl
@[simp] theorem readStatus_countdown (s : State) : (readStatus s).countdown = s.countdown := rfl
@[simp] theorem readStatus_owned (s : State) : (readStatus s).owned = if s.regs.status.busy then s.owned else [] := rfl
@[simp] theorem readStatus_script (s : State) : (readStatus s).script = s.script := rfl
@[simp] theorem readStatus_rdata (s : State) : (readStatus s).rdata = statusWord s.regs.status := rfl
@[simp] theorem readStatus_trace (s : State) : (readStatus s).trace = s.trace := rfl
@[simp] theorem readStatus_draws (s : State) : (readStatus s).draws = s.draws := rfl

@[simp] theorem resetEngine_regs (s : State) : (resetEngine s).regs = .reset := rfl
@[simp] theorem resetEngine_internal (s : State) : (resetEngine s).internal = .cleared := rfl
@[simp] theorem resetEngine_mem (s : State) : (resetEngine s).mem = s.mem := rfl
@[simp] theorem resetEngine_platform (s : State) : (resetEngine s).platform = s.platform := rfl
@[simp] theorem resetEngine_latency (s : State) : (resetEngine s).latency = s.latency := rfl
@[simp] theorem resetEngine_countdown (s : State) : (resetEngine s).countdown = 0 := rfl
@[simp] theorem resetEngine_owned (s : State) : (resetEngine s).owned = s.owned := rfl
@[simp] theorem resetEngine_script (s : State) : (resetEngine s).script = s.script := rfl
@[simp] theorem resetEngine_rdata (s : State) : (resetEngine s).rdata = s.rdata := rfl
@[simp] theorem resetEngine_trace (s : State) : (resetEngine s).trace = [] := rfl
@[simp] theorem resetEngine_draws (s : State) : (resetEngine s).draws = s.draws := rfl

end Sys2Proof.Machine
end

