-- ==== Sys2Proof/Laws/Ops.lean ====
section
/-!
SUPPORT. What the shared operations can do, said once: every run of the engine inside a command leaves the registers and
what lies outside the engine alone, and its memory, its trace and its byte count tell the same accesses.
-/

namespace Sys2Proof.Machine

/-- The state a run has reached, raised or not. -/
def Run.state {α : Type} : Run α → State
  | .done _ s => s
  | .raised _ s => s

@[simp] theorem Run.state_done {α : Type} (v : α) (s : State) : (Run.done v s).state = s := rfl
@[simp] theorem Run.state_raised {α : Type} (c : ErrCode) (s : State) : (Run.raised c s : Run α).state = s := rfl
@[simp] theorem Run.done_andThen {α β : Type} (v : α) (s : State) (k : α → State → Run β) :
    (Run.done v s).andThen k = k v s := rfl
@[simp] theorem Run.raised_andThen {α β : Type} (c : ErrCode) (s : State) (k : α → State → Run β) :
    (Run.raised c s : Run α).andThen k = .raised c s := rfl

theorem finish_eq_next (r : Run Unit) : ∃ code, finish r = .next (complete code r.state) := by
  cases r with
  | done v s => exact ⟨.ok, rfl⟩
  | raised code s => exact ⟨code, rfl⟩

@[simp] theorem applyWrites_append (xs ys : List (Word × Byte)) (m : Memory) :
    applyWrites (xs ++ ys) m = applyWrites ys (applyWrites xs m) := by
  induction xs generalizing m with
  | nil => rfl
  | cons x xs ih => exact ih _

theorem applyWrites_wf {m : Memory} (h : m.wf) (ws : List (Word × Byte)) : (applyWrites ws m).wf := by
  induction ws generalizing m with
  | nil => exact h
  | cons w ws ih => exact ih (Memory.wf_writeWord h w.1 w.2)

/-- An address that no write names reads as before. -/
theorem applyWrites_read_other (m : Memory) (ws : List (Word × Byte)) (a : Nat)
    (ha : ∀ w ∈ ws, w.1.toNat ≠ a) : (applyWrites ws m).read a = m.read a := by
  induction ws generalizing m with
  | nil => rfl
  | cons w ws ih =>
    refine (ih _ fun v hv => ha v (by simp [hv])).trans ?_
    rw [Memory.read_write, if_neg (Ne.symm (ha w (by simp)))]

@[simp] theorem tracedWrites_nil : tracedWrites [] = [] := rfl

@[simp] theorem tracedWrites_append (xs ys : List Access) :
    tracedWrites (xs ++ ys) = tracedWrites ys ++ tracedWrites xs := by
  simp [tracedWrites, List.filterMap_append]

@[simp] theorem tracedWrites_read (a : Word) (b : Byte) : tracedWrites [⟨.read, a, b⟩] = [] := rfl
@[simp] theorem tracedWrites_write (a : Word) (b : Byte) : tracedWrites [⟨.write, a, b⟩] = [(a, b)] := rfl

theorem mem_tracedWrites {xs : List Access} {w : Word × Byte} (h : w ∈ tracedWrites xs) :
    ⟨.write, w.1, w.2⟩ ∈ xs := by
  simp only [tracedWrites, List.mem_filterMap, List.mem_reverse] at h
  obtain ⟨⟨k, a, b⟩, hx, hw⟩ := h
  cases k with
  | read => cases hw
  | write => cases hw; exact hx

/-- What a run of the engine inside a command can do between two of its states, where each access it makes is one `A`
allows: buffer accesses that the platform admits, and internal registers. Nothing else changes. -/
structure BusRun (A : AccessKind → Word → Prop) (s t : State) : Prop where
  regs : t.regs = s.regs
  platform : t.platform = s.platform
  latency : t.latency = s.latency
  countdown : t.countdown = s.countdown
  owned : t.owned = s.owned
  script : t.script = s.script
  rdata : t.rdata = s.rdata
  draws : t.draws = s.draws
  accesses : ∃ xs : List Access, t.trace = xs ++ s.trace ∧ t.mem = applyWrites (tracedWrites xs) s.mem ∧
    t.internal.nwr = s.internal.nwr + BitVec.ofNat 32 (tracedWrites xs).length ∧
    ∀ x ∈ xs, memAdmit s.platform x.kind x.addr = true ∧ A x.kind x.addr

theorem BusRun.of_internal {A : AccessKind → Word → Prop} {s t : State} (ht : t = { s with internal := t.internal })
    (hn : t.internal.nwr = s.internal.nwr) : BusRun A s t := by
  rw [ht]
  exact ⟨rfl, rfl, rfl, rfl, rfl, rfl, rfl, rfl, [], by simp [applyWrites, hn]⟩

theorem BusRun.refl (A : AccessKind → Word → Prop) (s : State) : BusRun A s s := .of_internal rfl rfl
theorem BusRun.setRk (A : AccessKind → Word → Prop) (v : List Column) (s : State) : BusRun A s (setRk v s) :=
  .of_internal rfl rfl
theorem BusRun.setChain (A : AccessKind → Word → Prop) (v : Block) (s : State) : BusRun A s (setChain v s) :=
  .of_internal rfl rfl
theorem BusRun.setCtrv (A : AccessKind → Word → Prop) (v : Block) (s : State) : BusRun A s (setCtrv v s) :=
  .of_internal rfl rfl
theorem BusRun.setBlk (A : AccessKind → Word → Prop) (v : Block) (s : State) : BusRun A s (setBlk v s) :=
  .of_internal rfl rfl
theorem BusRun.loadSchedule (A : AccessKind → Word → Prop) (s : State) : BusRun A s (loadSchedule s) :=
  .of_internal rfl rfl

theorem BusRun.trans {A : AccessKind → Word → Prop} {s t u : State} (h : BusRun A s t) (h' : BusRun A t u) :
    BusRun A s u := by
  obtain ⟨xs, hx, hm, hn, ha⟩ := h.accesses
  obtain ⟨ys, hy, hm', hn', ha'⟩ := h'.accesses
  refine ⟨h'.regs.trans h.regs, h'.platform.trans h.platform, h'.latency.trans h.latency,
    h'.countdown.trans h.countdown, h'.owned.trans h.owned, h'.script.trans h.script, h'.rdata.trans h.rdata,
    h'.draws.trans h.draws, ys ++ xs, ?_, ?_, ?_, ?_⟩
  · rw [hy, hx, List.append_assoc]
  · rw [hm', hm, tracedWrites_append, applyWrites_append]
  · rw [hn', hn, tracedWrites_append, List.length_append, BitVec.ofNat_add, BitVec.add_assoc]
  · intro x hxx
    rcases List.mem_append.1 hxx with hxx | hxx
    · exact h.platform ▸ ha' x hxx
    · exact ha x hxx

theorem BusRun.andThen {A : AccessKind → Word → Prop} {s : State} {α β : Type} {r : Run α} {k : α → State → Run β}
    (h : BusRun A s r.state) (hk : ∀ v t, r = .done v t → BusRun A t (k v t).state) :
    BusRun A s (r.andThen k).state := by
  cases r with
  | done v t => exact h.trans (hk v t rfl)
  | raised code t => exact h

theorem BusRun.mem_wf {A : AccessKind → Word → Prop} {s t : State} (h : BusRun A s t) (hs : s.mem.wf) : t.mem.wf := by
  obtain ⟨xs, -, hm, -⟩ := h.accesses
  exact hm ▸ applyWrites_wf hs _

theorem busRead_run {A : AccessKind → Word → Prop} {a : Word} (ha : A .read a) (s : State) :
    BusRun A s (busRead a s).state := by
  unfold busRead
  split
  · next h =>
    exact ⟨rfl, rfl, rfl, rfl, rfl, rfl, rfl, rfl, [_], rfl, rfl, by simp, by simp [h, ha]⟩
  · exact .refl A s

theorem busWrite_run {A : AccessKind → Word → Prop} {a : Word} (ha : A .write a) (b : Byte) (s : State) :
    BusRun A s (busWrite a b s).state := by
  unfold busWrite
  split
  · next h =>
    exact ⟨rfl, rfl, rfl, rfl, rfl, rfl, rfl, rfl, [⟨.write, a, b⟩], rfl, rfl, by simp, by simp [h, ha]⟩
  · exact .refl A s

theorem memRead_run {A : AccessKind → Word → Prop} (n : Nat) (a : Word)
    (ha : ∀ k < n, A .read (a + BitVec.ofNat 32 k)) (s : State) : BusRun A s (memRead n a s).state := by
  induction n generalizing a s with
  | zero => exact .refl A s
  | succ n ih =>
    refine (busRead_run (by simpa using ha 0 (by omega)) s).andThen fun b t _ => ?_
    refine (ih (a + 1) (fun k hk => ?_) t).andThen fun bs u _ => .refl A u
    have := ha (k + 1) (by omega)
    rwa [Nat.add_comm k 1, BitVec.ofNat_add, ← BitVec.add_assoc] at this

theorem memWrite_run {A : AccessKind → Word → Prop} (bs : List Byte) (a : Word)
    (ha : ∀ k < bs.length, A .write (a + BitVec.ofNat 32 k)) (s : State) : BusRun A s (memWrite bs a s).state := by
  induction bs generalizing a s with
  | nil => exact .refl A s
  | cons b bs ih =>
    refine (busWrite_run (by simpa using ha 0 (by simp)) b s).andThen fun _ t _ => ?_
    refine ih (a + 1) (fun k hk => ?_) t
    have := ha (k + 1) (by simpa using hk)
    rwa [Nat.add_comm k 1, BitVec.ofNat_add, ← BitVec.add_assoc] at this

/-- An admitted read of `n` bytes returns memory's bytes and leaves memory and the internal registers alone. -/
theorem memRead_admitted (n : Nat) (a : Word) (s : State)
    (ha : ∀ k < n, memAdmit s.platform .read (a + BitVec.ofNat 32 k) = true) :
    ∃ xs, memRead n a s = .done (Memory.readBytes n a s.mem) { s with trace := xs ++ s.trace } := by
  induction n generalizing a s with
  | zero => exact ⟨[], rfl⟩
  | succ n ih =>
    have h0 : memAdmit s.platform .read a = true := by simpa using ha 0 (by omega)
    obtain ⟨xs, hxs⟩ := ih (a + 1) (traceAccess ⟨.read, a, s.mem.read a.toNat⟩ s) fun k hk => by
      have := ha (k + 1) (by omega)
      rwa [Nat.add_comm k 1, BitVec.ofNat_add, ← BitVec.add_assoc] at this
    refine ⟨xs ++ [⟨.read, a, s.mem.read a.toNat⟩], ?_⟩
    simp only [memRead, busRead, h0, if_true, Run.done_andThen, hxs]
    simp [Memory.readBytes, traceAccess]

/-- An admitted write of a byte sequence writes it all and counts it. -/
theorem memWrite_admitted (bs : List Byte) (a : Word) (s : State)
    (ha : ∀ k < bs.length, memAdmit s.platform .write (a + BitVec.ofNat 32 k) = true) :
    ∃ xs, memWrite bs a s = .done () { s with
      mem := Memory.writeBytes bs a s.mem
      internal := { s.internal with nwr := s.internal.nwr + BitVec.ofNat 32 bs.length }
      trace := xs ++ s.trace } := by
  induction bs generalizing a s with
  | nil => exact ⟨[], by simp [memWrite, Memory.writeBytes]⟩
  | cons b bs ih =>
    have h0 : memAdmit s.platform .write a = true := by simpa using ha 0 (by simp)
    obtain ⟨xs, hxs⟩ := ih (a + 1) (storeByte a b (traceAccess ⟨.write, a, b⟩ s)) fun k hk => by
      have := ha (k + 1) (by simpa using hk)
      rwa [Nat.add_comm k 1, BitVec.ofNat_add, ← BitVec.add_assoc] at this
    refine ⟨xs ++ [⟨.write, a, b⟩], ?_⟩
    simp only [memWrite, busWrite, h0, if_true, Run.done_andThen, hxs]
    simp [Memory.writeBytes, storeByte, traceAccess, Nat.add_comm bs.length 1, BitVec.ofNat_add, BitVec.add_assoc]

end Sys2Proof.Machine
end

