-- ==== Sys2Proof/Laws/Modes.lean ====
section
/-!
SUPPORT. What the mode commands and every other command can do, said once each: the accesses they may make, and the form
of every completion.
-/

namespace Sys2Proof.Machine

/-- Offset `k` from an address, modulo 2^32. -/
abbrev offsetFrom (a : Word) (k : Nat) : Word := a + BitVec.ofNat 32 k

/-- The accesses a command may make: an ECB or CBC command reads inside `[SRC, SRC+LEN)` and writes inside
`[DST, DST+CAP)`, `CTR` does both inside `[SRC, SRC+LEN)`, and no other command makes one (20_memory.md R66). -/
def allowedAccess (i : Instr) (r : Regs) (kind : AccessKind) (a : Word) : Prop :=
  match i with
  | .ecbEnc _ | .ecbDec _ | .cbcEnc _ _ | .cbcDec _ _ =>
    match kind with
    | .read => ∃ k < dataLength r, a = offsetFrom r.src k
    | .write => ∃ k < capacity r, a = offsetFrom r.dst k
  | .ctr => ∃ k < dataLength r, a = offsetFrom r.src k
  | .gfDouble | .gfMul | .subBytes | .invSubBytes | .shiftRows | .invShiftRows | .mixColumns | .invMixColumns
  | .addRoundKey _ | .keyExpand _ | .encBlock | .decBlock => False

/-- Reads inside the source, writes inside the destination. -/
def ecbCbcAccess (r : Regs) (kind : AccessKind) (a : Word) : Prop :=
  match kind with
  | .read => ∃ k < dataLength r, a = offsetFrom r.src k
  | .write => ∃ k < capacity r, a = offsetFrom r.dst k

/-- Reads and writes inside the source. -/
def ctrAccess (r : Regs) (_ : AccessKind) (a : Word) : Prop := ∃ k < dataLength r, a = offsetFrom r.src k

theorem offsetFrom_block (a : Word) (j k : Nat) :
    a + BitVec.ofNat 32 (16 * j) + BitVec.ofNat 32 k = offsetFrom a (16 * j + k) := by
  rw [offsetFrom, BitVec.ofNat_add, BitVec.add_assoc]

@[simp] theorem blockBytes_length (s : Block) : (blockBytes s).length = 16 := rfl

theorem encryptCheck_none {pad : Bool} {r : Regs} (h : encryptCheck pad r = none) :
    keySizeOk r = true ∧ outSize pad r ≤ capacity r ∧ outSize pad r % 16 = 0 := by
  unfold encryptCheck at h
  split at h
  · cases h
  · next h1 =>
    split at h
    · cases h
    · next h2 =>
      split at h
      · cases h
      · next h3 =>
        refine ⟨by simpa using h2, by simpa using h3, ?_⟩
        cases pad <;> simp [outSize] at h1 ⊢ <;> omega

theorem decryptCheck_none {pad : Bool} {r : Regs} (h : decryptCheck pad r = none) :
    keySizeOk r = true ∧ dataLength r % 16 = 0 ∧ (pad = true → 0 < dataLength r) ∧
      (pad = false → dataLength r ≤ capacity r) ∧ (pad = true → dataLength r - 16 ≤ capacity r) := by
  unfold decryptCheck at h
  split at h
  · cases h
  · next h1 =>
    split at h
    · cases h
    · next h2 =>
      split at h
      · cases h
      · next h3 =>
        split at h
        · cases h
        · next h4 =>
          split at h
          · cases h
          · next h5 =>
            cases pad <;> simp at h1 h2 h3 h4 h5 ⊢
            · exact ⟨h3, h1, h4⟩
            · exact ⟨h3, h1, by omega, h5⟩

/-- A valid pad length is 1 to 16 (43_modes.md R176). -/
theorem padValid_bounds {p : Block} (h : padValid p = true) : 1 ≤ padLength p ∧ padLength p ≤ 16 := by
  simp only [padValid, Bool.and_eq_true, decide_eq_true_eq] at h
  exact h.1

theorem checked_run {A : AccessKind → Word → Prop} {check : Option ErrCode} {s : State} {k : State → Run Unit}
    (h : check = none → BusRun A s (k s).state) : BusRun A s (checked check s k).state := by
  cases check with
  | none => exact h rfl
  | some code => exact .refl A s

theorem readPlainBlock_run (j : Nat) (s : State) :
    BusRun (ecbCbcAccess s.regs) s (readPlainBlock j s).state := by
  refine (memRead_run _ _ (fun k hk => ⟨16 * j + k, ?_, ?_⟩) s).andThen fun data t _ => .setBlk _ _ t
  · simp only [blockDataLength] at hk; omega
  · exact offsetFrom_block ..

theorem memWrite_block_run {r : Regs} (j : Nat) (bs : List Byte) (hb : 16 * j + bs.length ≤ capacity r) (s : State) :
    BusRun (ecbCbcAccess r) s (memWrite bs (dstBlock r j) s).state :=
  memWrite_run _ _ (fun k hk => ⟨16 * j + k, by omega, offsetFrom_block ..⟩) s

theorem ecbEncBlocks_run (n j : Nat) (s : State) (h : 16 * (j + n) ≤ capacity s.regs) :
    BusRun (ecbCbcAccess s.regs) s (ecbEncBlocks n j s).state := by
  induction n generalizing j s with
  | zero => exact .refl _ s
  | succ n ih =>
    have hr := readPlainBlock_run j s
    refine hr.andThen fun _ t ht => ?_
    rw [ht] at hr
    have ht' : t.regs = s.regs := hr.regs
    rw [← ht'] at h ⊢
    have hw := memWrite_block_run (r := t.regs) j
      (blockBytes (cipher t.internal.rk t.internal.blk)) (by simp; omega)
      (setBlk (cipher t.internal.rk t.internal.blk) t)
    refine (BusRun.setBlk _ _ t).trans (hw.andThen fun _ u hu => ?_)
    rw [hu] at hw
    have hu' : u.regs = t.regs := hw.regs
    rw [← hu'] at h ⊢
    exact ih (j + 1) u (by omega)

theorem cbcEncBlocks_run (n j : Nat) (s : State) (h : 16 * (j + n) ≤ capacity s.regs) :
    BusRun (ecbCbcAccess s.regs) s (cbcEncBlocks n j s).state := by
  induction n generalizing j s with
  | zero => exact .refl _ s
  | succ n ih =>
    have hr := readPlainBlock_run j s
    refine hr.andThen fun _ t ht => ?_
    rw [ht] at hr
    have ht' : t.regs = s.regs := hr.regs
    rw [← ht'] at h ⊢
    have hw := memWrite_block_run (r := t.regs) j
      (blockBytes (cipher t.internal.rk (xorBlock t.internal.blk t.internal.chain))) (by simp; omega)
      (setBlk (cipher t.internal.rk (xorBlock t.internal.blk t.internal.chain)) t)
    refine (BusRun.setBlk _ _ t).trans (hw.andThen fun _ u hu => ?_)
    rw [hu] at hw
    have hu' : u.regs = t.regs := hw.regs
    rw [← hu'] at h ⊢
    exact (BusRun.setChain _ u.internal.blk u).trans (ih (j + 1) (setChain u.internal.blk u) (by simpa using by omega))

theorem writePlainBlock_run (unpad : Bool) (j : Nat) (s : State)
    (h : unpad = true → 16 * (j + 1) = dataLength s.regs) (h' : unpad = false → 16 * (j + 1) ≤ capacity s.regs) :
    BusRun (ecbCbcAccess s.regs) s (writePlainBlock unpad j s).state := by
  unfold writePlainBlock
  cases unpad with
  | false => exact memWrite_block_run j _ (by simpa using by have := h' rfl; omega) s
  | true =>
    simp only [if_true]
    split
    · exact .refl _ s
    · split
      · exact .refl _ s
      · next hv hc =>
        refine memWrite_block_run j _ ?_ s
        have := h rfl
        have hp := padValid_bounds (by simpa using hv)
        simp only [decide_eq_true_eq, not_lt] at hc
        simp only [List.length_take, blockBytes_length]
        omega

theorem ecbDecBlocks_run (pad : Bool) (n j : Nat) (s : State) (hl : 16 * (j + n) = dataLength s.regs)
    (h : pad = false → 16 * (j + n) ≤ capacity s.regs) (h' : pad = true → 16 * (j + n) ≤ capacity s.regs + 16) :
    BusRun (ecbCbcAccess s.regs) s (ecbDecBlocks pad n j s).state := by
  induction n generalizing j s with
  | zero => exact .refl _ s
  | succ n ih =>
    have hr := memRead_run (A := ecbCbcAccess s.regs) 16 (srcBlock s.regs j)
      (fun k hk => ⟨16 * j + k, by omega, offsetFrom_block ..⟩) s
    refine hr.andThen fun c t ht => ?_
    rw [ht] at hr
    have ht' : t.regs = s.regs := hr.regs
    rw [← ht'] at hl h h' ⊢
    have hw := writePlainBlock_run (pad && n == 0) j (setBlk (invCipher t.internal.rk (blockOfBytes c)) t)
      (by simp; intro _ hn; subst hn; exact hl)
      (by
        simp only [setBlk_regs, Bool.and_eq_false_iff, beq_eq_false_iff_ne]
        rintro (hp | hn)
        · have := h hp; omega
        · cases hp : pad
          · have := h hp; omega
          · have := h' hp; omega)
    refine (BusRun.setBlk _ _ t).trans (hw.andThen fun _ u hu => ?_)
    rw [hu] at hw
    have hu' : u.regs = t.regs := hw.regs
    simp only [setBlk_regs]
    rw [← hu'] at hl h h' ⊢
    exact ih (j + 1) u (by omega) (fun hp => by have := h hp; omega) (fun hp => by have := h' hp; omega)

theorem cbcDecBlocks_run (pad : Bool) (n j : Nat) (s : State) (hl : 16 * (j + n) = dataLength s.regs)
    (h : pad = false → 16 * (j + n) ≤ capacity s.regs) (h' : pad = true → 16 * (j + n) ≤ capacity s.regs + 16) :
    BusRun (ecbCbcAccess s.regs) s (cbcDecBlocks pad n j s).state := by
  induction n generalizing j s with
  | zero => exact .refl _ s
  | succ n ih =>
    have hr := memRead_run (A := ecbCbcAccess s.regs) 16 (srcBlock s.regs j)
      (fun k hk => ⟨16 * j + k, by omega, offsetFrom_block ..⟩) s
    refine hr.andThen fun c t ht => ?_
    rw [ht] at hr
    have ht' : t.regs = s.regs := hr.regs
    rw [← ht'] at hl h h' ⊢
    have hw := writePlainBlock_run (pad && n == 0) j
      (setChain (blockOfBytes c)
        (setBlk (xorBlock (invCipher t.internal.rk (blockOfBytes c)) t.internal.chain) t))
      (by simp; intro _ hn; subst hn; exact hl)
      (by
        simp only [setChain_regs, setBlk_regs, Bool.and_eq_false_iff, beq_eq_false_iff_ne]
        rintro (hp | hn)
        · have := h hp; omega
        · cases hp : pad
          · have := h hp; omega
          · have := h' hp; omega)
    refine (BusRun.setBlk _ _ t).trans ((BusRun.setChain _ _ _).trans (hw.andThen fun _ u hu => ?_))
    rw [hu] at hw
    have hu' : u.regs = t.regs := hw.regs
    simp only [setChain_regs, setBlk_regs]
    rw [← hu'] at hl h h' ⊢
    exact ih (j + 1) u (by omega) (fun hp => by have := h hp; omega) (fun hp => by have := h' hp; omega)

theorem ctrBytes_run {A : AccessKind → Word → Prop} (ks : List Byte) (a : Word)
    (ha : ∀ kind, ∀ k < ks.length, A kind (a + BitVec.ofNat 32 k)) (s : State) :
    BusRun A s (ctrBytes ks a s).state := by
  induction ks generalizing a s with
  | nil => exact .refl A s
  | cons b ks ih =>
    refine (busRead_run (by simpa using ha .read 0 (by simp)) s).andThen fun v t _ => ?_
    refine (busWrite_run (by simpa using ha .write 0 (by simp)) _ t).andThen fun _ u _ => ?_
    refine ih (a + 1) (fun kind k hk => ?_) u
    have := ha kind (k + 1) (by simpa using hk)
    rwa [Nat.add_comm k 1, BitVec.ofNat_add, ← BitVec.add_assoc] at this

theorem ctrBlocks_run (n j : Nat) (s : State) : BusRun (ctrAccess s.regs) s (ctrBlocks n j s).state := by
  induction n generalizing j s with
  | zero => exact .refl _ s
  | succ n ih =>
    have hb := ctrBytes_run (A := ctrAccess s.regs)
      ((blockBytes (cipher s.internal.rk s.internal.ctrv)).take (blockDataLength (dataLength s.regs) j))
      (srcBlock s.regs j)
      (fun _ k hk => ⟨16 * j + k, by simp [blockDataLength] at hk; omega, offsetFrom_block ..⟩)
      (setBlk (cipher s.internal.rk s.internal.ctrv) s)
    refine (BusRun.setBlk _ _ s).trans (hb.andThen fun _ u hu => ?_)
    rw [hu] at hb
    have hu' : u.regs = s.regs := hb.regs
    rw [← hu']
    exact (BusRun.setCtrv _ _ u).trans (ih (j + 1) (setCtrv (incrementCounter u.internal.ctrv) u))

/-- The form of every command's outcome: a completion of a state reached by allowed accesses, in which `STATE` or `GFRES`
may have taken a result. -/
theorem exec_inversion (i : Instr) (s : State) :
    ∃ (code : ErrCode) (u : State) (state : Block) (gfres : Byte),
      exec i s = .next (complete code { u with regs := { u.regs with state := state, gfres := gfres } }) ∧
      BusRun (allowedAccess i s.regs) s u := by
  have same : ∀ (r : Run Unit), BusRun (allowedAccess i s.regs) s r.state → ∃ (code : ErrCode) (u : State) (state : Block)
      (gfres : Byte), finish r = .next (complete code { u with regs := { u.regs with state := state, gfres := gfres } }) ∧
      BusRun (allowedAccess i s.regs) s u := fun r hr => by
    obtain ⟨code, hc⟩ := finish_eq_next r
    exact ⟨code, r.state, r.state.regs.state, r.state.regs.gfres, hc, hr⟩
  have keyed : ∀ (check : Option ErrCode) (f : State → Block), ∃ (code : ErrCode) (u : State) (state : Block)
      (gfres : Byte), finish (checked check s fun s => .done () (setState (f (loadSchedule s)) (loadSchedule s))) =
        .next (complete code { u with regs := { u.regs with state := state, gfres := gfres } }) ∧
      BusRun (allowedAccess i s.regs) s u := fun check f => by
    cases check with
    | some code => exact ⟨code, s, s.regs.state, s.regs.gfres, rfl, .refl _ s⟩
    | none => exact ⟨.ok, loadSchedule s, f (loadSchedule s), s.regs.gfres, rfl, .loadSchedule _ s⟩
  cases i with
  | gfDouble => exact ⟨.ok, s, s.regs.state, _, rfl, .refl _ s⟩
  | gfMul => exact ⟨.ok, s, s.regs.state, _, rfl, .refl _ s⟩
  | subBytes => exact ⟨.ok, s, _, s.regs.gfres, rfl, .refl _ s⟩
  | invSubBytes => exact ⟨.ok, s, _, s.regs.gfres, rfl, .refl _ s⟩
  | shiftRows => exact ⟨.ok, s, _, s.regs.gfres, rfl, .refl _ s⟩
  | invShiftRows => exact ⟨.ok, s, _, s.regs.gfres, rfl, .refl _ s⟩
  | mixColumns => exact ⟨.ok, s, _, s.regs.gfres, rfl, .refl _ s⟩
  | invMixColumns => exact ⟨.ok, s, _, s.regs.gfres, rfl, .refl _ s⟩
  | addRoundKey k => exact keyed (roundKeyCheck k s.regs) fun s => addRoundKey s.regs.state (roundKey s.internal.rk k)
  | keyExpand k => exact keyed (roundKeyCheck k s.regs) fun s => roundKey s.internal.rk k
  | encBlock => exact keyed (keyCheck s.regs) fun s => cipher s.internal.rk s.regs.state
  | decBlock => exact keyed (keyCheck s.regs) fun s => invCipher s.internal.rk s.regs.state
  | ecbEnc pad =>
    refine same _ (checked_run fun h => (BusRun.loadSchedule _ s).trans ?_)
    obtain ⟨-, hc, hm⟩ := encryptCheck_none h
    exact ecbEncBlocks_run _ 0 (loadSchedule s) (by simpa using by omega)
  | cbcEnc pad iven =>
    refine same _ (checked_run fun h => (BusRun.loadSchedule _ s).trans ((BusRun.setChain _ (initialChain iven s.regs) _).trans ?_))
    obtain ⟨-, hc, hm⟩ := encryptCheck_none h
    exact cbcEncBlocks_run _ 0 (setChain _ (loadSchedule s)) (by simpa using by omega)
  | ecbDec pad =>
    refine same _ (checked_run fun h => (BusRun.loadSchedule _ s).trans ?_)
    obtain ⟨-, hm, hp, hf, ht⟩ := decryptCheck_none h
    exact ecbDecBlocks_run pad _ 0 (loadSchedule s) (by simpa using by omega)
      (fun h => by have := hf h; simpa using by omega) (fun h => by have := ht h; simpa using by omega)
  | cbcDec pad iven =>
    refine same _ (checked_run fun h => (BusRun.loadSchedule _ s).trans ((BusRun.setChain _ (initialChain iven s.regs) _).trans ?_))
    obtain ⟨-, hm, hp, hf, ht⟩ := decryptCheck_none h
    exact cbcDecBlocks_run pad _ 0 (setChain _ (loadSchedule s)) (by simpa using by omega)
      (fun h => by have := hf h; simpa using by omega) (fun h => by have := ht h; simpa using by omega)
  | ctr =>
    refine same _ (checked_run fun h => (BusRun.loadSchedule _ s).trans ((BusRun.setCtrv _ (initialCounter s.regs) _).trans ?_))
    exact ctrBlocks_run _ 0 (setCtrv _ (loadSchedule s))

end Sys2Proof.Machine
end

