-- ==== Sys2Proof/Laws/Outside.lean ====
section
/-!
SUPPORT. No command reads what lies outside the engine: the latency schedule, the countdown, the ownership, the host's
script and read data, and the draw counter. Changing them before a command is changing them after it.
-/

namespace Sys2Proof.Machine

/-- `s` with everything outside the engine and its platform taken from `o`. -/
def outside (o s : State) : State :=
  { s with
    latency := o.latency, countdown := o.countdown, owned := o.owned, script := o.script, rdata := o.rdata,
    draws := o.draws }

/-- A function applied to the state of a run. -/
def Run.mapState {α : Type} (f : State → State) : Run α → Run α
  | .done v s => .done v (f s)
  | .raised code s => .raised code (f s)

@[simp] theorem outside_regs (o s : State) : (outside o s).regs = s.regs := rfl
@[simp] theorem outside_internal (o s : State) : (outside o s).internal = s.internal := rfl
@[simp] theorem outside_mem (o s : State) : (outside o s).mem = s.mem := rfl
@[simp] theorem outside_platform (o s : State) : (outside o s).platform = s.platform := rfl
@[simp] theorem outside_trace (o s : State) : (outside o s).trace = s.trace := rfl
@[simp] theorem outside_setBlk (o s : State) (v : Block) : setBlk v (outside o s) = outside o (setBlk v s) := rfl
@[simp] theorem outside_setChain (o s : State) (v : Block) : setChain v (outside o s) = outside o (setChain v s) := rfl
@[simp] theorem outside_setCtrv (o s : State) (v : Block) : setCtrv v (outside o s) = outside o (setCtrv v s) := rfl
@[simp] theorem outside_setState (o s : State) (v : Block) : setState v (outside o s) = outside o (setState v s) := rfl
@[simp] theorem outside_loadSchedule (o s : State) : loadSchedule (outside o s) = outside o (loadSchedule s) := rfl

theorem Run.mapState_andThen {α β : Type} {f : State → State} {k : α → State → Run β} (r : Run α)
    (h : ∀ v s, k v (f s) = (k v s).mapState f) : (r.mapState f).andThen k = (r.andThen k).mapState f := by
  cases r with
  | done v s => exact h v s
  | raised code s => rfl

theorem busRead_outside (o : State) (a : Word) (s : State) :
    busRead a (outside o s) = (busRead a s).mapState (outside o) := by
  unfold busRead
  by_cases h : memAdmit s.platform .read a = true
  · rw [if_pos h, if_pos (show memAdmit (outside o s).platform .read a = true from h)]; rfl
  · rw [if_neg h, if_neg (show ¬ memAdmit (outside o s).platform .read a = true from h)]; rfl

theorem busWrite_outside (o : State) (a : Word) (b : Byte) (s : State) :
    busWrite a b (outside o s) = (busWrite a b s).mapState (outside o) := by
  unfold busWrite
  by_cases h : memAdmit s.platform .write a = true
  · rw [if_pos h, if_pos (show memAdmit (outside o s).platform .write a = true from h)]; rfl
  · rw [if_neg h, if_neg (show ¬ memAdmit (outside o s).platform .write a = true from h)]; rfl

theorem memRead_outside (o : State) (n : Nat) (a : Word) (s : State) :
    memRead n a (outside o s) = (memRead n a s).mapState (outside o) := by
  induction n generalizing a s with
  | zero => rfl
  | succ n ih =>
    simp only [memRead, busRead_outside]
    exact Run.mapState_andThen _ fun b t => by rw [ih]; exact Run.mapState_andThen _ fun _ _ => rfl

theorem memWrite_outside (o : State) (bs : List Byte) (a : Word) (s : State) :
    memWrite bs a (outside o s) = (memWrite bs a s).mapState (outside o) := by
  induction bs generalizing a s with
  | nil => rfl
  | cons b bs ih =>
    simp only [memWrite, busWrite_outside]
    exact Run.mapState_andThen _ fun _ t => ih _ t

theorem readPlainBlock_outside (o : State) (j : Nat) (s : State) :
    readPlainBlock j (outside o s) = (readPlainBlock j s).mapState (outside o) := by
  simp only [readPlainBlock, memRead_outside, outside_regs]
  exact Run.mapState_andThen _ fun _ _ => rfl

theorem writePlainBlock_outside (o : State) (unpad : Bool) (j : Nat) (s : State) :
    writePlainBlock unpad j (outside o s) = (writePlainBlock unpad j s).mapState (outside o) := by
  cases unpad with
  | false => exact memWrite_outside o _ _ s
  | true =>
    by_cases hv : (!padValid s.internal.blk) = true
    · simp only [writePlainBlock, outside_internal, hv, if_true]; rfl
    · by_cases hc : dataLength s.regs - padLength s.internal.blk > capacity s.regs
      · simp only [writePlainBlock, outside_internal, outside_regs, hv, hc, decide_true, if_true]; rfl
      · simp only [writePlainBlock, outside_internal, outside_regs, hv, hc, decide_false, if_true]
        exact memWrite_outside o _ _ s

theorem ecbEncBlocks_outside (o : State) (n j : Nat) (s : State) :
    ecbEncBlocks n j (outside o s) = (ecbEncBlocks n j s).mapState (outside o) := by
  induction n generalizing j s with
  | zero => rfl
  | succ n ih =>
    simp only [ecbEncBlocks, readPlainBlock_outside]
    refine Run.mapState_andThen _ fun _ t => ?_
    simp only [outside_setBlk, memWrite_outside, outside_regs, outside_internal]
    exact Run.mapState_andThen _ fun _ u => ih _ u

theorem cbcEncBlocks_outside (o : State) (n j : Nat) (s : State) :
    cbcEncBlocks n j (outside o s) = (cbcEncBlocks n j s).mapState (outside o) := by
  induction n generalizing j s with
  | zero => rfl
  | succ n ih =>
    simp only [cbcEncBlocks, readPlainBlock_outside]
    refine Run.mapState_andThen _ fun _ t => ?_
    simp only [outside_setBlk, memWrite_outside, outside_regs, outside_internal]
    exact Run.mapState_andThen _ fun _ u => by
      simp only [outside_internal, outside_setChain]
      exact ih _ _

theorem ecbDecBlocks_outside (o : State) (pad : Bool) (n j : Nat) (s : State) :
    ecbDecBlocks pad n j (outside o s) = (ecbDecBlocks pad n j s).mapState (outside o) := by
  induction n generalizing j s with
  | zero => rfl
  | succ n ih =>
    simp only [ecbDecBlocks, memRead_outside, outside_regs]
    refine Run.mapState_andThen _ fun _ t => ?_
    simp only [outside_setBlk, writePlainBlock_outside, outside_internal]
    exact Run.mapState_andThen _ fun _ u => ih _ u

theorem cbcDecBlocks_outside (o : State) (pad : Bool) (n j : Nat) (s : State) :
    cbcDecBlocks pad n j (outside o s) = (cbcDecBlocks pad n j s).mapState (outside o) := by
  induction n generalizing j s with
  | zero => rfl
  | succ n ih =>
    simp only [cbcDecBlocks, memRead_outside, outside_regs]
    refine Run.mapState_andThen _ fun _ t => ?_
    simp only [outside_setBlk, outside_setChain, writePlainBlock_outside, outside_internal]
    exact Run.mapState_andThen _ fun _ u => ih _ u

theorem ctrBytes_outside (o : State) (ks : List Byte) (a : Word) (s : State) :
    ctrBytes ks a (outside o s) = (ctrBytes ks a s).mapState (outside o) := by
  induction ks generalizing a s with
  | nil => rfl
  | cons k ks ih =>
    simp only [ctrBytes, busRead_outside]
    refine Run.mapState_andThen _ fun b t => ?_
    simp only [busWrite_outside]
    exact Run.mapState_andThen _ fun _ u => ih _ u

theorem ctrBlocks_outside (o : State) (n j : Nat) (s : State) :
    ctrBlocks n j (outside o s) = (ctrBlocks n j s).mapState (outside o) := by
  induction n generalizing j s with
  | zero => rfl
  | succ n ih =>
    simp only [ctrBlocks, outside_setBlk, outside_internal, outside_regs, ctrBytes_outside]
    exact Run.mapState_andThen _ fun _ u => by
      simp only [outside_internal, outside_setCtrv]
      exact ih _ _

theorem checked_outside (o : State) (check : Option ErrCode) (s : State) (k : State → Run Unit)
    (h : ∀ t, k (outside o t) = (k t).mapState (outside o)) :
    checked check (outside o s) k = (checked check s k).mapState (outside o) := by
  cases check with
  | none => exact h s
  | some code => rfl

theorem finish_outside (o : State) {r : Run Unit} {t : State} (h : finish r = .next t) :
    finish (r.mapState (outside o)) = .next (outside o t) := by
  cases r <;> cases h <;> rfl

/-- A command runs alike whatever lies outside the engine. -/
theorem exec_outside (o : State) {i : Instr} {s t : State} (h : exec i s = .next t) :
    exec i (outside o s) = .next (outside o t) := by
  have run : ∀ {r r' : Run Unit}, r' = r.mapState (outside o) → finish r = .next t → finish r' = .next (outside o t) :=
    fun hr hf => hr ▸ finish_outside o hf
  cases i with
  | gfDouble => cases h; rfl
  | gfMul => cases h; rfl
  | subBytes => cases h; rfl
  | invSubBytes => cases h; rfl
  | shiftRows => cases h; rfl
  | invShiftRows => cases h; rfl
  | mixColumns => cases h; rfl
  | invMixColumns => cases h; rfl
  | addRoundKey k => exact run (checked_outside o _ s _ fun _ => rfl) h
  | keyExpand k => exact run (checked_outside o _ s _ fun _ => rfl) h
  | encBlock => exact run (checked_outside o _ s _ fun _ => rfl) h
  | decBlock => exact run (checked_outside o _ s _ fun _ => rfl) h
  | ecbEnc pad => exact run (checked_outside o _ s _ fun t => ecbEncBlocks_outside o _ 0 (loadSchedule t)) h
  | ecbDec pad => exact run (checked_outside o _ s _ fun t => ecbDecBlocks_outside o pad _ 0 (loadSchedule t)) h
  | cbcEnc pad iven =>
    exact run (checked_outside o _ s _ fun t =>
      cbcEncBlocks_outside o _ 0 (setChain (initialChain iven t.regs) (loadSchedule t))) h
  | cbcDec pad iven =>
    exact run (checked_outside o _ s _ fun t =>
      cbcDecBlocks_outside o pad _ 0 (setChain (initialChain iven t.regs) (loadSchedule t))) h
  | ctr =>
    exact run (checked_outside o _ s _ fun t =>
      ctrBlocks_outside o _ 0 (setCtrv (initialCounter t.regs) (loadSchedule t))) h

end Sys2Proof.Machine
end

