-- ==== Sys2Proof/Laws/PerInstr.lean ====
section
/-!
SUPPORT. A fact about every command as syntax, one lemma a constructor: its encoding is a word of its own row of the
opcode table (30_encoding.md R82).
-/

namespace Sys2Proof.Laws.RowFits

/-- The command's row is in the table, and the word that encodes the command matches the row. -/
def Statement (i : Instr) : Prop :=
  i.wellFormed = true → i.row.mnemonic ∈ opcodeRows.map (·.mnemonic) ∧ i.row.spells (encode i) = true

theorem gfDouble : Statement .gfDouble := fun _ => by decide
theorem gfMul : Statement .gfMul := fun _ => by decide
theorem subBytes : Statement .subBytes := fun _ => by decide
theorem invSubBytes : Statement .invSubBytes := fun _ => by decide
theorem shiftRows : Statement .shiftRows := fun _ => by decide
theorem invShiftRows : Statement .invShiftRows := fun _ => by decide
theorem mixColumns : Statement .mixColumns := fun _ => by decide
theorem invMixColumns : Statement .invMixColumns := fun _ => by decide

theorem addRoundKey (k : Nat) : Statement (.addRoundKey k) := fun h => by
  have hk : k < 16 := by simpa [Instr.wellFormed] using h
  interval_cases k <;> decide

theorem keyExpand (k : Nat) : Statement (.keyExpand k) := fun h => by
  have hk : k < 16 := by simpa [Instr.wellFormed] using h
  interval_cases k <;> decide

theorem encBlock : Statement .encBlock := fun _ => by decide
theorem decBlock : Statement .decBlock := fun _ => by decide
theorem ecbEnc (pad : Bool) : Statement (.ecbEnc pad) := fun _ => by cases pad <;> decide
theorem ecbDec (pad : Bool) : Statement (.ecbDec pad) := fun _ => by cases pad <;> decide
theorem cbcEnc (pad iven : Bool) : Statement (.cbcEnc pad iven) := fun _ => by cases pad <;> cases iven <;> decide
theorem cbcDec (pad iven : Bool) : Statement (.cbcDec pad iven) := fun _ => by cases pad <;> cases iven <;> decide
theorem ctr : Statement .ctr := fun _ => by decide

end Sys2Proof.Laws.RowFits
end

