-- ==== Sys2Proof/Laws/Step.lean ====
section
/-!
SUPPORT. What a host action and a step can do, said once.
-/

namespace Sys2Proof.Machine

/-- A step is the completion of the command in flight, or the host's turn. -/
theorem step_cases (s : State) :
    (s.regs.status.busy = true ∧ s.countdown = 0 ∧ step s = runCommand s) ∨
    (s.regs.status.busy = true ∧ 0 < s.countdown ∧ step s = hostTurn { s with countdown := s.countdown - 1 }) ∨
    (s.regs.status.busy = false ∧ step s = hostTurn s) := by
  unfold step cycle
  cases hb : s.regs.status.busy with
  | false => exact .inr (.inr ⟨rfl, by simp⟩)
  | true =>
    by_cases hc : s.countdown = 0
    · exact .inl ⟨rfl, hc, by simp [hc]⟩
    · exact .inr (.inl ⟨rfl, by omega, by simp [hc]⟩)

/-- The command in flight runs, or its word is illegal. -/
theorem runCommand_cases (s : State) :
    (∃ i, decode s.regs.cmd = .ok i ∧ runCommand s = exec i s) ∨
    (∃ why, decode s.regs.cmd = .error why ∧ runCommand s = .next (complete .illegalCommand s)) := by
  unfold runCommand
  cases h : decode s.regs.cmd with
  | ok i => exact .inl ⟨i, rfl, rfl⟩
  | error why => exact .inr ⟨why, rfl, rfl⟩

/-- Running the command in flight always completes it, by a state that allowed accesses reach. -/
theorem runCommand_inversion (s : State) :
    ∃ (code : ErrCode) (u : State) (state : Block) (gfres : Byte),
      runCommand s = .next (complete code { u with regs := { u.regs with state := state, gfres := gfres } }) ∧
      BusRun (fun _ _ => True) s u := by
  rcases runCommand_cases s with ⟨i, -, h⟩ | ⟨why, -, h⟩
  · obtain ⟨code, u, state, gfres, he, hu⟩ := exec_inversion i s
    refine ⟨code, u, state, gfres, h.trans he, ?_⟩
    obtain ⟨xs, hx, hm, hn, ha⟩ := hu.accesses
    exact { hu with accesses := ⟨xs, hx, hm, hn, fun x hxx => ⟨(ha x hxx).1, trivial⟩⟩ }
  · exact ⟨.illegalCommand, s, s.regs.state, s.regs.gfres, h, .refl _ s⟩

/-- What a host write to the window does. -/
theorem writeWindow_cases (off : Nat) (v : Word) (s : State) :
    writeWindow off v s = s ∨
    (s.regs.status.busy = false ∧ regAt off = some .cmd ∧ writeWindow off v s = issue v s) ∨
    (s.regs.status.busy = false ∧ ∃ r, regAt off = some r ∧ writeWindow off v s = { s with regs := setReg s.regs v r }) := by
  unfold writeWindow
  cases hb : s.regs.status.busy with
  | true => exact .inl rfl
  | false =>
    cases hr : regAt off with
    | none => exact .inl rfl
    | some r => cases r <;> first | exact .inr (.inl ⟨rfl, rfl, rfl⟩) | exact .inr (.inr ⟨rfl, _, rfl, rfl⟩)

/-- What a host read of the window does: it moves the read data, a draw, or the ownership, and nothing else. -/
theorem readWindow_form (off : Nat) (s : State) :
    ∃ rdata draws owned, readWindow off s = { s with rdata := rdata, draws := draws, owned := owned } := by
  unfold readWindow
  cases hr : regAt off with
  | none => exact ⟨_, _, _, rfl⟩
  | some r =>
    cases r <;> first
      | exact ⟨_, _, _, rfl⟩
      | (dsimp only; split <;> exact ⟨_, _, _, rfl⟩)

/-- A register write keeps the status, the count of bytes written and the command word. -/
theorem setReg_frame (r : Regs) (v : Word) (x : Reg) :
    (setReg r v x).status = r.status ∧ (setReg r v x).outlen = r.outlen ∧ (setReg r v x).cmd = r.cmd ∧
      (setReg r v x).gfres = r.gfres := by
  cases x <;> exact ⟨rfl, rfl, rfl, rfl⟩

theorem assertReset_mem_wf {s : State} (h : s.mem.wf) : (assertReset s).mem.wf := by
  unfold assertReset
  split
  · exact applyWrites_wf h _
  · exact h

theorem assertReset_idle {s : State} (h : s.regs.status.busy = false) : assertReset s = resetEngine s := by
  simp [assertReset, h]

/-- A reset in flight leaves memory after a part of the write sequence, counted from its start. -/
theorem assertReset_busy {s : State} (h : s.regs.status.busy = true) :
    assertReset s = { resetEngine s with
      mem := applyWrites ((pendingWrites s).take (Config.freeLandedWrites s.draws)) s.mem
      draws := s.draws + 1 } := by
  simp [assertReset, h]

/-- What a host action that goes on does to the state. -/
theorem hostAct_cases {x : HostAct} {s t : State} (h : hostAct x s = .next t) :
    (∃ off v, t = writeWindow off v s) ∨ (∃ off, t = readWindow off s) ∨
    t = readStatus s ∨ t = { readStatus s with script := .wait :: s.script } ∨
    (∃ a bs, t = { s with mem := Memory.writeBytes bs a s.mem }) ∨
    (∃ a : Word, t = { s with rdata := (s.mem.read a.toNat).setWidth 32 }) ∨
    t = assertReset s ∨ t = s := by
  cases x with
  | writeReg addr size v =>
    simp only [hostAct] at h
    split at h
    · next off _ => exact .inl ⟨off, v, by cases h; rfl⟩
    · cases h
  | readReg addr size =>
    simp only [hostAct] at h
    split at h
    · next off _ => exact .inr (.inl ⟨off, by cases h; rfl⟩)
    · cases h
  | wait =>
    simp only [hostAct] at h
    split at h <;> cases h <;> tauto
  | writeMem addr bytes =>
    simp only [hostAct] at h
    split at h
    · cases h
    · cases h; exact .inr (.inr (.inr (.inr (.inl ⟨addr, bytes, rfl⟩))))
  | readMem addr =>
    simp only [hostAct] at h
    split at h
    · cases h
    · cases h; exact .inr (.inr (.inr (.inr (.inr (.inl ⟨addr, rfl⟩)))))
  | reset => cases h; tauto
  | idle => cases h; tauto

/-- The host's turn: nothing happens, or its next action does. -/
theorem hostTurn_cases (s : State) :
    (s.script = [] ∧ hostTurn s = .next s) ∨
    (∃ x xs, s.script = x :: xs ∧ hostTurn s = hostAct x { s with script := xs }) := by
  unfold hostTurn
  cases h : s.script with
  | nil => exact .inl ⟨rfl, rfl⟩
  | cons x xs => exact .inr ⟨x, xs, rfl, rfl⟩

/-- The word placed by `withFetchWord` is what the next step runs. -/
theorem step_withFetchWord (s : State) (nbits w : Nat) :
    step (s.withFetchWord nbits w) = runCommand (s.withFetchWord nbits w) := by
  simp [step, cycle, State.withFetchWord, fetchWord, statusIssued]

theorem reset_mem_wf : State.reset.mem.wf := by decide

end Sys2Proof.Machine
end

