-- ==== Sys2Proof/Tests/Slice0.lean ====
section
/-!
SUPPORT. Small checks of the model on values that the spec writes out, and for every obligation with hypotheses a state
that meets them. The expected values stand in 95_test_vectors.md or in the rule cited; none was taken from the model.
-/

namespace Sys2Proof.Tests

open Sys2Proof.Machine Sys2Proof.Reference

section

-- One theorem after the other: each kernel evaluation of a test would else wait in a thread of its own.
set_option Elab.async false

/-! ## Helpers -/

/-- A sequence of `len` bytes written as one hex number, first byte leftmost (00_scope.md R10). -/
def hex (len v : Nat) : List Byte := (List.range len).map fun k => BitVec.ofNat 8 (v / 256 ^ (len - 1 - k))

/-- The key `K128` of 95_test_vectors.md, 16 bytes long, and nothing else set. -/
def keyedRegs : Regs := { Regs.reset with keylen := 16, key := keyOfBytes (hex 16 0x000102030405060708090a0b0c0d0e0f) }

/-- The reset state with the given registers and memory bytes. -/
def machine (r : Regs) (m : List (Word × List Byte)) : Machine.State :=
  { State.reset with regs := r, mem := m.foldl (fun m p => Memory.writeBytes p.2 p.1 m) [] }

/-- The state after the step that runs a command word; the state itself if the step stops. -/
def after (w : Nat) (s : Machine.State) : Machine.State :=
  match step (s.withFetchWord 32 w) with
  | .next t => t
  | .fault _ | .refused _ => s

/-- `STATUS`, `OUTLEN` and `STATE` after a command on `STATE = v`, as the host reads them. -/
def stateResult (w : Nat) (r : Regs) (v : Nat) : Word × Word × List Byte :=
  let t := after w (machine { r with state := blockOfBytes (hex 16 v) } [])
  (statusWord t.regs.status, t.regs.outlen, blockBytes t.regs.state)

/-- `STATUS`, `OUTLEN` and `n` bytes of memory at `a` after a command. -/
def bufferResult (w : Nat) (r : Regs) (m : List (Word × List Byte)) (a : Word) (n : Nat) : Word × Word × List Byte :=
  let t := after w (machine r m)
  (statusWord t.regs.status, t.regs.outlen, Memory.readBytes n a t.mem)

/-- `keyedRegs` with `SRC = 0x1000`, `DST = 0x2000` and the given lengths. -/
def modeRegs (len cap : Word) : Regs := { keyedRegs with src := 0x1000, dst := 0x2000, len := len, cap := cap }

/-- `modeRegs` with `IV = 000102...0f`. -/
def ivRegs (len cap : Word) : Regs :=
  { modeRegs len cap with iv := blockOfBytes (hex 16 0x000102030405060708090a0b0c0d0e0f) }

/-- The plaintext block `PT` of 95_test_vectors.md. -/
def pt : List Byte := hex 16 0x00112233445566778899aabbccddeeff

/-! ## Well-formedness -/

theorem test_round_key_index_16_is_ill_formed : (Instr.addRoundKey 16).wellFormed = false := by decide
theorem test_key_expand_index_16_is_ill_formed : (Instr.keyExpand 16).wellFormed = false := by decide
theorem test_index_15_is_well_formed :
    (Instr.addRoundKey 15).wellFormed = true ∧ (Instr.keyExpand 15).wellFormed = true := by decide

/-! ## Decoding: words written out from 30_encoding.md R80, R81 and R87 -/

theorem test_decode_gf : decode 0b00000000000000000000000000000001 = .ok .gfDouble ∧
    decode 0b00000000000000000000000000000010 = .ok .gfMul := by decide +kernel

theorem test_decode_round_steps : decode 0b00000000000000000000000000010000 = .ok .subBytes ∧
    decode 0x00000011 = .ok .invSubBytes ∧ decode 0x00000012 = .ok .shiftRows ∧
    decode 0x00000013 = .ok .invShiftRows ∧ decode 0x00000014 = .ok .mixColumns ∧
    decode 0x00000015 = .ok .invMixColumns := by decide +kernel

/-- `RKIDX` is bits 15:12: 10 is `1010`, 14 is `1110`, 15 is `1111`. -/
theorem test_decode_round_key_index : decode 0b00000000000000001010000000010110 = .ok (.addRoundKey 10) ∧
    decode 0b00000000000000001110000000100000 = .ok (.keyExpand 14) ∧
    decode 0b00000000000000001111000000100000 = .ok (.keyExpand 15) := by decide +kernel

theorem test_decode_block : decode 0b00000000000000000000000000110000 = .ok .encBlock ∧
    decode 0b00000000000000000000000000110001 = .ok .decBlock := by decide +kernel

/-- `PAD` is bit 8, `IVEN` is bit 9. -/
theorem test_decode_modes : decode 0b00000000000000000000000101000000 = .ok (.ecbEnc true) ∧
    decode 0b00000000000000000000000001000001 = .ok (.ecbDec false) ∧
    decode 0b00000000000000000000001001000010 = .ok (.cbcEnc false true) ∧
    decode 0b00000000000000000000000101000011 = .ok (.cbcDec true false) ∧
    decode 0b00000000000000000000001101000011 = .ok (.cbcDec true true) ∧
    decode 0b00000000000000000000000001000100 = .ok .ctr := by decide +kernel

/-- The words of 95_test_vectors.md V-ILL that no `RKIDX` check comes into. -/
theorem test_illegal_words :
    ([0x00000000, 0x00000003, 0x000000FF, 0x00000101, 0x00000440, 0x00010040, 0x00000240, 0x00000844, 0x00000F16,
      0x80000042] : List Word).all (fun w => (decode w).toOption == none) = true := by decide +kernel

/-- 239 OP values are unassigned (30_encoding.md R85). -/
theorem test_unassigned_op_count :
    (List.range 256).countP (fun n => (decode (BitVec.ofNat 32 n)).toOption == none) = 239 := by decide +kernel

theorem test_encode_samples : encode (.ecbEnc true) = 0x00000140 ∧ encode (.cbcDec true true) = 0x00000343 ∧
    encode (.addRoundKey 10) = 0x0000A016 ∧ encode (.keyExpand 0) = 0x00000020 := by decide +kernel

/-- The spellings of 30_encoding.md R87. -/
theorem test_assembly_samples : (Instr.ecbEnc true).assembly = "ECB_ENC.P" ∧
    (Instr.cbcDec true true).assembly = "CBC_DEC.P.IV" ∧ (Instr.addRoundKey 10).assembly = "ADD_ROUND_KEY 10" := by
  decide +kernel

theorem test_table_word : decodeTableWord 32 0x00000343 = some (.cbcDec true true) ∧ decodeTableWord 32 0 = none := by
  decide +kernel

/-! ## GF commands: 95_test_vectors.md V-GF -/

theorem test_gf_double : (after 0x00000001 (machine { Regs.reset with gfop := 0x0057 } [])).regs.gfres = 0xae ∧
    (after 0x00000001 (machine { Regs.reset with gfop := 0x8380 } [])).regs.gfres = 0x1b := by decide +kernel

theorem test_gf_mul : (after 0x00000002 (machine { Regs.reset with gfop := 0x8357 } [])).regs.gfres = 0xc1 ∧
    (after 0x00000002 (machine { Regs.reset with gfop := 0x1357 } [])).regs.gfres = 0xfe ∧
    (after 0x00000002 (machine { Regs.reset with gfop := 0xffff } [])).regs.gfres = 0x13 := by decide +kernel

/-! ## Round steps: 42_round_transform.md R150 to R155, 95_test_vectors.md V-SB, V-SR, V-MC -/

theorem test_sub_bytes : stateResult 0x10 .reset 0x000102030405060708090a0b0c0d0e0f =
    (0x00000002, 0, hex 16 0x637c777bf26b6fc53001672bfed7ab76) := by decide +kernel
theorem test_inv_sub_bytes : stateResult 0x11 .reset 0x000102030405060708090a0b0c0d0e0f =
    (0x00000002, 0, hex 16 0x52096ad53036a538bf40a39e81f3d7fb) := by decide +kernel
theorem test_shift_rows : stateResult 0x12 .reset 0x000102030405060708090a0b0c0d0e0f =
    (0x00000002, 0, hex 16 0x00050a0f04090e03080d02070c01060b) := by decide +kernel
theorem test_inv_shift_rows : stateResult 0x13 .reset 0x000102030405060708090a0b0c0d0e0f =
    (0x00000002, 0, hex 16 0x000d0a0704010e0b0805020f0c090603) := by decide +kernel
theorem test_mix_columns : stateResult 0x14 .reset 0xdb135345f20a225c01010101c6c6c6c6 =
    (0x00000002, 0, hex 16 0x8e4da1bc9fdc589d01010101c6c6c6c6) := by decide +kernel
theorem test_mix_columns_all_bytes : stateResult 0x14 .reset 0x000102030405060708090a0b0c0d0e0f =
    (0x00000002, 0, hex 16 0x02070005060304010a0f080d0e0b0c09) := by decide +kernel
theorem test_inv_mix_columns : stateResult 0x15 .reset 0x8e4da1bc9fdc589d01010101c6c6c6c6 =
    (0x00000002, 0, hex 16 0xdb135345f20a225c01010101c6c6c6c6) := by decide +kernel

/-! ## Key schedule and keyed steps: 95_test_vectors.md V-KS, V-ILL -/

/-- `KSP` of 95_test_vectors.md. -/
def kspRegs : Regs := { keyedRegs with key := keyOfBytes (hex 16 0x2b7e151628aed2a6abf7158809cf4f3c) }

theorem test_key_expand : stateResult 0xa020 kspRegs 0 =
    (0x00000002, 0, hex 16 0xd014f9a8c9ee2589e13f0cc8b6630ca6) := by decide +kernel

/-- A 32-byte key has the second substitution of R115: `KEY_EXPAND 14` of FIPS-197 appendix A.3. -/
theorem test_key_expand_256 : stateResult 0xe020
    { Regs.reset with keylen := 32, key := keyOfBytes (hex 32 0x603deb1015ca71be2b73aef0857d77811f352c073b6108d72d9810a30914dff4) } 0 =
    (0x00000002, 0, hex 16 0xfe4890d1e6188d0b046df344706c631e) := by decide +kernel

theorem test_add_round_key : stateResult 0x0016 keyedRegs 0x00112233445566778899aabbccddeeff =
    (0x00000002, 0, hex 16 0x00102030405060708090a0b0c0d0e0f0) := by decide +kernel

/-- Index 11 exceeds `Nr = 10`; with a bad key size the key size is reported. -/
theorem test_add_round_key_index : stateResult 0xb016 keyedRegs 0x5a = (0x00000602, 0, hex 16 0x5a) ∧
    stateResult 0xf016 .reset 0x5a = (0x00000202, 0, hex 16 0x5a) := by decide +kernel

/-! ## Block commands: 95_test_vectors.md V-KAT-128, V-KAT-192, V-KAT-256 -/

theorem test_enc_block_192 : stateResult 0x30
    { Regs.reset with keylen := 24, key := keyOfBytes (hex 24 0x000102030405060708090a0b0c0d0e0f1011121314151617) }
    0x00112233445566778899aabbccddeeff = (0x00000002, 0, hex 16 0xdda97ca4864cdfe06eaf70a0ec0d7191) := by
  decide +kernel

theorem test_enc_block : stateResult 0x30 keyedRegs 0x00112233445566778899aabbccddeeff =
    (0x00000002, 0, hex 16 0x69c4e0d86a7b0430d8cdb78070b4c55a) := by decide +kernel

theorem test_dec_block : stateResult 0x31
    { Regs.reset with keylen := 32, key := keyOfBytes (hex 32 0x000102030405060708090a0b0c0d0e0f101112131415161718191a1b1c1d1e1f) }
    0x8ea2b7ca516745bfeafc49904b496089 = (0x00000002, 0, pt) := by decide +kernel

theorem test_dec_block_key_size : stateResult 0x31 .reset 0x5a = (0x00000202, 0, hex 16 0x5a) := by decide +kernel

/-! ## Mode commands: 95_test_vectors.md V-PADLEN, V-PADVALID, V-CBC-PAD16, V-CBC-1BLK, V-CTR-EDGE, V-BUSERR -/

theorem test_ecb_enc_pads_fifteen_bytes :
    bufferResult 0x140 (modeRegs 15 48) [(0x1000, hex 15 0x000102030405060708090a0b0c0d0e)] 0x2000 16 =
      (0x00000002, 16, hex 16 0xb61e6af8da7260d2214369b951bf8963) := by decide +kernel

/-- `V-BUSERR`: the write of `0x2014` is refused. -/
theorem test_ecb_enc_bus_error :
    let s := machine (modeRegs 32 32) [(0x1000, pt ++ pt), (0x2000, List.replicate 32 0xee)]
    let t := after 0x40 { s with platform := { s.platform with refusedWrites := [⟨0x2014, 1⟩] } }
    statusWord t.regs.status = 0x00000702 ∧ t.regs.outlen = 20 ∧
      Memory.readBytes 24 0x2000 t.mem = hex 24 0x69c4e0d86a7b0430d8cdb78070b4c55a69c4e0d8eeeeeeee := by decide +kernel

/-- `p = 1`: fifteen bytes come out. -/
theorem test_ecb_dec_unpads :
    bufferResult 0x141 (modeRegs 16 15) [(0x1000, hex 16 0xb61e6af8da7260d2214369b951bf8963), (0x2000, hex 16 0xee)]
      0x2000 16 = (0x00000002, 15, hex 16 0x000102030405060708090a0b0c0d0eee) := by decide +kernel

/-- `p = 0` in the second block: the first block stays written. -/
theorem test_ecb_dec_invalid_key :
    bufferResult 0x141 (modeRegs 32 32)
      [(0x1000, hex 32 0xfef1a8b625f0c43a7108b623a6fb90cabf70c038d511f2a8b528e06691c6d42d),
        (0x2000, List.replicate 32 0xee)] 0x2000 32 =
      (0x00000402, 16, List.replicate 16 0xa0 ++ List.replicate 16 0xee) := by decide +kernel

theorem test_cbc_enc_pads_and_chains :
    bufferResult 0x342 (ivRegs 16 32) [(0x1000, pt)] 0x2000 32 =
      (0x00000002, 32, hex 32 0x76d0627da1d290436e21a4af7fca94b7177c1fc94173d442e36ee79d7ca0e461) := by decide +kernel

theorem test_cbc_enc_capacity :
    bufferResult 0x342 (ivRegs 16 16) [(0x1000, pt), (0x2000, pt)] 0x2000 16 = (0x00000302, 0, pt) := by decide +kernel

/-- `V-CBC-1BLK`: a single block is XORed with the IV too. -/
theorem test_cbc_dec_one_block :
    bufferResult 0x243 (ivRegs 16 16) [(0x1000, hex 16 0x69c4e0d86a7b0430d8cdb78070b4c55a)] 0x2000 16 =
      (0x00000002, 16, hex 16 0x00102030405060708090a0b0c0d0e0f0) := by decide +kernel

theorem test_cbc_dec_unpads_in_place :
    bufferResult 0x343 { ivRegs 32 16 with dst := 0x1000 }
      [(0x1000, hex 32 0x76d0627da1d290436e21a4af7fca94b7177c1fc94173d442e36ee79d7ca0e461)] 0x1000 16 =
      (0x00000002, 16, pt) := by decide +kernel

/-- The counter wraps modulo 2^128 and the last keystream block is used in part. -/
theorem test_ctr_wraps :
    bufferResult 0x44 { modeRegs 20 0 with iv := blockOfBytes (List.replicate 16 0xff), noncelen := 16 }
      [(0x1000, List.replicate 21 0)] 0x1000 21 =
      (0x00000002, 20, hex 21 0x3c441f32ce07822364d7a2990e50bb13c6a13b3700) := by decide +kernel

theorem test_ctr_nonce_size :
    bufferResult 0x44 { modeRegs 16 0 with noncelen := 17 } [(0x1000, [0xee])] 0x1000 1 = (0x00000502, 0, [0xee]) := by decide +kernel

/-- The order of checks (V-SIZE): data size, key size, capacity. -/
theorem test_check_order :
    (bufferResult 0x40 { modeRegs 17 0 with keylen := 0 } [] 0 0).1 = 0x00000102 ∧
    (bufferResult 0x140 { modeRegs 17 0 with keylen := 0 } [] 0 0).1 = 0x00000202 ∧
    (bufferResult 0x140 (modeRegs 0xFFFFFFF0 0xFFFFFFFF) [] 0 0).1 = 0x00000302 ∧
    (bufferResult 0x141 (modeRegs 0 32) [] 0 0).1 = 0x00000102 ∧
    (bufferResult 0x41 (modeRegs 0 0) [] 0 0).1 = 0x00000002 := by decide +kernel

/-! ## The host and the register window -/

/-- The state after `n` steps from `s`; the state reached if one stops. -/
def runs : Nat → Machine.State → Machine.State
  | 0, s => s
  | n + 1, s => match step s with
    | .next t => runs n t
    | .fault _ | .refused _ => s

/-- A platform whose window is at `0x40000000`. -/
def board : Platform := ⟨0x40000000, false, [], []⟩

/-- The reset state on that platform with a host script and a latency for each command. -/
def hosted (script : List HostAct) (latency : List Nat) : Machine.State :=
  { State.reset with platform := board, script := script, latency := latency }

/-- `WR GFOP, 0xFFFF8357; RUN GF_MUL; RD GFRES` (V-GF) under a latency of 3. -/
theorem test_host_runs_gf_mul :
    let t := runs 8 (hosted (hostWr board .gfop 0xFFFF8357 ++ hostRun board .gfMul ++ hostRd board .gfres) [3])
    t.rdata = 0x000000c1 ∧ t.script = [] ∧ t.regs.gfop = 0x8357 ∧ t.regs.cmd = 0x00000002 := by decide +kernel

/-- `V-ILL`: an illegal word completes, and `CMD` keeps it. -/
theorem test_illegal_word_completes :
    let t := after 0x80000042 (machine keyedRegs [])
    statusWord t.regs.status = 0x00000602 ∧ t.regs.cmd = 0x80000042 ∧ t.regs.outlen = 0 := by decide +kernel

/-- Byte `4j` of `KEY` is in bits 7:0 of `KEYj` (10_state.md R23). -/
theorem test_key_lanes :
    let t := runs 2 (hosted (hostWrb board (fun j => .key (Fin.ofNat 8 j)) 0 [⟨0x00, 0x01, 0x02, 0x03⟩] ++
      hostRd board (.key 0)) [])
    t.rdata = 0x03020100 ∧ keyColumn t.regs.key 0 = ⟨0x00, 0x01, 0x02, 0x03⟩ := by decide +kernel

/-- A write while `BUSY = 1` is dropped (10_state.md R40; P6). -/
theorem test_busy_write_dropped :
    (runs 2 (hosted (hostCmd board .gfMul ++ hostWr board .keylen 24) [5])).regs.keylen = 0 := by decide +kernel

/-- The host touches a buffer the engine owns (20_memory.md R69). -/
theorem test_buffer_race :
    let s := runs 3 (hosted (hostWr board .src 0x1000 ++ hostWr board .len 1 ++ hostCmd board .ctr ++
      [.readMem 0x1000]) [5])
    step s = .fault (.hostRace 0x1000) := by rfl

/-- A reset does not end the engine's ownership; the host's read of `BUSY = 0` after it does (70_reset_and_hazards.md
R255). -/
theorem test_reset_keeps_ownership :
    let issue := hostWr board .src 0x1000 ++ hostWr board .len 1 ++ hostCmd board .ctr ++ [.reset]
    step (runs 4 (hosted (issue ++ [.readMem 0x1000]) [5])) = .fault (.hostRace 0x1000) ∧
      (runs 5 (hosted (issue ++ [.wait]) [5])).owned = [] := ⟨rfl, by decide +kernel⟩

/-- A byte nothing has written has its free power-on value, and keeps it over a reset (70_reset_and_hazards.md R251). -/
theorem test_unwritten_byte_is_free :
    State.reset.mem.read 0x1000 = Config.freePowerOnByte 0x1000 ∧
      (assertReset State.reset).mem.read 0x1000 = Config.freePowerOnByte 0x1000 := ⟨rfl, rfl⟩

/-- An idle read of `STATUS` after `INVALID_DATA_SIZE`: `DONE` in bit 1, `ERR` in bits 11:8 (V-SIZE). -/
theorem test_status_read :
    (runs 4 (hosted (hostWr board .len 17 ++ hostCmd board (.ecbEnc false) ++ [.readReg 0x40000004 .word]) [])).rdata =
      0x00000102 := by decide +kernel

/-- A halfword access is outside the interface (10_state.md R39). -/
theorem test_halfword_access_refused :
    step (hosted [.readReg 0x40000000 .halfword] []) = .refused (.outsideWindowInterface 0x40000000 .halfword) := by rfl

/-! ## Witnesses: for each obligation with hypotheses, a state and operands that meet them all -/

/-- Every command answers a next state, so a hypothesis that one does is met. -/
theorem some_next (i : Instr) (s : Machine.State) : ∃ t, exec i s = .next t :=
  let ⟨_, _, _, _, h, _⟩ := exec_inversion i s
  ⟨_, h⟩

/-- A platform that refuses nothing. -/
theorem open_admits {s : Machine.State} (h : s.platform = ⟨0, false, [], []⟩) (kind : AccessKind) (a : Word) :
    memAdmit s.platform kind a = true := by
  rw [h]; cases kind <;> rfl

theorem reads_open {s : Machine.State} (h : s.platform = ⟨0, false, [], []⟩) (a : Word) (n : Nat) :
    ReadsAdmitted s a n := fun _ _ => open_admits h _ _

theorem writes_open {s : Machine.State} (h : s.platform = ⟨0, false, [], []⟩) (a : Word) (n : Nat) :
    WritesAdmitted s a n := fun _ _ => open_admits h _ _

/-- A machine with lengths, disjoint buffers, an IV, a nonce of 16 bytes and some data. -/
def modeMachine (len cap : Word) : Machine.State :=
  machine { ivRegs len cap with noncelen := 16 } [(0x1000, pt), (0x2008, [0xee])]

theorem modeMachine_validKey (len cap : Word) : ValidKey (modeMachine len cap).regs := Or.inl rfl

theorem modeMachine_wf (len cap : Word) : (modeMachine len cap).mem.wf :=
  show (machine .reset [(0x1000, pt), (0x2008, [0xee])]).mem.wf by decide +kernel

theorem disjoint_16_32 : BuffersApart 0x1000 16 0x2000 32 := by unfold BuffersApart; decide +kernel

/-- A command word in flight that completes in the next step. -/
def inFlight (w : Nat) : Machine.State := (modeMachine 16 32).withFetchWord 32 w

/-- The machine busy for `n` more cycles, with a host action to come. -/
def busyHost (n : Nat) (x : HostAct) : Machine.State := { inFlight 0x44 with countdown := n, script := [x] }

/-- The idle machine with a host action to come. -/
def idleHost (x : HostAct) : Machine.State := { modeMachine 16 32 with script := [x] }

theorem witness_DecodeEncodeRoundTrip :
    (Instr.addRoundKey 15).wellFormed = true ∧ (Instr.cbcDec true true).wellFormed = true := by decide

theorem witness_EncodeDecodeRoundTrip : decode 0x0000F020 = .ok (.keyExpand 15) := by decide +kernel

theorem witness_LegalWordsMatchOneTableRow :
    decode 0x00000342 = .ok (.cbcEnc true true) ∧ (Instr.cbcEnc true true).row ∈ opcodeRows ∧
      (0x00000342 : Word) &&& (Instr.cbcEnc true true).row.mask = (Instr.cbcEnc true true).row.pattern := by
  decide +kernel

theorem witness_StepRunsDecodedCommand :
    (inFlight 0x0000F020).regs.status.busy = true ∧ (inFlight 0x0000F020).countdown = 0 ∧
      decode (inFlight 0x0000F020).regs.cmd = .ok (.keyExpand 15) ∧ decode 0x00000044 = .ok .ctr := by decide +kernel

theorem witness_IllegalCommandChangesOnlyStatus :
    ((inFlight 0x00000000).regs.status.busy = true ∧ (inFlight 0x00000000).countdown = 0 ∧
      decode (inFlight 0x00000000).regs.cmd = .error .unassignedOp ∧ (inFlight 0x00000000).internal.nwr = 0) ∧
    ValidKey (modeMachine 16 32).regs ∧ roundsOf (modeMachine 16 32).regs < 11 ∧
      (modeMachine 16 32).internal.nwr = 0 :=
  ⟨by decide +kernel, modeMachine_validKey 16 32, by decide +kernel, rfl⟩

/-- For `GfDoubleCompletes`, `GfMulCompletes`, `SubstitutionCommandsComplete`, `RowShiftCommandsComplete`,
`ColumnMixCommandsComplete`. -/
theorem witness_no_byte_counted : State.reset.internal.nwr = 0 := rfl

theorem witness_SboxTablesAreAlgebraic : (0x53 : Byte) ≠ 0 ∧ mulGf 0x53 0xca = 0x01 := by decide +kernel

/-- For `InvCipherUndoesCipher`, `BlockCommandsComplete` and `EncBlockThenDecBlockRestores`: a key of each length. -/
theorem witness_ValidKey :
    ValidKey { keyedRegs with keylen := 16 } ∧ ValidKey { keyedRegs with keylen := 24 } ∧
      ValidKey { keyedRegs with keylen := 32 } ∧ (modeMachine 16 32).internal.nwr = 0 :=
  ⟨Or.inl rfl, Or.inr (Or.inl rfl), Or.inr (Or.inr rfl), rfl⟩

/-- The first and the last word of each clause for `Nk = 8`: `i = 0` and `7`, and `i = 8`, `12` and `59`. -/
theorem witness_ExpandedKeyFollowsRecurrence :
    let r := { keyedRegs with keylen := 32 }
    ValidKey r ∧ 0 < keyWordsOf r ∧ 7 < keyWordsOf r ∧ keyWordsOf r ≤ 8 ∧ 12 % keyWordsOf r = 4 ∧
      59 < 4 * (roundsOf r + 1) :=
  ⟨Or.inr (Or.inr rfl), by decide +kernel⟩

/-- The index `Nr = 14` of a key of 32 bytes. -/
theorem witness_RoundKeyCommandsComplete :
    let s := machine { keyedRegs with keylen := 32 } []
    ValidKey s.regs ∧ 14 ≤ roundsOf s.regs ∧ s.internal.nwr = 0 :=
  ⟨Or.inr (Or.inr rfl), by decide +kernel, rfl⟩

/-- The key word from byte 16 on differs. -/
theorem witness_KeyBytesBeyondLengthUnused :
    let s := modeMachine 16 32
    let key := { s.regs.key with k4 := ⟨1, 2, 3, 4⟩ }
    (∀ j < 8, 4 * j < s.regs.keylen.toNat → keyColumn key j = keyColumn s.regs.key j) ∧ key ≠ s.regs.key ∧
      (∃ t, exec .encBlock s = .next t) ∧ ∃ t, exec .encBlock { s with regs := { s.regs with key := key } } = .next t :=
  ⟨by decide +kernel, by decide +kernel, some_next _ _, some_next _ _⟩

/-- Each clause: no key; a length off by one; a capacity one short; the empty padded decryption; a nonce of 17. -/
theorem witness_FailedChecksTouchNothing :
    State.reset.internal.nwr = 0 ∧ ¬ ValidKey State.reset.regs ∧
    (modeMachine 17 32).regs.len.toNat % 16 ≠ 0 ∧
    (modeMachine 16 31).regs.cap.toNat < encryptedBytes true (modeMachine 16 31).regs ∧
    (modeMachine 0 0).regs.len.toNat = 0 ∧
    ((modeMachine 32 15).regs.len.toNat % 16 = 0 ∧ (modeMachine 32 15).regs.len.toNat ≠ 0 ∧
      ValidKey (modeMachine 32 15).regs ∧ (modeMachine 32 15).regs.cap.toNat + 16 < (modeMachine 32 15).regs.len.toNat) ∧
    (State.reset.regs.len.toNat % 16 = 0) ∧
    ((machine { State.reset.regs with len := 16 } []).regs.len.toNat ≠ 0 ∧
      ¬ ValidKey (machine { State.reset.regs with len := 16 } []).regs) ∧
    16 < ({ ivRegs 16 32 with noncelen := 17 } : Regs).noncelen.toNat := by
  unfold ValidKey
  decide +kernel

/-- A whole padding block: `LEN = 16`, `CAP = 32`. -/
theorem witness_EncryptionsComplete :
    let s := modeMachine 16 32
    ValidKey s.regs ∧ s.regs.len.toNat % 16 = 0 ∧ encryptedBytes true s.regs = s.regs.cap.toNat ∧
      s.internal.nwr = 0 ∧ ReadsAdmitted s s.regs.src s.regs.len.toNat ∧
      WritesAdmitted s s.regs.dst (encryptedBytes true s.regs) :=
  ⟨modeMachine_validKey 16 32, by decide +kernel, by decide +kernel, rfl, reads_open rfl _ _, writes_open rfl _ _⟩

theorem witness_UnpaddedDecryptionsComplete :
    let s := modeMachine 16 16
    ValidKey s.regs ∧ s.regs.len.toNat % 16 = 0 ∧ s.regs.len.toNat ≤ s.regs.cap.toNat ∧ s.internal.nwr = 0 ∧
      ReadsAdmitted s s.regs.src s.regs.len.toNat ∧ WritesAdmitted s s.regs.dst s.regs.len.toNat :=
  ⟨modeMachine_validKey 16 16, by decide +kernel, by decide +kernel, rfl, reads_open rfl _ _, writes_open rfl _ _⟩

/-- One ciphertext block at `SRC`, `CAP` as given. -/
def cipherMachine (block : Nat) (cap : Word) : Machine.State := machine (modeRegs 16 cap) [(0x1000, hex 16 block)]

/-- The block whose padding has `p = 16` (V-PADVALID), with `CAP = 0`, and the one with `p = 1`, with `CAP = 15`. -/
theorem witness_PaddedDecryptionsComplete :
    (let s := cipherMachine 0x954f64f2e4e86e9eee82d20216684899 0
     ValidKey s.regs ∧ s.regs.len.toNat % 16 = 0 ∧ s.regs.len.toNat ≠ 0 ∧ s.internal.nwr = 0 ∧
       PaddedBy (lastPlain false false s) 16 ∧ s.regs.len.toNat - 16 ≤ s.regs.cap.toNat ∧
       ReadsAdmitted s s.regs.src s.regs.len.toNat ∧ WritesAdmitted s s.regs.dst (s.regs.len.toNat - 16)) ∧
    (let s := cipherMachine 0xb61e6af8da7260d2214369b951bf8963 15
     ValidKey s.regs ∧ PaddedBy (lastPlain true false s) 1 ∧ s.regs.len.toNat - 1 ≤ s.regs.cap.toNat ∧
       ReadsAdmitted s s.regs.src s.regs.len.toNat ∧ WritesAdmitted s s.regs.dst (s.regs.len.toNat - 1)) :=
  ⟨⟨Or.inl rfl, by decide +kernel, by decide +kernel, rfl, by unfold PaddedBy; decide +kernel, by decide +kernel,
     reads_open rfl _ _, writes_open rfl _ _⟩,
   ⟨Or.inl rfl, by unfold PaddedBy; decide +kernel, by decide +kernel, reads_open rfl _ _, writes_open rfl _ _⟩⟩

/-- A block that ends in `0xff` (R181's example), and the block with `p = 1` and a capacity one short of `LEN - p`. -/
theorem witness_FailedUnpaddingKeepsEarlierBlocks :
    (let s := cipherMachine 0x69c4e0d86a7b0430d8cdb78070b4c55a 0
     ValidKey s.regs ∧ s.regs.len.toNat % 16 = 0 ∧ s.regs.len.toNat ≠ 0 ∧
       s.regs.len.toNat - 16 ≤ s.regs.cap.toNat ∧ s.internal.nwr = 0 ∧
       (∀ p, ¬ PaddedBy (lastPlain false false s) p) ∧ ReadsAdmitted s s.regs.src s.regs.len.toNat ∧
       WritesAdmitted s s.regs.dst (s.regs.len.toNat - 16)) ∧
    (let s := cipherMachine 0xb61e6af8da7260d2214369b951bf8963 14
     ValidKey s.regs ∧ s.regs.len.toNat - 16 ≤ s.regs.cap.toNat ∧ PaddedBy (lastPlain false false s) 1 ∧
       s.regs.cap.toNat < s.regs.len.toNat - 1) :=
  ⟨⟨Or.inl rfl, by decide +kernel, by decide +kernel, by decide +kernel, rfl,
     fun p ⟨_, h, hb⟩ => by
       have last : (blockByte (lastPlain false false (cipherMachine 0x69c4e0d86a7b0430d8cdb78070b4c55a 0)) 15).toNat =
         255 := by decide +kernel
       have := hb 15 (by omega) (by omega)
       omega,
     reads_open rfl _ _, writes_open rfl _ _⟩,
   ⟨Or.inl rfl, by decide +kernel, by unfold PaddedBy; decide +kernel, by decide +kernel⟩⟩

/-- For `CtrCompletes` and `CtrTwiceRestoresMemory`: a nonce of 16 bytes; for the second clause of the latter every byte
of the buffer is listed. -/
theorem witness_CtrCompletes :
    let s := modeMachine 17 0
    ValidKey s.regs ∧ s.regs.noncelen.toNat = 16 ∧ s.internal.nwr = 0 ∧ s.mem.wf ∧
      ReadsAdmitted s s.regs.src s.regs.len.toNat ∧ WritesAdmitted s s.regs.src s.regs.len.toNat ∧
      byteAddr s.regs.src 16 ≠ 0x2008 ∧
      ∀ k < (modeMachine 16 0).regs.len.toNat,
        (modeMachine 16 0).mem.listed (byteAddr (modeMachine 16 0).regs.src k).toNat ≠ none :=
  ⟨modeMachine_validKey 17 0, rfl, rfl, modeMachine_wf 17 0, reads_open rfl _ _, writes_open rfl _ _, by decide +kernel,
    by decide +kernel⟩

/-- For `EncryptionOfDisjointBuffers`, with a second block `j = 1`. -/
theorem witness_EncryptionOfDisjointBuffers :
    let s := modeMachine 16 32
    ValidKey s.regs ∧ encryptedBytes true s.regs ≤ s.regs.cap.toNat ∧
      ReadsAdmitted s s.regs.src s.regs.len.toNat ∧ WritesAdmitted s s.regs.dst (encryptedBytes true s.regs) ∧
      BuffersApart s.regs.src s.regs.len.toNat s.regs.dst (encryptedBytes true s.regs) ∧
      (∃ t, exec (.cbcEnc true true) s = .next t) ∧ 1 < encryptedBytes true s.regs / 16 :=
  ⟨modeMachine_validKey 16 32, by decide +kernel, reads_open rfl _ _, writes_open rfl _ _,
    disjoint_16_32, some_next _ _, by decide +kernel⟩

/-- For `StoresOnlyReportedBytes` and `TraceAccountsForMemory`: an address beyond the output, for a mode command; and a
command of the other kind. -/
theorem witness_StoresOnlyReportedBytes :
    let s := modeMachine 16 32
    s.internal.nwr = 0 ∧ IsMode (.ecbEnc true) = true ∧ (∃ t, exec (.ecbEnc true) s = .next t) ∧
      (∀ k < 32, byteAddr s.regs.dst k ≠ 0x2020) ∧ IsMode .encBlock = false ∧ ∃ t, exec .encBlock s = .next t :=
  ⟨rfl, rfl, some_next _ _, by decide +kernel, rfl, some_next _ _⟩

/-- A machine whose platform refuses to read the first data byte. -/
def unreadable : Machine.State :=
  { modeMachine 16 32 with platform := ⟨0, false, [⟨0x1000, 1⟩], []⟩ }

/-- For `CompletionCodesAreThoseOfTheTable` and `AccessesStayInBounds`: a completion with `BUS_ERROR`. -/
theorem witness_CompletionCodesAreThoseOfTheTable :
    ∃ t, exec (.ecbEnc true) unreadable = .next t ∧ t.regs.status.err = .busError :=
  ⟨_, rfl, by decide +kernel⟩

theorem witness_AccessOrderIsBlockByBlock :
    let s := modeMachine 16 32
    s.internal.nwr = 0 ∧ ValidKey s.regs ∧ (∀ kind a, memAdmit s.platform kind a = true) ∧
      s.regs.len.toNat % 16 = 0 ∧ encryptedBytes true s.regs ≤ s.regs.cap.toNat ∧ s.regs.len.toNat ≠ 0 ∧
      s.regs.len.toNat ≤ s.regs.cap.toNat ∧ s.regs.noncelen.toNat ≤ 16 ∧ ∀ i, ∃ t, exec i s = .next t :=
  ⟨rfl, modeMachine_validKey 16 32, open_admits rfl, by decide +kernel, by decide +kernel, by decide +kernel,
    by decide +kernel, by decide +kernel, fun i => some_next i _⟩

theorem witness_RefusedFirstReadIsBusError :
    let s := unreadable
    s.internal.nwr = 0 ∧ ValidKey s.regs ∧ 0 < s.regs.len.toNat ∧ memAdmit s.platform .read s.regs.src = false ∧
      s.regs.len.toNat % 16 = 0 ∧ encryptedBytes true s.regs ≤ s.regs.cap.toNat ∧
      s.regs.len.toNat ≤ s.regs.cap.toNat ∧ s.regs.noncelen.toNat ≤ 16 :=
  ⟨rfl, Or.inl rfl, by decide +kernel⟩

/-- The last of the 32 writes is refused. -/
theorem witness_RefusedWriteKeepsEarlierWrites :
    let s := { modeMachine 16 32 with platform := ⟨0, false, [], [⟨0x201F, 1⟩]⟩ }
    ValidKey s.regs ∧ encryptedBytes true s.regs ≤ s.regs.cap.toNat ∧ s.internal.nwr = 0 ∧
      31 < encryptedBytes true s.regs ∧ ReadsAdmitted s s.regs.src s.regs.len.toNat ∧
      WritesAdmitted s s.regs.dst 31 ∧ memAdmit s.platform .write (byteAddr s.regs.dst 31) = false :=
  ⟨Or.inl rfl, by decide +kernel, rfl, by decide +kernel, by unfold ReadsAdmitted; decide +kernel,
    by unfold WritesAdmitted; decide +kernel, by decide +kernel⟩

/-- Byte 17, in the second block, is the first that cannot be read, for an encryption and for a decryption. -/
theorem witness_RefusedReadKeepsEarlierBlocks :
    let s := { modeMachine 32 48 with platform := ⟨0, false, [⟨0x1011, 1⟩], []⟩ }
    ValidKey s.regs ∧ s.internal.nwr = 0 ∧ 17 < s.regs.len.toNat ∧ ReadsAdmitted s s.regs.src 17 ∧
      WritesAdmitted s s.regs.dst (16 * (17 / 16)) ∧ memAdmit s.platform .read (byteAddr s.regs.src 17) = false ∧
      encryptedBytes true s.regs ≤ s.regs.cap.toNat ∧ s.regs.len.toNat % 16 = 0 ∧
      s.regs.len.toNat ≤ s.regs.cap.toNat :=
  ⟨Or.inl rfl, rfl, by decide +kernel, by unfold ReadsAdmitted; decide +kernel,
    by unfold WritesAdmitted; decide +kernel, by decide +kernel⟩

/-- The last byte of an unpadded decryption; the last byte before the last block of a padded one; and, with `p = 1`, the
last byte that is written of its last block. -/
theorem witness_RefusedWriteOfDecryptionKeepsEarlierWrites :
    (let s := { modeMachine 32 32 with platform := ⟨0, false, [], [⟨0x201F, 1⟩]⟩ }
     ValidKey s.regs ∧ s.regs.len.toNat % 16 = 0 ∧ s.regs.len.toNat ≤ s.regs.cap.toNat ∧ s.internal.nwr = 0 ∧
       31 < s.regs.len.toNat ∧ 15 < s.regs.len.toNat - 16 ∧ ReadsAdmitted s s.regs.src s.regs.len.toNat ∧
       WritesAdmitted s s.regs.dst 31 ∧ memAdmit s.platform .write (byteAddr s.regs.dst 31) = false) ∧
    (let s := { cipherMachine 0xb61e6af8da7260d2214369b951bf8963 15 with platform := ⟨0, false, [], [⟨0x200E, 1⟩]⟩ }
     ValidKey s.regs ∧ PaddedBy (lastPlain false false s) 1 ∧ s.regs.len.toNat - 1 ≤ s.regs.cap.toNat ∧
       14 < s.regs.len.toNat - 1 ∧ s.regs.len.toNat ≤ s.regs.cap.toNat + 16 ∧
       ReadsAdmitted s s.regs.src s.regs.len.toNat ∧ WritesAdmitted s s.regs.dst 14 ∧
       memAdmit s.platform .write (byteAddr s.regs.dst 14) = false) :=
  ⟨⟨Or.inl rfl, by decide +kernel, by decide +kernel, rfl, by decide +kernel, by decide +kernel,
     by unfold ReadsAdmitted; decide +kernel, by unfold WritesAdmitted; decide +kernel, by decide +kernel⟩,
   ⟨Or.inl rfl, by unfold PaddedBy; decide +kernel, by decide +kernel, by decide +kernel, by decide +kernel,
     by unfold ReadsAdmitted; decide +kernel, by unfold WritesAdmitted; decide +kernel, by decide +kernel⟩⟩

/-- The last data byte can be read and not written; or not be read. -/
theorem witness_RefusedAccessOfCtrKeepsEarlierBytes :
    ∀ p ∈ [(⟨0, false, [], [⟨0x1010, 1⟩]⟩ : Platform), ⟨0, false, [⟨0x1010, 1⟩], []⟩],
      let s := { modeMachine 17 0 with platform := p }
      (s.regs.keylen.toNat = 16 ∧ s.regs.noncelen.toNat ≤ 16 ∧ s.internal.nwr = 0 ∧ 16 < s.regs.len.toNat) ∧
        (∀ k < 16, memAdmit s.platform .read (byteAddr s.regs.src k) = true) ∧
        (∀ k < 16, memAdmit s.platform .write (byteAddr s.regs.src k) = true) ∧
        (memAdmit s.platform .read (byteAddr s.regs.src 16) = false ∨
          memAdmit s.platform .write (byteAddr s.regs.src 16) = false) := by decide +kernel

/-- For `StepKeepsInvariant` and `StepKeepsPlatform`: a busy machine that meets the invariant and steps. -/
theorem witness_StepKeepsInvariant :
    let s := inFlight 0x00000044
    s.Inv ∧ s.regs.status.busy = true ∧ ∃ t, step s = .next t :=
  ⟨⟨modeMachine_wf 16 32, rfl, fun _ => ⟨rfl, rfl⟩, fun h => (by cases h), fun _ => rfl, fun h => (by cases h)⟩, rfl, by
    have h : decode (inFlight 0x00000044).regs.cmd = .ok .ctr := by decide +kernel
    obtain ⟨t, ht⟩ := some_next .ctr (inFlight 0x00000044)
    exact ⟨t, by rw [inFlight, step_withFetchWord, ← inFlight, runCommand, h]; exact ht⟩⟩

theorem witness_LatencyChangesNoResult :
    ((inFlight 0x00000044).regs.status.busy = true ∧ (inFlight 0x00000044).script = []) ∧
      (busyHost 3 .wait).regs.status.busy = true ∧ (busyHost 3 .wait).script = .wait :: [] := ⟨⟨rfl, rfl⟩, rfl, rfl⟩

theorem witness_CmdWriteIssues :
    let s := idleHost (.writeReg (regAddr (modeMachine 16 32).platform .cmd) .word 0x00000342)
    s.regs.status.busy = false ∧ s.script = .writeReg (regAddr s.platform .cmd) .word 0x00000342 :: [] ∧
      decode 0x00000342 = .ok (.cbcEnc true true) ∧ IsMode (.cbcEnc true true) = true ∧
      15 < s.regs.len.toNat ∧ 31 < s.regs.cap.toNat := by decide +kernel

/-- The last offset of the window. -/
theorem witness_BusyWritesAreDropped :
    let s := busyHost 1 (.writeReg (byteAddr 0 252) .word 1)
    s.regs.status.busy = true ∧ 0 < s.countdown ∧ 252 < 256 ∧ 252 % 4 = 0 ∧
      s.script = .writeReg (byteAddr s.platform.engineBase 252) .word 1 :: [] := by decide +kernel

/-- Reads of `STATUS`, of an unsettled register and of a settled one. -/
theorem witness_BusyReadsReturnSettledOrFreeValues :
    ∀ r ∈ [Reg.status, .outlen, .state 3, .key 7],
      let s := busyHost 1 (.readReg (regAddr ⟨0, false, [], []⟩ r) .word)
      s.regs.status = ⟨true, false, .ok⟩ ∧ 0 < s.countdown ∧
        s.script = .readReg (regAddr s.platform r) .word :: [] := by decide +kernel

theorem witness_RegisterWritesReadBack :
    ∀ r ∈ [Reg.gfop, .key 7, .iv 3, .state 0],
      let s := { modeMachine 16 32 with
        script := [.writeReg (regAddr ⟨0, false, [], []⟩ r) .word 0xFFFFFFFF, .readReg (regAddr ⟨0, false, [], []⟩ r) .word] }
      s.regs.status.busy = false ∧ r ≠ .cmd ∧ r ≠ .status ∧ r ≠ .outlen ∧ r ≠ .gfres ∧
        s.script = .writeReg (regAddr s.platform r) .word 0xFFFFFFFF :: .readReg (regAddr s.platform r) .word :: [] := by
  decide +kernel

/-- The first and the last offset of each clause. -/
theorem witness_IdleReadsFollowRegisterMap :
    ∀ off ∈ [0x000, 0x004, 0x028, 0x040 + 4 * 0, 0x040 + 4 * 7, 0x060 + 4 * 0, 0x060 + 4 * 3, 0x070 + 4 * 0, 0x070 + 4 * 3],
      let s := idleHost (.readReg (byteAddr 0 off) .word)
      off < 256 ∧ off % 4 = 0 ∧ s.regs.status.busy = false ∧
        s.script = .readReg (byteAddr s.platform.engineBase off) .word :: [] := by decide +kernel

/-- The first and last reserved offsets, and the read-only registers, written and read. -/
theorem witness_ReadOnlyAndReservedOffsets :
    ∀ off ∈ [0x004, 0x020, 0x024, 0x028, 0x02C, 0x03C, 0x080, 0x0FC],
      let s := idleHost (.writeReg (byteAddr 0 off) .word 1)
      let s' := idleHost (.readReg (byteAddr 0 off) .word)
      off < 256 ∧ off % 4 = 0 ∧ s.regs.status.busy = false ∧
        s.script = .writeReg (byteAddr s.platform.engineBase off) .word 1 :: [] ∧
        s'.script = .readReg (byteAddr s'.platform.engineBase off) .word :: [] := by decide +kernel

/-- A byte access, a misaligned word access and the first address past the window. -/
theorem witness_OtherWindowAccessesAreRefused :
    ∀ p ∈ [((0 : Word), AccessSize.byte), (2, .word), (256, .word)],
      (p.2 ≠ .word ∨ (p.1 - (0 : Word)).toNat % 4 ≠ 0 ∨ 256 ≤ (p.1 - (0 : Word)).toNat) ∧
        HostIsNext (idleHost (.writeReg p.1 p.2 1)) (.writeReg p.1 p.2 1) [] ∧
        HostIsNext (busyHost 1 (.readReg p.1 p.2)) (.readReg p.1 p.2) [] := by
  unfold HostIsNext
  decide +kernel

/-- The last owned byte and the first that is not, while `CTR` is in flight on sixteen bytes at `0x1000`. -/
theorem witness_HostAccessToOwnedBytesFaults :
    let s (x : HostAct) := { busyHost 1 x with owned := [⟨0x1000, 16⟩] }
    HostIsNext (s (.readMem 0x100F)) (.readMem 0x100F) [] ∧ ownedByte (s (.readMem 0x100F)) 0x100F = true ∧
    HostIsNext (s (.readMem 0x1010)) (.readMem 0x1010) [] ∧ ownedByte (s (.readMem 0x1010)) 0x1010 = false ∧
    HostIsNext (s (.writeMem 0x0FFF [1, 2])) (.writeMem 0x0FFF [1, 2]) [] ∧
      ownedByte (s (.writeMem 0x0FFF [1, 2])) (byteAddr 0x0FFF 1) = true ∧
    HostIsNext (s (.writeMem 0x1010 [1])) (.writeMem 0x1010 [1]) [] ∧
      (∀ k < 1, ownedByte (s (.writeMem 0x1010 [1])) (byteAddr 0x1010 k) = false) ∧
    HostIsNext (s (.readReg (regAddr ⟨0, false, [], []⟩ .status) .word))
      (.readReg (regAddr (busyHost 1 .idle).platform .status) .word) [] := by
  unfold HostIsNext
  decide +kernel

/-- Reset of the idle machine, of one with `CTR` in flight and of one with an illegal word in flight. -/
theorem witness_ResetLeavesFirstPartOfWrites :
    HostIsNext (idleHost .reset) .reset [] ∧ (idleHost .reset).regs.status.busy = false ∧
    HostIsNext (busyHost 1 .reset) .reset [] ∧ (busyHost 1 .reset).regs.status.busy = true ∧
      decode (busyHost 1 .reset).regs.cmd = .ok .ctr ∧
      (∃ u, exec .ctr { busyHost 1 .reset with trace := [] } = .next u) ∧
    (let s := { inFlight 0x80000042 with countdown := 1, script := [.reset] }
     HostIsNext s .reset [] ∧ s.regs.status.busy = true ∧ decode s.regs.cmd = .error .unadmittedBits) :=
  ⟨⟨rfl, fun h => (by cases h)⟩, rfl, ⟨rfl, fun _ => Nat.one_pos⟩, rfl, by decide +kernel, some_next _ _,
    ⟨rfl, fun _ => Nat.one_pos⟩, rfl, by decide +kernel⟩

/-- For `DecryptionRestoresEncryptedData`: the second output is the ciphertext's place, or disjoint from it. -/
theorem witness_DecryptionRestoresEncryptedData :
    let s := modeMachine 16 32
    ValidKey s.regs ∧ s.regs.len.toNat % 16 = 0 ∧ encryptedBytes true s.regs ≤ s.regs.cap.toNat ∧
      s.internal.nwr = 0 ∧ (∀ kind a, memAdmit s.platform kind a = true) ∧
      BuffersApart s.regs.src s.regs.len.toNat s.regs.dst (encryptedBytes true s.regs) ∧
      BuffersApart s.regs.dst (encryptedBytes true s.regs) 0x1000 s.regs.len.toNat ∧
      s.regs.len.toNat ≤ (16 : Word).toNat ∧ ∃ t, exec (.cbcEnc true true) s = .next t :=
  ⟨modeMachine_validKey 16 32, by decide +kernel, by decide +kernel, rfl, open_admits rfl,
    disjoint_16_32, by unfold BuffersApart; decide +kernel, by decide +kernel, some_next _ _⟩

theorem witness_InPlaceGivesDisjointOutput :
    let s := modeMachine 16 32
    s.internal.nwr = 0 ∧ (∀ kind a, memAdmit s.platform kind a = true) ∧
      BuffersApart s.regs.src s.regs.len.toNat s.regs.dst s.regs.cap.toNat ∧
      ∀ i, (∃ t, exec i s = .next t) ∧ ∃ t, exec i { s with regs := { s.regs with dst := s.regs.src } } = .next t :=
  ⟨rfl, open_admits rfl, disjoint_16_32, fun i => ⟨some_next i _, some_next i _⟩⟩

end

end Sys2Proof.Tests
end

/-! ## The machine's invariant (10_state.md R26, R32, R42) -/

namespace Sys2Proof.Machine

/-- The invariant speaks of memory, `STATUS`, `OUTLEN`, the internal registers, the countdown and the trace only. -/
theorem State.Inv.of_same {s t : State} (h : s.Inv) (hmem : t.mem.wf) (hstatus : t.regs.status = s.regs.status)
    (houtlen : t.regs.outlen = s.regs.outlen) (hinternal : t.internal = s.internal)
    (hcountdown : t.countdown = s.countdown) (htrace : t.trace = s.trace) : t.Inv where
  memory := hmem
  cleared := hinternal.trans h.cleared
  busy := by rw [hstatus, htrace]; exact h.busy
  idle := by rw [hstatus, hcountdown]; exact h.idle
  noError := by rw [hstatus]; exact h.noError
  outlen := by rw [hstatus, houtlen, htrace]; exact h.outlen

/-- A cycle of latency keeps the invariant of a busy engine. -/
theorem State.Inv.of_busy_countdown {s : State} (h : s.Inv) (hb : s.regs.status.busy = true) (n : Nat) :
    State.Inv { s with countdown := n } :=
  { h with idle := fun hi => absurd (hb.symm.trans hi) (by decide) }

theorem State.Inv.issue {s : State} (h : s.Inv) (v : Word) : (issue v s).Inv where
  memory := h.memory
  cleared := by rw [issue_internal, h.cleared]; rfl
  busy _ := ⟨rfl, rfl⟩
  idle hi := by cases hi
  noError _ := rfl
  outlen hd := by cases hd

/-- A state with the registers and the engine as after reset meets the invariant, whatever memory holds. -/
theorem State.Inv.of_reset {t : State} (hmem : t.mem.wf) (hregs : t.regs = .reset) (hinternal : t.internal = .cleared)
    (hcountdown : t.countdown = 0) : t.Inv where
  memory := hmem
  cleared := hinternal
  busy hb := by rw [hregs] at hb; cases hb
  idle _ := hcountdown
  noError _ := by rw [hregs]; rfl
  outlen hd := by rw [hregs] at hd; cases hd

theorem State.Inv.assertReset {s : State} (h : s.Inv) : (assertReset s).Inv := by
  have hmem := assertReset_mem_wf h.memory
  cases hb : s.regs.status.busy with
  | false =>
    rw [assertReset_idle hb] at hmem ⊢
    exact .of_reset hmem rfl rfl rfl
  | true =>
    rw [assertReset_busy hb] at hmem ⊢
    exact .of_reset hmem rfl rfl rfl

theorem State.Inv.writeWindow {s : State} (h : s.Inv) (off : Nat) (v : Word) : (writeWindow off v s).Inv := by
  obtain hw | ⟨-, -, hw⟩ | ⟨-, r, -, hw⟩ := writeWindow_cases off v s <;> rw [hw]
  · exact h
  · exact h.issue v
  · obtain ⟨hstatus, houtlen, -, -⟩ := setReg_frame s.regs v r
    exact h.of_same h.memory hstatus houtlen rfl rfl rfl

theorem State.Inv.readWindow {s : State} (h : s.Inv) (off : Nat) : (readWindow off s).Inv := by
  obtain ⟨rdata, draws, owned, hr⟩ := readWindow_form off s
  rw [hr]
  exact h.of_same h.memory rfl rfl rfl rfl rfl

/-- Every action of the host keeps the invariant. -/
theorem State.Inv.hostAct {s t : State} (h : s.Inv) {x : HostAct} (ht : hostAct x s = .next t) : t.Inv := by
  obtain ⟨off, v, rfl⟩ | ⟨off, rfl⟩ | rfl | rfl | ⟨a, bs, rfl⟩ | ⟨a, rfl⟩ | rfl | rfl := hostAct_cases ht
  · exact h.writeWindow off v
  · exact h.readWindow off
  · exact h.of_same h.memory rfl rfl rfl rfl rfl
  · exact h.of_same h.memory rfl rfl rfl rfl rfl
  · exact h.of_same (Memory.wf_writeBytes h.memory bs a) rfl rfl rfl rfl rfl
  · exact h.of_same h.memory rfl rfl rfl rfl rfl
  · exact h.assertReset
  · exact h

theorem State.Inv.hostTurn {s t : State} (h : s.Inv) (ht : hostTurn s = .next t) : t.Inv := by
  obtain ⟨-, hn⟩ | ⟨x, xs, -, hn⟩ := hostTurn_cases s <;> rw [hn] at ht
  · cases ht; exact h
  · exact State.Inv.hostAct (s := { s with script := xs }) (h.of_same h.memory rfl rfl rfl rfl rfl) ht

/-- The completion of the command in flight keeps the invariant: the bytes counted in `NWR` are those of the trace,
which the issue had emptied. -/
theorem State.Inv.runCommand {s t : State} (h : s.Inv) (hb : s.regs.status.busy = true) (hc : s.countdown = 0)
    (ht : runCommand s = .next t) : t.Inv := by
  obtain ⟨code, u, state, gfres, hr, hu⟩ := runCommand_inversion s
  rw [hr] at ht
  cases ht
  obtain ⟨xs, htrace, -, hnwr, -⟩ := hu.accesses
  obtain ⟨-, hempty⟩ := h.busy hb
  exact {
    memory := hu.mem_wf h.memory
    cleared := rfl
    busy := fun hb' => by cases hb'
    idle := fun _ => hu.countdown.trans hc
    noError := fun hd => by cases hd
    outlen := fun _ => by
      rw [hempty, List.append_nil] at htrace
      simp [hnwr, h.cleared, Internal.cleared, htrace, writeCount] }

theorem State.Inv.step {s t : State} (h : s.Inv) (ht : step s = .next t) : t.Inv := by
  obtain ⟨hb, hc, hs⟩ | ⟨hb, -, hs⟩ | ⟨-, hs⟩ := step_cases s <;> rw [hs] at ht
  · exact h.runCommand hb hc ht
  · exact (h.of_busy_countdown hb _).hostTurn ht
  · exact h.hostTurn ht

theorem State.Inv.reset : State.reset.Inv := .of_reset reset_mem_wf rfl rfl rfl

end Sys2Proof.Machine

namespace Sys2Proof.Proofs

open Sys2Proof.Machine

/-- Settles O38: the completion, the host's turn against a busy engine and the host's turn each keep the invariant. -/
theorem stepKeepsInvariant : Obligations.StepKeepsInvariant :=
  fun _ _ h ht => h.step ht

/-- Settles O37. -/
theorem resetMeetsInvariant : Obligations.ResetMeetsInvariant := State.Inv.reset

/-- Settles O36: the registers one by one. -/
theorem resetClearsEveryRegister : Obligations.ResetClearsEveryRegister := by
  refine ⟨fun r => ?_, rfl, rfl, rfl⟩
  cases r with
  | key j => revert j; decide
  | iv j => revert j; decide
  | state j => revert j; decide
  | _ => rfl

end Sys2Proof.Proofs

/-! ## The key beyond `KEYLEN` (10_state.md R35): a command reads the key only through `keyWords` -/

namespace Sys2Proof.Machine

/-- `s` with another key register. -/
def withKey (key : KeyBytes) (s : State) : State := { s with regs := { s.regs with key := key } }

@[simp] theorem withKey_regs (key : KeyBytes) (s : State) : (withKey key s).regs = { s.regs with key := key } := rfl
@[simp] theorem withKey_internal (key : KeyBytes) (s : State) : (withKey key s).internal = s.internal := rfl
@[simp] theorem withKey_platform (key : KeyBytes) (s : State) : (withKey key s).platform = s.platform := rfl
@[simp] theorem setBlk_withKey (key : KeyBytes) (v : Block) (s : State) :
    setBlk v (withKey key s) = withKey key (setBlk v s) := rfl
@[simp] theorem setChain_withKey (key : KeyBytes) (v : Block) (s : State) :
    setChain v (withKey key s) = withKey key (setChain v s) := rfl

@[simp] theorem dataLength_withKey (key : KeyBytes) (r : Regs) : dataLength { r with key := key } = dataLength r := rfl
@[simp] theorem capacity_withKey (key : KeyBytes) (r : Regs) : capacity { r with key := key } = capacity r := rfl
@[simp] theorem srcBlock_withKey (key : KeyBytes) (r : Regs) (j : Nat) :
    srcBlock { r with key := key } j = srcBlock r j := rfl
@[simp] theorem dstBlock_withKey (key : KeyBytes) (r : Regs) (j : Nat) :
    dstBlock { r with key := key } j = dstBlock r j := rfl

theorem busRead_withKey (key : KeyBytes) (a : Word) (s : State) :
    busRead a (withKey key s) = (busRead a s).mapState (withKey key) := by
  simp only [busRead, withKey_platform, apply_ite (Run.mapState (withKey key))]
  rfl

theorem busWrite_withKey (key : KeyBytes) (a : Word) (b : Byte) (s : State) :
    busWrite a b (withKey key s) = (busWrite a b s).mapState (withKey key) := by
  simp only [busWrite, withKey_platform, apply_ite (Run.mapState (withKey key))]
  rfl

theorem memRead_withKey (key : KeyBytes) (n : Nat) (a : Word) (s : State) :
    memRead n a (withKey key s) = (memRead n a s).mapState (withKey key) := by
  induction n generalizing a s with
  | zero => rfl
  | succ n ih =>
    rw [memRead, busRead_withKey]
    exact Run.mapState_andThen _ fun b t => by rw [ih]; exact Run.mapState_andThen _ fun _ _ => rfl

theorem memWrite_withKey (key : KeyBytes) (bs : List Byte) (a : Word) (s : State) :
    memWrite bs a (withKey key s) = (memWrite bs a s).mapState (withKey key) := by
  induction bs generalizing a s with
  | nil => rfl
  | cons b bs ih =>
    rw [memWrite, busWrite_withKey]
    exact Run.mapState_andThen _ fun _ t => ih _ t

theorem readPlainBlock_withKey (key : KeyBytes) (j : Nat) (s : State) :
    readPlainBlock j (withKey key s) = (readPlainBlock j s).mapState (withKey key) := by
  simp only [readPlainBlock, withKey_regs, dataLength_withKey, srcBlock_withKey, memRead_withKey]
  exact Run.mapState_andThen _ fun _ _ => rfl

theorem writePlainBlock_withKey (key : KeyBytes) (unpad : Bool) (j : Nat) (s : State) :
    writePlainBlock unpad j (withKey key s) = (writePlainBlock unpad j s).mapState (withKey key) := by
  simp only [writePlainBlock, withKey_regs, withKey_internal, dataLength_withKey, capacity_withKey, dstBlock_withKey,
    memWrite_withKey, apply_ite (Run.mapState (withKey key))]
  rfl

theorem ecbEncBlocks_withKey (key : KeyBytes) (n j : Nat) (s : State) :
    ecbEncBlocks n j (withKey key s) = (ecbEncBlocks n j s).mapState (withKey key) := by
  induction n generalizing j s with
  | zero => rfl
  | succ n ih =>
    rw [ecbEncBlocks, readPlainBlock_withKey]
    refine Run.mapState_andThen _ fun _ t => ?_
    simp only [setBlk_withKey, withKey_regs, withKey_internal, dstBlock_withKey, memWrite_withKey]
    exact Run.mapState_andThen _ fun _ u => ih _ u

theorem cbcEncBlocks_withKey (key : KeyBytes) (n j : Nat) (s : State) :
    cbcEncBlocks n j (withKey key s) = (cbcEncBlocks n j s).mapState (withKey key) := by
  induction n generalizing j s with
  | zero => rfl
  | succ n ih =>
    rw [cbcEncBlocks, readPlainBlock_withKey]
    refine Run.mapState_andThen _ fun _ t => ?_
    simp only [setBlk_withKey, withKey_regs, withKey_internal, dstBlock_withKey, memWrite_withKey]
    exact Run.mapState_andThen _ fun _ u => ih _ (setChain u.internal.blk u)

theorem ecbDecBlocks_withKey (key : KeyBytes) (pad : Bool) (n j : Nat) (s : State) :
    ecbDecBlocks pad n j (withKey key s) = (ecbDecBlocks pad n j s).mapState (withKey key) := by
  induction n generalizing j s with
  | zero => rfl
  | succ n ih =>
    simp only [ecbDecBlocks, withKey_regs, srcBlock_withKey, memRead_withKey]
    refine Run.mapState_andThen _ fun _ t => ?_
    simp only [setBlk_withKey, withKey_internal, writePlainBlock_withKey]
    exact Run.mapState_andThen _ fun _ u => ih _ u

theorem cbcDecBlocks_withKey (key : KeyBytes) (pad : Bool) (n j : Nat) (s : State) :
    cbcDecBlocks pad n j (withKey key s) = (cbcDecBlocks pad n j s).mapState (withKey key) := by
  induction n generalizing j s with
  | zero => rfl
  | succ n ih =>
    simp only [cbcDecBlocks, withKey_regs, srcBlock_withKey, memRead_withKey]
    refine Run.mapState_andThen _ fun _ t => ?_
    simp only [setBlk_withKey, setChain_withKey, withKey_internal, writePlainBlock_withKey]
    exact Run.mapState_andThen _ fun _ u => ih _ u

theorem ctrBytes_withKey (key : KeyBytes) (ks : List Byte) (a : Word) (s : State) :
    ctrBytes ks a (withKey key s) = (ctrBytes ks a s).mapState (withKey key) := by
  induction ks generalizing a s with
  | nil => rfl
  | cons k ks ih =>
    rw [ctrBytes, busRead_withKey]
    refine Run.mapState_andThen _ fun b t => ?_
    rw [busWrite_withKey]
    exact Run.mapState_andThen _ fun _ u => ih _ u

theorem ctrBlocks_withKey (key : KeyBytes) (n j : Nat) (s : State) :
    ctrBlocks n j (withKey key s) = (ctrBlocks n j s).mapState (withKey key) := by
  induction n generalizing j s with
  | zero => rfl
  | succ n ih =>
    simp only [ctrBlocks, setBlk_withKey, withKey_internal, withKey_regs, dataLength_withKey, srcBlock_withKey,
      ctrBytes_withKey]
    exact Run.mapState_andThen _ fun _ u => ih _ (setCtrv (incrementCounter u.internal.ctrv) u)

/-- Keys that agree in every word that begins below `KEYLEN` have the same key words. -/
theorem keyWords_withKey {key : KeyBytes} {r : Regs}
    (h : ∀ j < 8, 4 * j < r.keylen.toNat → keyColumn key j = keyColumn r.key j) :
    keyWords { r with key := key } = keyWords r := by
  refine List.ext_getElem (by simp [keyWords, keyColumns, keyWordCount]) fun j hj hj' => ?_
  simp only [keyWords, keyWordCount, List.length_take] at hj
  have hlen : j < 8 := lt_of_lt_of_le hj (min_le_right _ _)
  have := h j hlen (by omega)
  simp only [keyWords, List.getElem_take]
  rwa [keyColumn, keyColumn, List.getD_eq_getElem _ _ hlen, List.getD_eq_getElem _ _ hlen] at this

theorem finish_withKey {key : KeyBytes} {r : Run Unit} {t : State} (h : finish r = .next t) :
    finish (r.mapState (withKey key)) = .next (withKey key t) := by
  cases r <;> cases h <;> rfl

/-- A check passes or fails alike with another key, since it reads `KEYLEN` and no key byte; so a checked command
completes alike if what follows the check runs alike. -/
theorem finish_checked_withKey {key : KeyBytes} (check : Option ErrCode) {s t : State} {k : State → Run Unit}
    (hk : k (withKey key s) = (k s).mapState (withKey key)) (h : finish (checked check s k) = .next t) :
    finish (checked check (withKey key s) k) = .next (withKey key t) := by
  cases check with
  | none => exact (congrArg finish hk).trans (finish_withKey h)
  | some code => exact finish_withKey h

theorem loadSchedule_withKey {key : KeyBytes} {s : State} (h : keyWords { s.regs with key := key } = keyWords s.regs) :
    loadSchedule (withKey key s) = withKey key (loadSchedule s) := by
  simp only [loadSchedule, withKey_regs, h]
  rfl

/-- A command that takes the same key words from two keys completes alike with either. -/
theorem exec_withKey {key : KeyBytes} {i : Instr} {s t : State}
    (hkey : keyWords { s.regs with key := key } = keyWords s.regs) (h : exec i s = .next t) :
    exec i (withKey key s) = .next (withKey key t) := by
  have hload := loadSchedule_withKey hkey
  cases i with
  | gfDouble | gfMul | subBytes | invSubBytes | shiftRows | invShiftRows | mixColumns | invMixColumns =>
    cases h
    rfl
  | addRoundKey k => exact finish_checked_withKey (roundKeyCheck k s.regs) (by simp only [hload]; rfl) h
  | keyExpand k => exact finish_checked_withKey (roundKeyCheck k s.regs) (by simp only [hload]; rfl) h
  | encBlock => exact finish_checked_withKey (keyCheck s.regs) (by simp only [hload]; rfl) h
  | decBlock => exact finish_checked_withKey (keyCheck s.regs) (by simp only [hload]; rfl) h
  | ecbEnc pad =>
    exact finish_checked_withKey (encryptCheck pad s.regs) (by rw [hload]; exact ecbEncBlocks_withKey ..) h
  | ecbDec pad =>
    exact finish_checked_withKey (decryptCheck pad s.regs) (by rw [hload]; exact ecbDecBlocks_withKey ..) h
  | cbcEnc pad iven => exact finish_checked_withKey (encryptCheck pad s.regs) (by
      rw [hload]
      exact cbcEncBlocks_withKey _ _ _ (setChain (initialChain iven s.regs) (loadSchedule s))) h
  | cbcDec pad iven => exact finish_checked_withKey (decryptCheck pad s.regs) (by
      rw [hload]
      exact cbcDecBlocks_withKey _ _ _ _ (setChain (initialChain iven s.regs) (loadSchedule s))) h
  | ctr => exact finish_checked_withKey (ctrCheck s.regs) (by
      rw [hload]
      exact ctrBlocks_withKey _ _ _ (setCtrv (initialCounter s.regs) (loadSchedule s))) h

end Sys2Proof.Machine

namespace Sys2Proof.Proofs

open Sys2Proof.Machine

/-- Settles O20: the two keys have the same words below `KEYLEN`, and a command reads no others. -/
theorem keyBytesBeyondLengthUnused : Obligations.KeyBytesBeyondLengthUnused := by
  intro s key i t t' hkey ht ht'
  have hrun : exec i (withKey key s) = .next (withKey key t) := exec_withKey (keyWords_withKey hkey) ht
  exact Host.Outcome.next.inj (ht'.symm.trans hrun)

end Sys2Proof.Proofs

/-! ## What a command stores, and where (10_state.md R32; 20_memory.md R66) -/

namespace Sys2Proof.Machine

/-- Between `s` and `t` the `n` bytes from offset `i` of `base` on were stored and counted in `NWR`; every other byte of
memory and every host-visible register stayed. -/
structure StoreSpan (base : Word) (i n : Nat) (s t : State) : Prop where
  regs : t.regs = s.regs
  nwr : t.internal.nwr = s.internal.nwr + BitVec.ofNat 32 n
  mem : ∀ a : Word, (∀ k < n, offsetFrom base (i + k) ≠ a) → t.mem.read a.toNat = s.mem.read a.toNat

/-- Some span of at most `n` bytes from offset `i` of `base` on was stored. -/
def StoresWithin (base : Word) (i n : Nat) (s t : State) : Prop := ∃ m ≤ n, StoreSpan base i m s t

/-- A run that stores the `n` bytes from offset `i` of `base` on: all of them if it goes on, a first part of them if it
raises an error. -/
def Run.StoresAll {α : Type} (base : Word) (i n : Nat) (s : State) : Run α → Prop
  | .done _ t => StoreSpan base i n s t
  | .raised _ t => StoresWithin base i n s t

theorem StoreSpan.of_internal {base : Word} {i : Nat} {s t : State} (hregs : t.regs = s.regs) (hmem : t.mem = s.mem)
    (hnwr : t.internal.nwr = s.internal.nwr) : StoreSpan base i 0 s t :=
  ⟨hregs, by simp [hnwr], fun a _ => by rw [hmem]⟩

theorem StoreSpan.trans {base : Word} {i n m : Nat} {s t u : State} (h : StoreSpan base i n s t)
    (h' : StoreSpan base (i + n) m t u) : StoreSpan base i (n + m) s u where
  regs := h'.regs.trans h.regs
  nwr := by rw [h'.nwr, h.nwr, BitVec.ofNat_add, BitVec.add_assoc]
  mem a ha := by
    rw [h'.mem a fun k hk => ?_, h.mem a fun k hk => ha k (by omega)]
    rw [Nat.add_assoc]
    exact ha (n + k) (by omega)

theorem StoreSpan.within {base : Word} {i n : Nat} {s t : State} (h : StoreSpan base i n s t) :
    StoresWithin base i n s t := ⟨n, le_rfl, h⟩

theorem StoresWithin.mono {base : Word} {i n m : Nat} {s t : State} (h : StoresWithin base i n s t) (hnm : n ≤ m) :
    StoresWithin base i m s t := by
  obtain ⟨k, hk, h⟩ := h
  exact ⟨k, hk.trans hnm, h⟩

theorem StoreSpan.trans_within {base : Word} {i n m : Nat} {s t u : State} (h : StoreSpan base i n s t)
    (h' : StoresWithin base (i + n) m t u) : StoresWithin base i (n + m) s u := by
  obtain ⟨k, hk, h'⟩ := h'
  exact ⟨n + k, by omega, h.trans h'⟩

theorem Run.StoresAll.within {α : Type} {base : Word} {i n : Nat} {s : State} {r : Run α}
    (h : r.StoresAll base i n s) : StoresWithin base i n s r.state := by
  cases r with
  | done v t => exact StoreSpan.within h
  | raised code t => exact h

/-- A run that leaves memory and `NWR` alone stores the empty span. -/
theorem Run.StoresAll.of_span {α : Type} {base : Word} {i : Nat} {s : State} {r : Run α}
    (h : StoreSpan base i 0 s r.state) : r.StoresAll base i 0 s := by
  cases r with
  | done v t => exact h
  | raised code t => exact h.within

theorem Run.StoresAll.andThen {α β : Type} {base : Word} {i n m : Nat} {s : State} {r : Run α} {k : α → State → Run β}
    (h : r.StoresAll base i n s) (hk : ∀ v t, t.regs = s.regs → (k v t).StoresAll base (i + n) m t) :
    (r.andThen k).StoresAll base i (n + m) s := by
  cases r with
  | raised code t => exact StoresWithin.mono h (by omega)
  | done v t =>
    have hspan : StoreSpan base i n s t := h
    have hnext := hk v t hspan.regs
    show (k v t).StoresAll base i (n + m) s
    cases hkr : k v t <;> rw [hkr] at hnext
    · exact hspan.trans hnext
    · exact hspan.trans_within hnext

theorem Run.StoresAll.andThen_within {α β : Type} {base : Word} {i n m : Nat} {s : State} {r : Run α}
    {k : α → State → Run β} (h : r.StoresAll base i n s)
    (hk : ∀ v t, t.regs = s.regs → StoresWithin base (i + n) m t (k v t).state) :
    StoresWithin base i (n + m) s (r.andThen k).state := by
  cases r with
  | raised code t => exact StoresWithin.mono h (by omega)
  | done v t =>
    have hspan : StoreSpan base i n s t := h
    exact hspan.trans_within (hk v t hspan.regs)

/-- Reads store nothing. -/
theorem BusRun.storeSpan_of_reads {base : Word} {i : Nat} {s t : State} (h : BusRun (fun kind _ => kind = .read) s t) :
    StoreSpan base i 0 s t := by
  obtain ⟨xs, -, hmem, hnwr, hread⟩ := h.accesses
  have hnone : tracedWrites xs = [] := List.eq_nil_iff_forall_not_mem.2 fun w hw => by
    have hkind := (hread _ (mem_tracedWrites hw)).2
    cases hkind
  rw [hnone] at hmem hnwr
  exact .of_internal h.regs hmem (by simpa using hnwr)

theorem memRead_storesAll (base : Word) (i n : Nat) (a : Word) (s : State) :
    (memRead n a s).StoresAll base i 0 s :=
  .of_span (memRead_run n a (fun _ _ => rfl) s).storeSpan_of_reads

theorem busRead_storesAll (base : Word) (i : Nat) (a : Word) (s : State) : (busRead a s).StoresAll base i 0 s :=
  .of_span (busRead_run rfl s).storeSpan_of_reads

theorem busWrite_storesAll (base : Word) (i : Nat) (b : Byte) (s : State) :
    (busWrite (offsetFrom base i) b s).StoresAll base i 1 s := by
  unfold busWrite
  split
  · refine ⟨rfl, by simp, fun a ha => ?_⟩
    have hne : offsetFrom base i ≠ a := ha 0 Nat.one_pos
    have hne' : a.toNat ≠ (offsetFrom base i).toNat := fun h => hne (BitVec.eq_of_toNat_eq h.symm)
    rw [storeByte_mem, traceAccess_mem, Memory.read_write, if_neg hne']
  · exact ⟨0, Nat.zero_le 1, .of_internal rfl rfl rfl⟩

theorem offsetFrom_succ (base : Word) (i : Nat) : offsetFrom base i + 1 = offsetFrom base (i + 1) := by
  rw [offsetFrom, offsetFrom, BitVec.ofNat_add, BitVec.add_assoc]
  rfl

theorem memWrite_storesAll (base : Word) (bs : List Byte) (i : Nat) (s : State) :
    (memWrite bs (offsetFrom base i) s).StoresAll base i bs.length s := by
  induction bs generalizing i s with
  | nil => exact .of_internal rfl rfl rfl
  | cons b bs ih =>
    rw [List.length_cons, Nat.add_comm]
    refine (busWrite_storesAll base i b s).andThen fun _ t _ => ?_
    rw [offsetFrom_succ]
    exact ih (i + 1) t

theorem ctrBytes_storesAll (base : Word) (ks : List Byte) (i : Nat) (s : State) :
    (ctrBytes ks (offsetFrom base i) s).StoresAll base i ks.length s := by
  induction ks generalizing i s with
  | nil => exact .of_internal rfl rfl rfl
  | cons k ks ih =>
    rw [List.length_cons, ← Nat.zero_add (ks.length + 1), Nat.add_comm ks.length]
    refine (busRead_storesAll base i _ s).andThen fun b t _ => ?_
    refine (busWrite_storesAll base i (b ^^^ k) t).andThen fun _ u _ => ?_
    rw [offsetFrom_succ]
    exact ih (i + 1) u

theorem readPlainBlock_storesAll (base : Word) (i j : Nat) (s : State) :
    (readPlainBlock j s).StoresAll base i 0 s :=
  (memRead_storesAll base i _ _ s).andThen (m := 0) fun _ _ _ => StoreSpan.of_internal rfl rfl rfl

/-- A change of the internal registers but `NWR` before a run does not show in what the run stores. -/
theorem StoresWithin.of_internal {base : Word} {i n : Nat} {s t u : State} (ht : t = { s with internal := t.internal })
    (hnwr : t.internal.nwr = s.internal.nwr) (h : StoresWithin base i n t u) : StoresWithin base i n s u := by
  have hspan : StoreSpan base i 0 s t := by rw [ht]; exact .of_internal rfl rfl hnwr
  exact (hspan.trans_within h).mono (Nat.zero_add n).le

/-- What follows a run that stores nothing begins at the same offset. -/
theorem Run.StoresAll.andThen_within_of_none {α β : Type} {base : Word} {i m : Nat} {s : State} {r : Run α}
    {k : α → State → Run β} (h : r.StoresAll base i 0 s)
    (hk : ∀ v t, t.regs = s.regs → StoresWithin base i m t (k v t).state) :
    StoresWithin base i m s (r.andThen k).state :=
  (h.andThen_within (m := m) hk).mono (Nat.zero_add m).le

theorem memWrite_dstBlock_storesAll {base : Word} {r : Regs} (hr : r.dst = base) (bs : List Byte) (j : Nat)
    (s : State) : (memWrite bs (dstBlock r j) s).StoresAll base (16 * j) bs.length s := by
  subst hr
  exact memWrite_storesAll r.dst bs (16 * j) s

/-- A block written out whole, with the blocks behind it. -/
theorem memWrite_block_andThen_storesWithin {base : Word} {s : State} (hs : s.regs.dst = base) (b : Block) (n j : Nat)
    {k : Unit → State → Run Unit}
    (hk : ∀ u, u.regs = s.regs → StoresWithin base (16 * (j + 1)) (16 * n) u (k () u).state) :
    StoresWithin base (16 * j) (16 * (n + 1)) s ((memWrite (blockBytes b) (dstBlock s.regs j) s).andThen k).state :=
  ((memWrite_dstBlock_storesAll hs (blockBytes b) j s).andThen_within fun _ u hu => hk u hu).mono
    (by rw [blockBytes_length]; omega)

theorem ecbEncBlocks_storesWithin {base : Word} (n j : Nat) {s : State} (hs : s.regs.dst = base) :
    StoresWithin base (16 * j) (16 * n) s (ecbEncBlocks n j s).state := by
  induction n generalizing j s with
  | zero => exact (StoreSpan.of_internal rfl rfl rfl).within
  | succ n ih =>
    refine (readPlainBlock_storesAll base (16 * j) j s).andThen_within_of_none fun _ t ht => ?_
    let w := setBlk (cipher t.internal.rk t.internal.blk) t
    have hw : w.regs.dst = base := (congrArg Regs.dst ht).trans hs
    refine .of_internal (t := w) rfl rfl ?_
    exact memWrite_block_andThen_storesWithin (k := fun _ => ecbEncBlocks n (j + 1)) hw _ n j
      fun u hu => ih (j + 1) (by rw [hu]; exact hw)

theorem cbcEncBlocks_storesWithin {base : Word} (n j : Nat) {s : State} (hs : s.regs.dst = base) :
    StoresWithin base (16 * j) (16 * n) s (cbcEncBlocks n j s).state := by
  induction n generalizing j s with
  | zero => exact (StoreSpan.of_internal rfl rfl rfl).within
  | succ n ih =>
    refine (readPlainBlock_storesAll base (16 * j) j s).andThen_within_of_none fun _ t ht => ?_
    let w := setBlk (cipher t.internal.rk (xorBlock t.internal.blk t.internal.chain)) t
    have hw : w.regs.dst = base := (congrArg Regs.dst ht).trans hs
    refine .of_internal (t := w) rfl rfl ?_
    refine memWrite_block_andThen_storesWithin
      (k := fun _ u => cbcEncBlocks n (j + 1) (setChain u.internal.blk u)) hw _ n j fun u hu => ?_
    exact .of_internal (t := setChain u.internal.blk u) rfl rfl (ih (j + 1) (by rw [setChain_regs, hu]; exact hw))

theorem Run.andThen_done_state (r : Run Unit) : (r.andThen Run.done).state = r.state := by
  cases r <;> rfl

/-- A block that may be unpadded stores a first part of itself. -/
theorem writePlainBlock_storesWithin {base : Word} (unpad : Bool) (j : Nat) {s : State} (hs : s.regs.dst = base) :
    StoresWithin base (16 * j) 16 s (writePlainBlock unpad j s).state := by
  have none : StoresWithin base (16 * j) 16 s s := ⟨0, by omega, .of_internal rfl rfl rfl⟩
  have some (bs : List Byte) (hbs : bs.length ≤ 16) :
      StoresWithin base (16 * j) 16 s (memWrite bs (dstBlock s.regs j) s).state :=
    (memWrite_dstBlock_storesAll hs bs j s).within.mono hbs
  unfold writePlainBlock
  cases unpad with
  | false => exact some _ le_rfl
  | true =>
    simp only [if_true]
    split
    · exact none
    · split
      · exact none
      · exact some _ ((List.length_take_le' ..).trans (blockBytes_length _).le)

/-- A decrypted block, with the `n` blocks behind it: only a block with none behind it is unpadded. -/
theorem writePlainBlock_andThen_storesWithin {base : Word} {s : State} (hs : s.regs.dst = base) (pad : Bool) (n j : Nat)
    {k : Unit → State → Run Unit} (hlast : n = 0 → k = .done)
    (hk : ∀ u, u.regs = s.regs → StoresWithin base (16 * (j + 1)) (16 * n) u (k () u).state) :
    StoresWithin base (16 * j) (16 * (n + 1)) s ((writePlainBlock (pad && n == 0) j s).andThen k).state := by
  cases n with
  | zero =>
    rw [hlast rfl, Run.andThen_done_state]
    exact writePlainBlock_storesWithin _ j hs
  | succ n =>
    have hwhole : (pad && n + 1 == 0) = false := by simp
    rw [hwhole]
    exact memWrite_block_andThen_storesWithin hs _ (n + 1) j hk

theorem ecbDecBlocks_storesWithin {base : Word} (pad : Bool) (n j : Nat) {s : State} (hs : s.regs.dst = base) :
    StoresWithin base (16 * j) (16 * n) s (ecbDecBlocks pad n j s).state := by
  induction n generalizing j s with
  | zero => exact (StoreSpan.of_internal rfl rfl rfl).within
  | succ n ih =>
    refine (memRead_storesAll base (16 * j) 16 _ s).andThen_within_of_none fun c t ht => ?_
    let w := setBlk (invCipher t.internal.rk (blockOfBytes c)) t
    have hw : w.regs.dst = base := (congrArg Regs.dst ht).trans hs
    refine .of_internal (t := w) rfl rfl ?_
    exact writePlainBlock_andThen_storesWithin (k := fun _ => ecbDecBlocks pad n (j + 1)) hw pad n j
      (fun hn => by subst hn; rfl) fun u hu => ih (j + 1) (by rw [hu]; exact hw)

theorem cbcDecBlocks_storesWithin {base : Word} (pad : Bool) (n j : Nat) {s : State} (hs : s.regs.dst = base) :
    StoresWithin base (16 * j) (16 * n) s (cbcDecBlocks pad n j s).state := by
  induction n generalizing j s with
  | zero => exact (StoreSpan.of_internal rfl rfl rfl).within
  | succ n ih =>
    refine (memRead_storesAll base (16 * j) 16 _ s).andThen_within_of_none fun c t ht => ?_
    let w := setChain (blockOfBytes c)
      (setBlk (xorBlock (invCipher t.internal.rk (blockOfBytes c)) t.internal.chain) t)
    have hw : w.regs.dst = base := (congrArg Regs.dst ht).trans hs
    refine .of_internal (t := w) rfl rfl ?_
    exact writePlainBlock_andThen_storesWithin (k := fun _ => cbcDecBlocks pad n (j + 1)) hw pad n j
      (fun hn => by subst hn; rfl) fun u hu => ih (j + 1) (by rw [hu]; exact hw)

/-- Block `j` of `CTR` begins at offset `16*j`, and its bytes end with the data's. -/
theorem ctrBlocks_storesWithin {base : Word} {len : Nat} (n j : Nat) {s : State} (hs : s.regs.src = base)
    (hl : dataLength s.regs = len) (hn : 16 * (j + n) < len + 16) :
    StoresWithin base (min (16 * j) len) (len - 16 * j) s (ctrBlocks n j s).state := by
  induction n generalizing j s with
  | zero => exact ⟨0, Nat.zero_le _, .of_internal rfl rfl rfl⟩
  | succ n ih =>
    have hj : srcBlock s.regs j = offsetFrom base (min (16 * j) len) := by
      rw [srcBlock, hs, min_eq_left (by omega)]
    let w := setBlk (cipher s.internal.rk s.internal.ctrv) s
    let ks := (blockBytes w.internal.blk).take (blockDataLength (dataLength s.regs) j)
    have hks : ks.length = min 16 (len - 16 * j) := by
      simp only [ks, List.length_take, blockBytes_length, blockDataLength, hl]
      omega
    have hnext : min (16 * j) len + ks.length = min (16 * (j + 1)) len := by omega
    refine .of_internal (t := w) rfl rfl ?_
    have hb := ctrBytes_storesAll base ks (min (16 * j) len) w
    rw [← hj] at hb
    refine (hb.andThen_within (m := len - 16 * (j + 1))
      (k := fun _ u => ctrBlocks n (j + 1) (setCtrv (incrementCounter u.internal.ctrv) u)) fun _ u hu => ?_).mono
      (by omega)
    have hu' : u.regs = s.regs := hu
    rw [hnext]
    exact .of_internal (t := setCtrv (incrementCounter u.internal.ctrv) u) rfl rfl
      (ih (j + 1) (by rw [setCtrv_regs, hu', hs]) (by rw [setCtrv_regs, hu', hl]) (by omega))

theorem checked_storesWithin {base : Word} {n : Nat} {s : State} {check : Option ErrCode} {k : State → Run Unit}
    (h : check = none → StoresWithin base 0 n s (k s).state) : StoresWithin base 0 n s (checked check s k).state := by
  cases check with
  | none => exact h rfl
  | some code => exact ⟨0, Nat.zero_le n, .of_internal rfl rfl rfl⟩

/-- Where a mode command stores: from `DST` on, or from `SRC` on for `CTR` (20_memory.md R66). -/
def outputBase (i : Instr) (r : Regs) : Word := if i = .ctr then r.src else r.dst

/-- A mode command completes a state in which a span from the start of its output on was stored, shorter than the
address space, and no register has changed. -/
theorem exec_mode_stores {i : Instr} (hi : Reference.IsMode i = true) (s : State) :
    ∃ code u, exec i s = .next (complete code u) ∧ StoresWithin (outputBase i s.regs) 0 (2 ^ 32 - 1) s u := by
  have completes : ∀ {r : Run Unit}, StoresWithin (outputBase i s.regs) 0 (2 ^ 32 - 1) s r.state →
      ∃ code u, finish r = .next (complete code u) ∧ StoresWithin (outputBase i s.regs) 0 (2 ^ 32 - 1) s u :=
    fun {r} h => by
    obtain ⟨code, hc⟩ := finish_eq_next r
    exact ⟨code, r.state, hc, h⟩
  have hcap : capacity s.regs < 2 ^ 32 := s.regs.cap.isLt
  have hlen : dataLength s.regs < 2 ^ 32 := s.regs.len.isLt
  cases i with
  | ecbEnc pad =>
    refine completes (checked_storesWithin fun h => .of_internal (t := loadSchedule s) rfl rfl ?_)
    obtain ⟨-, hc, -⟩ := encryptCheck_none h
    exact StoresWithin.mono (ecbEncBlocks_storesWithin (base := s.regs.dst) _ 0 rfl) (by omega)
  | cbcEnc pad iven =>
    refine completes (checked_storesWithin fun h =>
      .of_internal (t := setChain (initialChain iven s.regs) (loadSchedule s)) rfl rfl ?_)
    obtain ⟨-, hc, -⟩ := encryptCheck_none h
    exact StoresWithin.mono (cbcEncBlocks_storesWithin (base := s.regs.dst) _ 0 rfl) (by omega)
  | ecbDec pad =>
    refine completes (checked_storesWithin fun _ => .of_internal (t := loadSchedule s) rfl rfl ?_)
    exact StoresWithin.mono (ecbDecBlocks_storesWithin (base := s.regs.dst) pad _ 0 rfl) (by omega)
  | cbcDec pad iven =>
    refine completes (checked_storesWithin fun _ =>
      .of_internal (t := setChain (initialChain iven s.regs) (loadSchedule s)) rfl rfl ?_)
    exact StoresWithin.mono (cbcDecBlocks_storesWithin (base := s.regs.dst) pad _ 0 rfl) (by omega)
  | ctr =>
    refine completes (checked_storesWithin fun _ =>
      .of_internal (t := setCtrv (initialCounter s.regs) (loadSchedule s)) rfl rfl ?_)
    exact StoresWithin.mono
      (ctrBlocks_storesWithin (base := s.regs.src) (len := dataLength s.regs) _ 0 rfl rfl (by omega)) (by omega)
  | _ => cases hi

/-- A command that is no mode command makes no buffer access. -/
theorem exec_nonMode_keepsBuffers {i : Instr} {s t : State} (hi : Reference.IsMode i = false) (h : exec i s = .next t) :
    t.regs.outlen = s.internal.nwr ∧ Reference.KeepsBuffers s t := by
  obtain ⟨code, u, state, gfres, he, hu⟩ := exec_inversion i s
  rw [he] at h
  cases h
  obtain ⟨xs, htrace, hmem, hnwr, hall⟩ := hu.accesses
  have hnone : xs = [] := List.eq_nil_iff_forall_not_mem.2 fun x hx => by
    have hallowed := (hall x hx).2
    cases i with
    | ecbEnc | ecbDec | cbcEnc | cbcDec | ctr => cases hi
    | _ => exact hallowed
  subst hnone
  exact ⟨by simpa using hnwr, hmem, htrace⟩

end Sys2Proof.Machine

namespace Sys2Proof.Proofs

open Sys2Proof.Machine Sys2Proof.Reference

/-- Settles O28: the bytes stored are those of a span whose length `OUTLEN` counts. -/
theorem storesOnlyReportedBytes : Obligations.StoresOnlyReportedBytes := by
  intro i s t a hnwr ht
  refine ⟨fun hi ha => ?_, fun hi => ?_⟩
  · obtain ⟨code, u, he, n, hn, hspan⟩ := exec_mode_stores hi s
    rw [he] at ht
    cases ht
    have hlt : n < 4294967296 := by omega
    have hout : (complete code u).regs.outlen.toNat = n := by simp [hspan.nwr, hnwr, Nat.mod_eq_of_lt hlt]
    rw [hout] at ha
    refine hspan.mem a fun k hk => ?_
    rw [Nat.zero_add]
    exact ha k hk
  · obtain ⟨hout, hkeeps⟩ := exec_nonMode_keepsBuffers hi ht
    exact ⟨hout.trans hnwr, hkeeps⟩

end Sys2Proof.Proofs

/-! ## The registers a command writes (10_state.md R34 to R37; 60_exceptions.md R223) -/

namespace Sys2Proof.Machine

open Sys2Proof.Reference

/-- Every command is a completion, with the code, the count and the results that the state after it holds. -/
theorem exec_completes {i : Instr} {s t : State} (h : exec i s = .next t) :
    Completes t.regs.status.err t.regs.outlen.toNat t.regs.state t.regs.gfres s t := by
  obtain ⟨code, u, state, gfres, he, hu⟩ := exec_inversion i s
  rw [he] at h
  cases h
  exact {
    regs := by simp [hu.regs, statusCompleted]
    internal := rfl
    platform := hu.platform
    latency := hu.latency
    countdown := hu.countdown
    owned := hu.owned
    script := hu.script
    rdata := hu.rdata
    draws := hu.draws }

/-- A mode command writes neither `STATE` nor `GFRES`. -/
theorem exec_mode_results {i : Instr} {s t : State} (hi : IsMode i = true) (h : exec i s = .next t) :
    t.regs.gfres = s.regs.gfres ∧ t.regs.state = s.regs.state := by
  obtain ⟨code, u, he, n, -, hspan⟩ := exec_mode_stores hi s
  rw [he] at h
  cases h
  simp [hspan.regs]

/-- A GF command ends with `OK` and leaves `STATE` alone. -/
theorem exec_gf_results {i : Instr} {s t : State} (hi : IsGf i = true) (h : exec i s = .next t) :
    t.regs.status.err = .ok ∧ t.regs.state = s.regs.state := by
  cases i with
  | gfDouble => cases h; exact ⟨rfl, rfl⟩
  | gfMul => cases h; exact ⟨rfl, rfl⟩
  | _ => cases hi

/-- A command that checks the key and then computes a new `STATE` leaves `GFRES` alone, and `STATE` too if the check
fails. -/
theorem keyed_results {check : Option ErrCode} {s t : State} {f : State → Block}
    (h : finish (checked check s fun s => .done () (setState (f s) (loadSchedule s))) = .next t) :
    t.regs.gfres = s.regs.gfres ∧ (t.regs.status.err ≠ .ok → t.regs.state = s.regs.state) := by
  cases check with
  | some code => cases h; exact ⟨rfl, fun _ => rfl⟩
  | none => cases h; exact ⟨rfl, fun hne => absurd rfl hne⟩

/-- A command on `STATE` leaves `GFRES` alone, and `STATE` too unless it ends with `OK`. -/
theorem exec_state_results {i : Instr} {s t : State} (hg : IsGf i = false) (hm : IsMode i = false)
    (h : exec i s = .next t) :
    t.regs.gfres = s.regs.gfres ∧ (t.regs.status.err ≠ .ok → t.regs.state = s.regs.state) := by
  cases i with
  | subBytes | invSubBytes | shiftRows | invShiftRows | mixColumns | invMixColumns =>
    cases h
    exact ⟨rfl, fun hne => absurd rfl hne⟩
  | addRoundKey k =>
    exact keyed_results (f := fun s => addRoundKey s.regs.state (roundKey (loadSchedule s).internal.rk k)) h
  | keyExpand k => exact keyed_results (f := fun s => roundKey (loadSchedule s).internal.rk k) h
  | encBlock => exact keyed_results (f := fun s => cipher (loadSchedule s).internal.rk s.regs.state) h
  | decBlock => exact keyed_results (f := fun s => invCipher (loadSchedule s).internal.rk s.regs.state) h
  | gfDouble | gfMul => cases hg
  | ecbEnc | ecbDec | cbcEnc | cbcDec | ctr => cases hm

end Sys2Proof.Machine

namespace Sys2Proof.Proofs

open Sys2Proof.Machine Sys2Proof.Reference

/-- Settles O29: the completion has the registers of `exec_completes`, and which results it holds depends on whether the
command is a GF command, a mode command or one on `STATE`. -/
theorem commandsWriteOnlyTheirResults : Obligations.CommandsWriteOnlyTheirResults := by
  intro i s
  obtain ⟨code, u, state, gfres, he, -⟩ := exec_inversion i s
  refine ⟨_, _, _, _, _, he, exec_completes he, ?_⟩
  cases hg : IsGf i with
  | true =>
    obtain ⟨hok, hstate⟩ := exec_gf_results hg he
    exact ⟨fun h => h.elim (fun hf => by cases hf) (absurd hok), fun _ => hstate⟩
  | false =>
    cases hm : IsMode i with
    | true =>
      obtain ⟨hgfres, hstate⟩ := exec_mode_results hm he
      exact ⟨fun _ => hgfres, fun _ => hstate⟩
    | false =>
      obtain ⟨hgfres, hstate⟩ := exec_state_results hg hm he
      exact ⟨fun _ => hgfres, fun h => hstate (by simpa using h)⟩

end Sys2Proof.Proofs

/-! ## Lanes and words of the register window (10_state.md R22, R23) -/

namespace Sys2Proof.Machine

open Sys2Proof.Reference

/-- Byte `k` of a register word written is its lane `k`. -/
theorem columnByte_columnOfWord (w : Word) {k : Nat} (hk : k < 4) :
    columnByte (columnOfWord w) k = w.extractLsb' (8 * k) 8 := by
  interval_cases k <;> rfl

/-- Bit `i` of a register word read is bit `i mod 8` of byte `i div 8` of its column. -/
theorem getLsbD_wordOfColumn (c : Column) {i : Nat} (hi : i < 32) :
    (wordOfColumn c).getLsbD i = (columnByte c (i / 8)).getLsbD (i % 8) := by
  interval_cases i <;> simp [wordOfColumn, columnByte]

/-- Lane `k` of a register word read is byte `k` of its column. -/
theorem wordOfColumn_lane (c : Column) {k : Nat} (hk : k < 4) :
    (wordOfColumn c).extractLsb' (8 * k) 8 = columnByte c k := by
  refine BitVec.eq_of_getLsbD_eq fun i hi => ?_
  rw [BitVec.getLsbD_extractLsb', getLsbD_wordOfColumn c (by omega), Nat.mul_add_div (by omega), Nat.mul_add_mod,
    Nat.div_eq_of_lt hi, Nat.mod_eq_of_lt hi]
  simp [hi]

/-- What is written to a byte-array word is read back. -/
@[simp] theorem wordOfColumn_columnOfWord (w : Word) : wordOfColumn (columnOfWord w) = w := by
  refine BitVec.eq_of_getLsbD_eq fun i hi => ?_
  rw [getLsbD_wordOfColumn _ hi, columnByte_columnOfWord w (by omega), BitVec.getLsbD_extractLsb', Nat.div_add_mod,
    decide_eq_true (Nat.mod_lt i (by omega)), Bool.true_and]

/-- Byte `4j+k` of a block is byte `k` of its column `j`. -/
theorem blockByte_column (b : Block) (j : Nat) {k : Nat} (hk : k < 4) :
    blockByte b (4 * j + k) = columnByte (blockColumn b j) k := by
  rw [blockByte, stateAt]
  congr 2 <;> omega

@[simp] theorem keyColumn_setKeyColumn (key : KeyBytes) (j j' : Fin 8) (v : Column) :
    keyColumn (setKeyColumn key j v) j' = if j' = j then v else keyColumn key j' := by
  fin_cases j <;> fin_cases j' <;> rfl

@[simp] theorem blockColumn_setBlockColumn (b : Block) (j j' : Fin 4) (v : Column) :
    blockColumn (setBlockColumn b j v) j' = if j' = j then v else blockColumn b j' := by
  fin_cases j <;> fin_cases j' <;> rfl

/-- `STATUS` read as a number (10_state.md R26; 60_exceptions.md R220). -/
theorem statusWord_eq_ofNat (st : Status) : statusWord st = BitVec.ofNat 32 (statusNumber st) := by
  obtain ⟨busy, done, err⟩ := st
  revert busy done
  cases err <;> decide

/-- `STATUS` of an idle engine read as a number. -/
theorem statusWord_idle_toNat {st : Status} (hb : st.busy = false) :
    (statusWord st).toNat = 2 * st.done.toNat + 256 * codeNumber st.err := by
  obtain ⟨busy, done, err⟩ := st
  subst hb
  revert done
  cases err <;> decide

/-- The reserved bits of `STATUS` read 0 (10_state.md R26). -/
theorem statusWord_reserved (st : Status) : statusWord st &&& 0xFFFFF0FC = 0 := by
  obtain ⟨busy, done, err⟩ := st
  revert busy done
  cases err <;> decide

theorem setWidth_gfop_reserved (x : BitVec 16) : x.setWidth 32 &&& 0xFFFF0000 = 0 := by
  refine BitVec.eq_of_getLsbD_eq fun i hi => ?_
  interval_cases i <;> simp

theorem setWidth_gfres_reserved (x : Byte) : x.setWidth 32 &&& 0xFFFFFF00 = 0 := by
  refine BitVec.eq_of_getLsbD_eq fun i hi => ?_
  interval_cases i <;> simp

/-- A word cut to the sixteen bits of `GFOP` (10_state.md R33). -/
theorem setWidth_setWidth_gfop (v : Word) : (v.setWidth 16).setWidth 32 = v &&& 0x0000FFFF := by
  refine BitVec.eq_of_getLsbD_eq fun i hi => ?_
  interval_cases i <;> simp

/-! ## The map of the register window (10_state.md R24) -/

theorem regOffset_lt (r : Reg) : regOffset r < 256 := by
  cases r with
  | key j | iv j | state j => simp only [regOffset]; omega
  | _ => decide

theorem regOffset_mod_four (r : Reg) : regOffset r % 4 = 0 := by
  cases r with
  | key j | iv j | state j => simp only [regOffset]; omega
  | _ => rfl

theorem regAt_regOffset (r : Reg) : regAt (regOffset r) = some r := by
  cases r with
  | key j => revert j; decide
  | iv j => revert j; decide
  | state j => revert j; decide
  | _ => rfl

/-- No register stands at the reserved offsets. -/
theorem regAt_reserved {off : Nat} (h : (0x02C ≤ off ∧ off < 0x040) ∨ 0x080 ≤ off) : regAt off = none := by
  unfold regAt
  repeat rw [if_neg (by omega)]

theorem byteAddr_sub_toNat (base : Word) {k : Nat} (hk : k < 2 ^ 32) : (byteAddr base k - base).toNat = k := by
  rw [byteAddr, BitVec.add_comm, BitVec.add_sub_cancel, BitVec.toNat_ofNat, Nat.mod_eq_of_lt hk]

theorem windowOffset_byteAddr (p : Platform) {off : Nat} (hoff : off < 256) (halign : off % 4 = 0) :
    windowOffset p (byteAddr p.engineBase off) .word = some off := by
  have hsub := byteAddr_sub_toNat p.engineBase (show off < 2 ^ 32 by omega)
  simp [windowOffset, hsub, hoff, halign, Config.windowBytes]

/-- A read-write register holds what is written to it, cut to the bits it has. -/
theorem regValue_setReg_same (r : Regs) (v : Word) {x : Reg} (hcmd : x ≠ .cmd) (hstatus : x ≠ .status)
    (houtlen : x ≠ .outlen) (hgfres : x ≠ .gfres) :
    regValue (setReg r v x) x = if x = .gfop then v &&& 0x0000FFFF else v := by
  cases x with
  | cmd => exact absurd rfl hcmd
  | status => exact absurd rfl hstatus
  | outlen => exact absurd rfl houtlen
  | gfres => exact absurd rfl hgfres
  | gfop => exact setWidth_setWidth_gfop v
  | key j => simp [regValue, setReg]
  | iv j => simp [regValue, setReg]
  | state j => simp [regValue, setReg]
  | _ => rfl

/-- A register write leaves every other register. -/
theorem regValue_setReg_other (r : Regs) (v : Word) {x y : Reg} (h : y ≠ x) :
    regValue (setReg r v x) y = regValue r y := by
  cases x with
  | key j =>
    cases y with
    | key j' => simp [regValue, setReg, show j' ≠ j from fun e => h (e ▸ rfl)]
    | _ => rfl
  | iv j =>
    cases y with
    | iv j' => simp [regValue, setReg, show j' ≠ j from fun e => h (e ▸ rfl)]
    | _ => rfl
  | state j =>
    cases y with
    | state j' => simp [regValue, setReg, show j' ≠ j from fun e => h (e ▸ rfl)]
    | _ => rfl
  | _ => cases y <;> simp [regValue, setReg] at h ⊢

/-! ## The host's next action on the window (10_state.md R38 to R41) -/

/-- The step of an idle engine is the host's next action. -/
theorem step_idle {s : State} {x : HostAct} {xs : List HostAct} (hb : s.regs.status.busy = false)
    (hs : s.script = x :: xs) : step s = hostAct x { s with script := xs } := by
  simp [step, cycle, hb, hostTurn, hs]

/-- The step of a busy engine with cycles left is the host's next action, and takes a cycle. -/
theorem step_busy {s : State} {x : HostAct} {xs : List HostAct} (hb : s.regs.status.busy = true) (hc : 0 < s.countdown)
    (hs : s.script = x :: xs) : step s = hostAct x { s with script := xs, countdown := s.countdown - 1 } := by
  simp [step, cycle, hb, hc.ne', hostTurn, hs]

theorem hostAct_writeReg {s : State} {a : Word} {off : Nat} (v : Word)
    (ha : windowOffset s.platform a .word = some off) :
    hostAct (.writeReg a .word v) s = .next (writeWindow off v s) := by
  simp only [hostAct, ha]

theorem hostAct_readReg {s : State} {a : Word} {off : Nat} (ha : windowOffset s.platform a .word = some off) :
    hostAct (.readReg a .word) s = .next (readWindow off s) := by
  simp only [hostAct, ha]

theorem step_idle_write {s : State} {a : Word} {off : Nat} {v : Word} {xs : List HostAct}
    (hb : s.regs.status.busy = false) (ha : windowOffset s.platform a .word = some off)
    (hs : s.script = .writeReg a .word v :: xs) : step s = .next (writeWindow off v { s with script := xs }) :=
  (step_idle hb hs).trans (hostAct_writeReg v ha)

theorem step_idle_read {s : State} {a : Word} {off : Nat} {xs : List HostAct}
    (hb : s.regs.status.busy = false) (ha : windowOffset s.platform a .word = some off)
    (hs : s.script = .readReg a .word :: xs) : step s = .next (readWindow off { s with script := xs }) :=
  (step_idle hb hs).trans (hostAct_readReg ha)

theorem windowOffset_regAddr (p : Platform) (r : Reg) : windowOffset p (regAddr p r) .word = some (regOffset r) :=
  windowOffset_byteAddr p (regOffset_lt r) (regOffset_mod_four r)

/-- Any other access is outside the interface (10_state.md R39). -/
theorem windowOffset_eq_none {p : Platform} {a : Word} {size : AccessSize}
    (h : size ≠ .word ∨ (a - p.engineBase).toNat % 4 ≠ 0 ∨ 256 ≤ (a - p.engineBase).toNat) :
    windowOffset p a size = none := by
  refine if_neg fun ⟨hsize, hlt, halign⟩ => ?_
  rcases h with h | h | h
  · exact h hsize
  · exact h halign
  · exact absurd hlt (not_lt.2 h)

theorem writeWindow_busy {s : State} (hb : s.regs.status.busy = true) (off : Nat) (v : Word) :
    writeWindow off v s = s := if_pos hb

theorem writeWindow_reserved {s : State} {off : Nat} (hr : regAt off = none) (v : Word) : writeWindow off v s = s := by
  simp [writeWindow, hr]

theorem writeWindow_cmd {s : State} (hb : s.regs.status.busy = false) (v : Word) :
    writeWindow (regOffset .cmd) v s = issue v s := by
  simp [writeWindow, hb, regAt_regOffset]

theorem writeWindow_reg {s : State} {r : Reg} (hb : s.regs.status.busy = false) (hr : r ≠ .cmd) (v : Word) :
    writeWindow (regOffset r) v s = { s with regs := setReg s.regs v r } := by
  simp only [writeWindow, hb, regAt_regOffset]
  cases r with
  | cmd => exact absurd rfl hr
  | _ => rfl

/-- A read of the window changes no register, no internal register and no buffer byte. -/
theorem readWindow_frame (off : Nat) (s : State) :
    (readWindow off s).regs = s.regs ∧ (readWindow off s).internal = s.internal ∧ (readWindow off s).mem = s.mem := by
  obtain ⟨rdata, draws, owned, hr⟩ := readWindow_form off s
  rw [hr]
  exact ⟨rfl, rfl, rfl⟩

theorem readWindow_reserved_rdata {off : Nat} (hr : regAt off = none) (s : State) : (readWindow off s).rdata = 0 := by
  simp [readWindow, hr]

/-- A register that no command in flight may be updating reads as its value. -/
theorem readWindow_settled_rdata {s : State} {r : Reg} (h : (s.regs.status.busy && unsettled r) = false) :
    (readWindow (regOffset r) s).rdata = regValue s.regs r := by
  simp only [readWindow, regAt_regOffset]
  cases r with
  | status => rfl
  | _ => simp only [h]; rfl

theorem readWindow_idle_rdata {s : State} (hb : s.regs.status.busy = false) (r : Reg) :
    (readWindow (regOffset r) s).rdata = regValue s.regs r :=
  readWindow_settled_rdata (by rw [hb, Bool.false_and])

/-- A register that a command in flight may be updating reads as the next free value. -/
theorem readWindow_unsettled {s : State} {r : Reg} (hb : s.regs.status.busy = true) (hr : unsettled r = true) :
    readWindow (regOffset r) s = readFree s := by
  simp only [readWindow, regAt_regOffset]
  cases r with
  | status => cases hr
  | _ => simp only [hb, hr, Bool.and_self, if_true]

/-- Only the read that sees `BUSY = 0` ends the ownership. -/
theorem readWindow_busy_owned {s : State} (hb : s.regs.status.busy = true) (off : Nat) :
    (readWindow off s).owned = s.owned := by
  unfold readWindow
  cases hr : regAt off with
  | none => rfl
  | some r =>
    cases r with
    | status => simp [hb]
    | _ => dsimp only; split <;> rfl

end Sys2Proof.Machine

/-! ## The engine's ownership at issue (70_reset_and_hazards.md R255) -/

namespace Sys2Proof.Machine

open Sys2Proof.Reference

theorem Range.holds_byteAddr (a : Word) {n k : Nat} (hk : k < n) (hn : n ≤ 2 ^ 32) :
    Range.holds ⟨a, n⟩ (byteAddr a k) = true := by
  simpa [Range.holds, byteAddr_sub_toNat a (hk.trans_le hn)] using hk

theorem ownedByte_of_mem {s : State} {r : Range} {a : Word} (hr : r ∈ s.owned) (ha : r.holds a = true) :
    ownedByte s a = true :=
  List.any_eq_true.2 ⟨r, hr, ha⟩

theorem source_mem_ownedBy {i : Instr} (hi : IsMode i = true) (r : Regs) : ⟨r.src, dataLength r⟩ ∈ ownedBy i r := by
  cases i with
  | ecbEnc | ecbDec | cbcEnc | cbcDec | ctr => simp [ownedBy]
  | _ => cases hi

theorem destination_mem_ownedBy {i : Instr} (hi : IsMode i = true) (hctr : i ≠ .ctr) (r : Regs) :
    ⟨r.dst, capacity r⟩ ∈ ownedBy i r := by
  cases i with
  | ecbEnc | ecbDec | cbcEnc | cbcDec => simp [ownedBy]
  | ctr => exact absurd rfl hctr
  | _ => cases hi

end Sys2Proof.Machine

namespace Sys2Proof.Proofs

open Sys2Proof.Machine Sys2Proof.Reference

/-- Settles O41: the write reaches an idle engine at offset 0 and issues. -/
theorem cmdWriteIssues : Obligations.CmdWriteIssues := by
  intro s v xs hb hs
  let taken := { s with script := xs }
  refine ⟨issue v taken, ?_, rfl, rfl, rfl, rfl, rfl, fun i hdecode hi => ?_⟩
  · rw [step_idle_write hb (windowOffset_regAddr _ _) hs]
    exact congrArg _ (writeWindow_cmd (s := taken) hb v)
  · have howned : ∀ {r : Range}, r ∈ ownedBy i s.regs → r ∈ (issue v taken).owned := fun hr => by
      simp [taken, ownedByWord, hdecode, hr]
    exact ⟨fun k hk => ownedByte_of_mem (howned (source_mem_ownedBy hi s.regs))
        (Range.holds_byteAddr _ hk s.regs.len.isLt.le),
      fun hctr k hk => ownedByte_of_mem (howned (destination_mem_ownedBy hi hctr s.regs))
        (Range.holds_byteAddr _ hk s.regs.cap.isLt.le)⟩

/-- Settles O42. -/
theorem busyWritesAreDropped : Obligations.BusyWritesAreDropped := by
  intro s off v xs hb hc hoff halign hs
  let taken := { s with script := xs, countdown := s.countdown - 1 }
  have hwrite := hostAct_writeReg (s := taken) v (windowOffset_byteAddr s.platform hoff halign)
  exact (step_busy hb hc hs).trans (hwrite.trans (congrArg _ (writeWindow_busy (s := taken) hb off v)))

/-- Settles O43: the read is of `STATUS`, of an unsettled register or of a settled one. -/
theorem busyReadsReturnSettledOrFreeValues : Obligations.BusyReadsReturnSettledOrFreeValues := by
  intro s r xs hstatus hc hs
  have hb : s.regs.status.busy = true := by rw [hstatus]
  let taken := { s with script := xs, countdown := s.countdown - 1 }
  obtain ⟨hregs, -, hmem⟩ := readWindow_frame (regOffset r) taken
  refine ⟨readWindow (regOffset r) taken, ?_, hregs, hmem, readWindow_busy_owned (s := taken) hb _, fun hr => ?_,
    fun hr => ?_, fun h1 h2 h3 h4 => ?_⟩
  · rw [step_busy hb hc hs]
    exact hostAct_readReg (windowOffset_regAddr s.platform r)
  · subst hr
    rw [readWindow_settled_rdata (by simp [unsettled]), regValue, hstatus]
    decide
  · have hu : unsettled r = true := by
      rcases hr with rfl | rfl | ⟨j, rfl⟩ <;> rfl
    rw [readWindow_unsettled (s := taken) hb hu]
    exact ⟨rfl, rfl⟩
  · have hu : unsettled r = false := by
      cases r with
      | gfres => exact absurd rfl h2
      | outlen => exact absurd rfl h3
      | state j => exact absurd rfl (h4 j)
      | _ => rfl
    exact readWindow_settled_rdata (by rw [hu, Bool.and_false])

/-- Settles O46: the access has no offset in the window, and the host takes its turn with the engine idle or busy. -/
theorem otherWindowAccessesAreRefused : Obligations.OtherWindowAccessesAreRefused := by
  intro s a size v xs hout hnext
  have refused : ∀ x : HostAct, x = .writeReg a size v ∨ x = .readReg a size → HostIsNext s x xs →
      step s = .refused (.outsideWindowInterface a size) := by
    rintro x hx ⟨hs, hbusy⟩
    have hact : ∀ t : Machine.State, t.platform = s.platform →
        hostAct x t = .refused (.outsideWindowInterface a size) := fun t ht => by
      rcases hx with rfl | rfl <;> simp only [hostAct, ht, windowOffset_eq_none hout]
    cases hb : s.regs.status.busy with
    | false => exact (step_idle hb hs).trans (hact _ rfl)
    | true => exact (step_busy hb (hbusy hb) hs).trans (hact _ rfl)
  exact hnext.elim (refused _ (.inl rfl)) (refused _ (.inr rfl))

/-- Settles O44: the write sets the register, and the read that follows returns its value. -/
theorem registerWritesReadBack : Obligations.RegisterWritesReadBack := by
  intro s r v xs hb hcmd hstatus houtlen hgfres hs
  let before := { s with script := .readReg (regAddr s.platform r) .word :: xs }
  let written := { before with regs := setReg s.regs v r }
  let taken := { written with script := xs }
  have hidle : taken.regs.status.busy = false := by
    rw [show taken.regs.status = s.regs.status from (setReg_frame s.regs v r).1, hb]
  obtain ⟨hregs, -, hmem⟩ := readWindow_frame (regOffset r) taken
  refine ⟨written, readWindow (regOffset r) taken, ?_, ?_, ?_, hregs, hmem, fun r' hr' => regValue_setReg_other _ _ hr',
    ?_, ?_, ?_⟩
  · rw [step_idle_write hb (windowOffset_regAddr _ _) hs]
    exact congrArg _ (writeWindow_reg (s := before) hb hcmd v)
  · exact step_idle_read (s := written) hidle (windowOffset_regAddr s.platform r) rfl
  · rw [readWindow_idle_rdata hidle]
    exact regValue_setReg_same s.regs v hcmd hstatus houtlen hgfres
  · rintro j k hk rfl
    simp [written, setReg, columnByte_columnOfWord v hk]
  · rintro j k hk rfl
    simp [written, setReg, blockByte_column _ _ hk, columnByte_columnOfWord v hk]
  · rintro j k hk rfl
    simp [written, setReg, blockByte_column _ _ hk, columnByte_columnOfWord v hk]

/-- Settles O45: the offset is reserved, or a register's, whose value is read. -/
theorem readOnlyAndReservedOffsets : Obligations.ReadOnlyAndReservedOffsets := by
  intro s off v xs hoff halign hb
  have hoffset := windowOffset_byteAddr s.platform hoff halign
  refine ⟨fun h hs => ?_, fun hs => ?_⟩
  · let taken := { s with script := xs }
    rw [step_idle_write hb hoffset hs]
    refine congrArg _ ?_
    rcases h with rfl | rfl | rfl | h | h
    · exact writeWindow_reg (s := taken) (r := .status) hb (by decide) v
    · exact writeWindow_reg (s := taken) (r := .outlen) hb (by decide) v
    · exact writeWindow_reg (s := taken) (r := .gfres) hb (by decide) v
    · exact writeWindow_reserved (regAt_reserved (.inl h)) v
    · exact writeWindow_reserved (regAt_reserved (.inr h)) v
  · let taken := { s with script := xs }
    have hvalue : ∀ r, off = regOffset r → (readWindow off taken).rdata = regValue s.regs r := fun r hr => by
      rw [hr]
      exact readWindow_idle_rdata (s := taken) hb r
    refine ⟨readWindow off taken, step_idle_read hb hoffset hs, (readWindow_frame off taken).1,
      fun h => readWindow_reserved_rdata (regAt_reserved h) taken, hvalue, fun h => ?_, fun h => ?_, fun h => ?_,
      fun h => ?_⟩
    · exact (hvalue .status h).trans (statusWord_eq_ofNat _)
    · rw [hvalue .status h]
      exact statusWord_reserved _
    · rw [hvalue .gfop h]
      exact setWidth_gfop_reserved _
    · rw [hvalue .gfres h]
      exact setWidth_gfres_reserved _

/-- Settles O55: every offset named is a register's, and each byte of an array word stands in its lane. -/
theorem idleReadsFollowRegisterMap : Obligations.IdleReadsFollowRegisterMap := by
  intro s off xs hoff hb hs halign
  let taken := { s with script := xs }
  have hvalue : ∀ r, off = regOffset r → (readWindow off taken).rdata = regValue s.regs r := fun r hr => by
    rw [hr]
    exact readWindow_idle_rdata (s := taken) hb r
  obtain ⟨hregs, hinternal, hmem⟩ := readWindow_frame off taken
  refine ⟨readWindow off taken, step_idle_read hb (windowOffset_byteAddr s.platform hoff halign) hs, hregs, hinternal,
    hmem, hvalue .cmd, fun h => ?_, hvalue .keylen, hvalue .noncelen, hvalue .src, hvalue .dst, hvalue .len,
    hvalue .cap, hvalue .outlen, fun h => ?_, fun h => ?_,
    fun k hk => ⟨fun j hj h => ?_, fun j hj h => ?_, fun j hj h => ?_⟩⟩
  · rw [hvalue .status h]
    exact statusWord_idle_toNat hb
  · rw [hvalue .gfop h]
    exact BitVec.toNat_setWidth_of_le (by omega)
  · rw [hvalue .gfres h]
    exact BitVec.toNat_setWidth_of_le (by omega)
  · rw [hvalue (.key ⟨j, hj⟩) h]
    exact wordOfColumn_lane _ hk
  · rw [hvalue (.iv ⟨j, hj⟩) h, blockByte_column _ _ hk]
    exact wordOfColumn_lane _ hk
  · rw [hvalue (.state ⟨j, hj⟩) h, blockByte_column _ _ hk]
    exact wordOfColumn_lane _ hk

end Sys2Proof.Proofs

/-! ## The platform (20_memory.md R62) -/

namespace Sys2Proof.Machine

theorem writeWindow_platform (off : Nat) (v : Word) (s : State) : (writeWindow off v s).platform = s.platform := by
  obtain hw | ⟨-, -, hw⟩ | ⟨-, r, -, hw⟩ := writeWindow_cases off v s <;> rw [hw]
  exact issue_platform v s

theorem readWindow_platform (off : Nat) (s : State) : (readWindow off s).platform = s.platform := by
  obtain ⟨rdata, draws, owned, hr⟩ := readWindow_form off s
  rw [hr]

theorem assertReset_platform (s : State) : (assertReset s).platform = s.platform := by
  cases hb : s.regs.status.busy with
  | false => rw [assertReset_idle hb, resetEngine_platform]
  | true =>
    rw [assertReset_busy hb]
    exact resetEngine_platform s

theorem hostAct_platform {x : HostAct} {s t : State} (h : hostAct x s = .next t) : t.platform = s.platform := by
  obtain ⟨off, v, rfl⟩ | ⟨off, rfl⟩ | rfl | rfl | ⟨a, bs, rfl⟩ | ⟨a, rfl⟩ | rfl | rfl := hostAct_cases h
  · exact writeWindow_platform off v s
  · exact readWindow_platform off s
  · exact readStatus_platform s
  · exact readStatus_platform s
  · rfl
  · rfl
  · exact assertReset_platform s
  · rfl

theorem hostTurn_platform {s t : State} (h : hostTurn s = .next t) : t.platform = s.platform := by
  obtain ⟨-, hn⟩ | ⟨x, xs, -, hn⟩ := hostTurn_cases s <;> rw [hn] at h
  · cases h; rfl
  · exact hostAct_platform (s := { s with script := xs }) h

theorem runCommand_platform {s t : State} (h : runCommand s = .next t) : t.platform = s.platform := by
  obtain ⟨code, u, state, gfres, hr, hu⟩ := runCommand_inversion s
  rw [hr] at h
  cases h
  exact hu.platform

end Sys2Proof.Machine

namespace Sys2Proof.Proofs

open Sys2Proof.Machine

/-- Settles O39: neither a completion nor a host action writes the platform. -/
theorem stepKeepsPlatform : Obligations.StepKeepsPlatform := by
  intro s t h
  obtain ⟨-, -, hs⟩ | ⟨-, -, hs⟩ | ⟨-, hs⟩ := step_cases s <;> rw [hs] at h
  · exact runCommand_platform h
  · exact hostTurn_platform (s := { s with countdown := s.countdown - 1 }) h
  · exact hostTurn_platform h

end Sys2Proof.Proofs

/-! ## The host's accesses to buffer memory (20_memory.md R69) -/

namespace Sys2Proof.Machine

open Sys2Proof.Reference

@[simp] theorem byteAddr_zero (a : Word) : byteAddr a 0 = a := by
  simp [byteAddr]

theorem byteAddr_byteAddr (a : Word) (i k : Nat) : byteAddr (byteAddr a i) k = byteAddr a (i + k) := by
  rw [byteAddr, byteAddr, byteAddr, BitVec.ofNat_add, BitVec.add_assoc]

@[simp] theorem byteAddr_add_one (a : Word) (k : Nat) : byteAddr (a + 1#32) k = byteAddr a (k + 1) := by
  rw [Nat.add_comm]
  exact byteAddr_byteAddr a 1 k

/-- When the host acts next, the step is its action, on a state that differs in the script and the cycles left. -/
theorem step_hostIsNext {s : State} {x : HostAct} {xs : List HostAct} (h : HostIsNext s x xs) :
    ∃ c, step s = hostAct x { s with script := xs, countdown := c } := by
  obtain ⟨hs, hbusy⟩ := h
  cases hb : s.regs.status.busy with
  | false => exact ⟨s.countdown, step_idle hb hs⟩
  | true => exact ⟨s.countdown - 1, step_busy hb (hbusy hb) hs⟩

/-- Among `n` ascending addresses the search for an owned one finds none, if none is owned. -/
theorem firstOwned_eq_none_iff (s : State) (n : Nat) (a : Word) :
    firstOwned s n a = none ↔ ∀ k < n, ownedByte s (byteAddr a k) = false := by
  induction n generalizing a with
  | zero => simp [firstOwned]
  | succ n ih =>
    rw [Nat.forall_lt_succ_left, byteAddr_zero, firstOwned]
    cases ownedByte s a with
    | true => simp
    | false => simpa using ih (a + 1)

theorem hostAct_readMem_owned {s : State} {a : Word} (h : ownedByte s a = true) :
    hostAct (.readMem a) s = .fault (.hostRace a) := if_pos h

theorem hostAct_readMem_free {s : State} {a : Word} (h : ownedByte s a = false) :
    hostAct (.readMem a) s = .next { s with rdata := (s.mem.read a.toNat).setWidth 32 } := by
  simp [hostAct, h]

theorem hostAct_writeMem_owned {s : State} {a : Word} {bs : List Byte}
    (h : ∃ k < bs.length, ownedByte s (byteAddr a k) = true) : ∃ x, hostAct (.writeMem a bs) s = .fault (.hostRace x) := by
  cases hf : firstOwned s bs.length a with
  | some x => exact ⟨x, by simp only [hostAct, hf]⟩
  | none =>
    obtain ⟨k, hk, howned⟩ := h
    exact absurd ((firstOwned_eq_none_iff s _ a).1 hf k hk) (by simp [howned])

theorem hostAct_writeMem_free {s : State} {a : Word} {bs : List Byte}
    (h : ∀ k < bs.length, ownedByte s (byteAddr a k) = false) :
    hostAct (.writeMem a bs) s = .next { s with mem := Memory.writeBytes bs a s.mem } := by
  simp only [hostAct, (firstOwned_eq_none_iff s _ a).2 h]

theorem readWindow_status (s : State) : readWindow (regOffset .status) s = readStatus s := by
  simp only [readWindow, regAt_regOffset]

end Sys2Proof.Machine

namespace Sys2Proof.Proofs

open Sys2Proof.Machine Sys2Proof.Reference

/-- Settles O47: the ownership, which decides whether the action faults, is not touched by taking the action. -/
theorem hostAccessToOwnedBytesFaults : Obligations.HostAccessToOwnedBytesFaults := by
  intro s a bs xs
  refine ⟨fun hnext => ?_, fun hnext => ?_, fun hnext => ?_⟩ <;> obtain ⟨c, hstep⟩ := step_hostIsNext hnext <;>
    rw [hstep]
  · exact ⟨fun howned => ⟨a, hostAct_readMem_owned howned⟩,
      fun hfree => ⟨_, hostAct_readMem_free hfree, rfl, rfl, rfl⟩⟩
  · exact ⟨fun howned => hostAct_writeMem_owned howned, fun hfree => ⟨_, hostAct_writeMem_free hfree, rfl, rfl⟩⟩
  · refine ⟨_, hostAct_readReg (windowOffset_regAddr s.platform .status), ?_⟩
    rw [readWindow_status]
    exact readStatus_owned _

end Sys2Proof.Proofs

/-! ## Bounds and record of a command's accesses (20_memory.md R62, R66) -/

namespace Sys2Proof.Machine

open Sys2Proof.Reference

/-- The accesses a command may make lie in its source or destination. -/
theorem allowedAccess_inBounds {i : Instr} {r : Regs} {kind : AccessKind} {a : Word} (h : allowedAccess i r kind a) :
    IsMode i = true ∧ if i = .ctr ∨ kind = .read then ∃ k < r.len.toNat, a = byteAddr r.src k
      else ∃ k < r.cap.toNat, a = byteAddr r.dst k := by
  cases i with
  | ecbEnc | ecbDec | cbcEnc | cbcDec =>
    refine ⟨rfl, ?_⟩
    cases kind with
    | read => rwa [if_pos (.inr rfl)]
    | write => rwa [if_neg (by simp)]
  | ctr => exact ⟨rfl, by rwa [if_pos (.inl rfl)]⟩
  | _ => exact h.elim

end Sys2Proof.Machine

namespace Sys2Proof.Proofs

open Sys2Proof.Machine Sys2Proof.Reference

/-- Settles O31: `exec_inversion` with the bounds of the accesses it allows. -/
theorem accessesStayInBounds : Obligations.AccessesStayInBounds := by
  intro i s t h
  obtain ⟨code, u, state, gfres, he, hu⟩ := exec_inversion i s
  rw [he] at h
  cases h
  obtain ⟨xs, htrace, -, -, hall⟩ := hu.accesses
  refine ⟨xs, htrace, fun hi => List.eq_nil_iff_forall_not_mem.2 fun x hx => ?_, fun x hx => ?_⟩
  · rw [(allowedAccess_inBounds (hall x hx).2).1] at hi
    cases hi
  · exact ⟨(hall x hx).1, (allowedAccess_inBounds (hall x hx).2).2⟩

/-- Settles O32: a run's memory, trace and byte count tell the same accesses, and the completion reports the count. -/
theorem traceAccountsForMemory : Obligations.TraceAccountsForMemory := by
  intro i s t hnwr h
  obtain ⟨code, u, state, gfres, he, hu⟩ := exec_inversion i s
  rw [he] at h
  cases h
  obtain ⟨xs, htrace, hmem, hcount, -⟩ := hu.accesses
  exact ⟨xs, htrace, hmem, by simp [hcount, hnwr, writeCount]⟩

end Sys2Proof.Proofs

/-! ## A command as its list of accesses (20_memory.md R62, R67) -/

namespace Sys2Proof.Machine

open Sys2Proof.Reference

/-- Is the access one that the platform admits (20_memory.md R62)? -/
def Access.admitted (p : Platform) (x : Access) : Bool := memAdmit p x.kind x.addr

/-- The byte writes among accesses given oldest first. -/
def writesOf (xs : List Access) : List (Word × Byte) := tracedWrites xs.reverse

@[simp] theorem writesOf_nil : writesOf [] = [] := rfl

@[simp] theorem writesOf_append (xs ys : List Access) : writesOf (xs ++ ys) = writesOf xs ++ writesOf ys := by
  simp [writesOf]

@[simp] theorem writesOf_cons_read (a : Word) (b : Byte) (xs : List Access) :
    writesOf (⟨.read, a, b⟩ :: xs) = writesOf xs := by
  simp [writesOf]

@[simp] theorem writesOf_cons_write (a : Word) (b : Byte) (xs : List Access) :
    writesOf (⟨.write, a, b⟩ :: xs) = (a, b) :: writesOf xs := by
  simp [writesOf]

/-- The state in which the accesses `xs`, oldest first, have been made. -/
def afterAccesses (xs : List Access) (s : State) : State :=
  { s with
    mem := applyWrites (writesOf xs) s.mem
    internal := { s.internal with nwr := s.internal.nwr + BitVec.ofNat 32 (writesOf xs).length }
    trace := xs.reverse ++ s.trace }

@[simp] theorem afterAccesses_regs (xs : List Access) (s : State) : (afterAccesses xs s).regs = s.regs := rfl
@[simp] theorem afterAccesses_platform (xs : List Access) (s : State) :
    (afterAccesses xs s).platform = s.platform := rfl
@[simp] theorem afterAccesses_mem (xs : List Access) (s : State) :
    (afterAccesses xs s).mem = applyWrites (writesOf xs) s.mem := rfl
@[simp] theorem afterAccesses_internal (xs : List Access) (s : State) : (afterAccesses xs s).internal =
    { s.internal with nwr := s.internal.nwr + BitVec.ofNat 32 (writesOf xs).length } := rfl
@[simp] theorem afterAccesses_trace (xs : List Access) (s : State) :
    (afterAccesses xs s).trace = xs.reverse ++ s.trace := rfl

@[simp] theorem afterAccesses_nil (s : State) : afterAccesses [] s = s := by
  simp [afterAccesses, applyWrites]

theorem afterAccesses_append (xs ys : List Access) (s : State) :
    afterAccesses (xs ++ ys) s = afterAccesses ys (afterAccesses xs s) := by
  simp [afterAccesses, BitVec.ofNat_add, BitVec.add_assoc]

/-- The completion of a command that makes the accesses `xs`, oldest first, and then ends with `code`, or at the first
access that the platform refuses with `BUS_ERROR` (20_memory.md R62; 60_exceptions.md R228). -/
def accessesOutcome (xs : List Access) (code : ErrCode) (s : State) : State :=
  complete (if xs.all (·.admitted s.platform) then code else .busError)
    (afterAccesses (xs.takeWhile (·.admitted s.platform)) s)

theorem accessesOutcome_nil (code : ErrCode) (s : State) : accessesOutcome [] code s = complete code s := by
  simp [accessesOutcome]

theorem accessesOutcome_cons {x : Access} {s : State} (h : x.admitted s.platform = true) (xs : List Access)
    (code : ErrCode) : accessesOutcome (x :: xs) code s = accessesOutcome xs code (afterAccesses [x] s) := by
  simp only [accessesOutcome, List.all_cons, h, Bool.true_and, List.takeWhile_cons, if_true, afterAccesses_platform]
  exact congrArg _ (afterAccesses_append [x] _ s)

theorem accessesOutcome_cons_refused {x : Access} {s : State} (h : x.admitted s.platform = false) (xs : List Access)
    (code : ErrCode) : accessesOutcome (x :: xs) code s = complete .busError s := by
  simp [accessesOutcome, h]

theorem accessesOutcome_append {ys : List Access} {s : State} (h : ∀ y ∈ ys, y.admitted s.platform = true)
    (xs : List Access) (code : ErrCode) :
    accessesOutcome (ys ++ xs) code s = accessesOutcome xs code (afterAccesses ys s) := by
  induction ys generalizing s with
  | nil => simp
  | cons y ys ih =>
    obtain ⟨hy, hys⟩ := List.forall_mem_cons.1 h
    rw [List.cons_append, accessesOutcome_cons hy, ih (s := afterAccesses [y] s) hys, ← afterAccesses_append]
    rfl

theorem accessesOutcome_admitted {xs : List Access} {s : State} (h : ∀ x ∈ xs, x.admitted s.platform = true)
    (code : ErrCode) : accessesOutcome xs code s = complete code (afterAccesses xs s) := by
  simpa [accessesOutcome_nil] using accessesOutcome_append h [] code

/-- The first refused access ends the command: those before it stay made. -/
theorem accessesOutcome_refused {ys : List Access} {x : Access} {s : State}
    (h : ∀ y ∈ ys, y.admitted s.platform = true) (hx : x.admitted s.platform = false) (xs : List Access)
    (code : ErrCode) : accessesOutcome (ys ++ x :: xs) code s = complete .busError (afterAccesses ys s) := by
  rw [accessesOutcome_append h, accessesOutcome_cons_refused (s := afterAccesses ys s) hx]

/-- Internal registers other than `NWR` do not show in the outcome. -/
theorem accessesOutcome_of_internal {s t : State} (ht : t = { s with internal := t.internal })
    (hnwr : t.internal.nwr = s.internal.nwr) (xs : List Access) (code : ErrCode) :
    accessesOutcome xs code t = accessesOutcome xs code s := by
  rw [ht]
  simp [accessesOutcome, complete, hnwr, afterAccesses]

theorem Run.andThen_assoc {α β γ : Type} (r : Run α) (f : α → State → Run β) (g : β → State → Run γ) :
    (r.andThen f).andThen g = r.andThen fun v s => (f v s).andThen g := by
  cases r <;> rfl

theorem finish_busRead_andThen {a : Word} {s : State} {k : Byte → State → Run Unit} {xs : List Access} {code : ErrCode}
    (h : let t := afterAccesses [⟨.read, a, s.mem.read a.toNat⟩] s
      finish (k (s.mem.read a.toNat) t) = .next (accessesOutcome xs code t)) :
    finish ((busRead a s).andThen k) = .next (accessesOutcome (⟨.read, a, s.mem.read a.toNat⟩ :: xs) code s) := by
  cases ha : Access.admitted s.platform ⟨.read, a, s.mem.read a.toNat⟩ with
  | false =>
    rw [accessesOutcome_cons_refused ha, busRead, show memAdmit s.platform .read a = false from ha]
    rfl
  | true =>
    rw [accessesOutcome_cons ha, ← h, busRead, show memAdmit s.platform .read a = true from ha]
    simp [traceAccess, afterAccesses, applyWrites]

theorem finish_busWrite_andThen {a : Word} {b : Byte} {s : State} {k : Unit → State → Run Unit} {xs : List Access}
    {code : ErrCode}
    (h : let t := afterAccesses [⟨.write, a, b⟩] s
      finish (k () t) = .next (accessesOutcome xs code t)) :
    finish ((busWrite a b s).andThen k) = .next (accessesOutcome (⟨.write, a, b⟩ :: xs) code s) := by
  cases ha : Access.admitted s.platform ⟨.write, a, b⟩ with
  | false =>
    rw [accessesOutcome_cons_refused ha, busWrite, show memAdmit s.platform .write a = false from ha]
    rfl
  | true =>
    rw [accessesOutcome_cons ha, ← h, busWrite, show memAdmit s.platform .write a = true from ha]
    simp [traceAccess, storeByte, afterAccesses, applyWrites]

/-- The reads of `n` ascending bytes of a memory. -/
def readAccesses : Nat → Word → Memory → List Access
  | 0, _, _ => []
  | n + 1, a, m => ⟨.read, a, m.read a.toNat⟩ :: readAccesses n (a + 1) m

/-- The writes of bytes at ascending addresses. -/
def writeAccesses : List Byte → Word → List Access
  | [], _ => []
  | b :: bs, a => ⟨.write, a, b⟩ :: writeAccesses bs (a + 1)

@[simp] theorem writesOf_readAccesses (n : Nat) (a : Word) (m : Memory) : writesOf (readAccesses n a m) = [] := by
  induction n generalizing a with
  | zero => rfl
  | succ n ih => simp [readAccesses, ih]

@[simp] theorem length_writesOf_writeAccesses (bs : List Byte) (a : Word) :
    (writesOf (writeAccesses bs a)).length = bs.length := by
  induction bs generalizing a with
  | nil => rfl
  | cons b bs ih => simp [writeAccesses, ih]

@[simp] theorem applyWrites_writeAccesses (bs : List Byte) (a : Word) (m : Memory) :
    applyWrites (writesOf (writeAccesses bs a)) m = Memory.writeBytes bs a m := by
  induction bs generalizing a m with
  | nil => rfl
  | cons b bs ih => simp [writeAccesses, applyWrites, Memory.writeBytes, ih]

theorem readAccesses_append (n n' : Nat) (a : Word) (m : Memory) :
    readAccesses (n + n') a m = readAccesses n a m ++ readAccesses n' (byteAddr a n) m := by
  induction n generalizing a with
  | zero => simp [readAccesses]
  | succ n ih => simp [Nat.add_right_comm n 1 n', readAccesses, ih]

theorem writeAccesses_append (bs bs' : List Byte) (a : Word) :
    writeAccesses (bs ++ bs') a = writeAccesses bs a ++ writeAccesses bs' (byteAddr a bs.length) := by
  induction bs generalizing a with
  | nil => simp [writeAccesses]
  | cons b bs ih => simp [writeAccesses, ih]

/-- Kinds and addresses of ascending reads, in their order. -/
theorem map_readAccesses (n : Nat) (a : Word) (m : Memory) :
    (readAccesses n a m).map (fun x => (x.kind, x.addr)) =
      (List.range n).map fun k => (AccessKind.read, byteAddr a k) := by
  induction n generalizing a with
  | zero => rfl
  | succ n ih => simp [readAccesses, ih, List.range_succ_eq_map]

/-- Kinds and addresses of ascending writes, in their order. -/
theorem map_writeAccesses (bs : List Byte) (a : Word) :
    (writeAccesses bs a).map (fun x => (x.kind, x.addr)) =
      (List.range bs.length).map fun k => (AccessKind.write, byteAddr a k) := by
  induction bs generalizing a with
  | nil => rfl
  | cons b bs ih => simp [writeAccesses, ih, List.range_succ_eq_map]

theorem finish_memRead_andThen {n : Nat} {a : Word} {s : State} {k : List Byte → State → Run Unit} {xs : List Access}
    {code : ErrCode}
    (h : let t := afterAccesses (readAccesses n a s.mem) s
      finish (k (Memory.readBytes n a s.mem) t) = .next (accessesOutcome xs code t)) :
    finish ((memRead n a s).andThen k) = .next (accessesOutcome (readAccesses n a s.mem ++ xs) code s) := by
  induction n generalizing a s k with
  | zero => simpa [memRead, readAccesses, Memory.readBytes] using h
  | succ n ih =>
    rw [memRead, Run.andThen_assoc]
    refine finish_busRead_andThen ?_
    simp only [Run.andThen_assoc, Run.done_andThen]
    refine ih (s := afterAccesses [⟨.read, a, s.mem.read a.toNat⟩] s) ?_
    simp only [← afterAccesses_append]
    exact h

theorem finish_memWrite_andThen {bs : List Byte} {a : Word} {s : State} {k : Unit → State → Run Unit}
    {xs : List Access} {code : ErrCode}
    (h : let t := afterAccesses (writeAccesses bs a) s
      finish (k () t) = .next (accessesOutcome xs code t)) :
    finish ((memWrite bs a s).andThen k) = .next (accessesOutcome (writeAccesses bs a ++ xs) code s) := by
  induction bs generalizing a s with
  | nil => simpa [memWrite, writeAccesses] using h
  | cons b bs ih =>
    rw [memWrite, Run.andThen_assoc]
    refine finish_busWrite_andThen (ih ?_)
    simp only [← afterAccesses_append]
    exact h

end Sys2Proof.Machine

/-! ## Blocks in memory (20_memory.md R61, R63, R64) -/

namespace Sys2Proof.Machine

open Sys2Proof.Reference

theorem byteAddr_inj {a : Word} {i k : Nat} (hi : i < 2 ^ 32) (hk : k < 2 ^ 32) (h : byteAddr a i = byteAddr a k) :
    i = k := by
  rw [← byteAddr_sub_toNat a hi, h, byteAddr_sub_toNat a hk]

theorem Memory.writeBytes_append (bs bs' : List Byte) (a : Word) (m : Memory) :
    writeBytes (bs ++ bs') a m = writeBytes bs' (byteAddr a bs.length) (writeBytes bs a m) := by
  induction bs generalizing a m with
  | nil => simp [writeBytes]
  | cons b bs ih => simp [writeBytes, ih]

/-- A byte that no write of a sequence names reads as before. -/
theorem Memory.read_writeBytes_other {bs : List Byte} {a x : Word} (h : ∀ k < bs.length, byteAddr a k ≠ x)
    (m : Memory) : (writeBytes bs a m).read x.toNat = m.read x.toNat := by
  induction bs generalizing a m with
  | nil => rfl
  | cons b bs ih =>
    have hne : x.toNat ≠ a.toNat := fun he =>
      h 0 (by simp) (by rw [byteAddr_zero, BitVec.eq_of_toNat_eq he])
    rw [writeBytes, ih, read_write, if_neg hne]
    intro k hk
    simpa using h (k + 1) (by simpa using hk)

/-- A byte sequence no longer than the address space is read back byte by byte. -/
theorem Memory.read_writeBytes {bs : List Byte} (hlen : bs.length ≤ 2 ^ 32) (a : Word) (m : Memory) {k : Nat}
    (hk : k < bs.length) : (writeBytes bs a m).read (byteAddr a k).toNat = bs[k] := by
  induction bs generalizing a m k with
  | nil => exact absurd hk (Nat.not_lt_zero k)
  | cons b bs ih =>
    rw [List.length_cons] at hlen hk
    cases k with
    | zero =>
      rw [writeBytes, byteAddr_zero, read_writeBytes_other, read_write, if_pos rfl]
      · rfl
      · intro k hk' he
        have hfirst : byteAddr a (k + 1) = byteAddr a 0 := by simpa using he
        exact absurd (byteAddr_inj (by omega) (by omega) hfirst) (by omega)
    | succ k =>
      rw [← byteAddr_add_one]
      exact ih (by omega) (a + 1) _ (by omega)

theorem Memory.readBytes_eq_map (n : Nat) (a : Word) (m : Memory) :
    readBytes n a m = (List.range n).map fun k => m.read (byteAddr a k).toNat :=
  List.ext_getElem (by simp) fun k hk _ => by
    rw [readBytes_getElem, List.getElem_map, List.getElem_range]
    rfl

theorem memoryBlock_eq (m : Memory) (a : Word) : memoryBlock m a = blockOfBytes (Memory.readBytes 16 a m) := by
  rw [memoryBlock, Memory.readBytes_eq_map]

theorem blockBytes_eq_map (b : Block) : blockBytes b = (List.range 16).map (blockByte b) := rfl

@[simp] theorem blockOfBytes_blockBytes (b : Block) : blockOfBytes (blockBytes b) = b := rfl

theorem blockBytes_getElem (b : Block) {k : Nat} (hk : k < (blockBytes b).length) :
    (blockBytes b)[k] = blockByte b k := by
  simp [blockBytes_eq_map]

theorem blockByte_blockOfBytes_map (f : Nat → Byte) {k : Nat} (hk : k < 16) :
    blockByte (blockOfBytes ((List.range 16).map f)) k = f k := by
  interval_cases k <;> rfl

/-- A block is its sixteen bytes. -/
theorem Block.ext_blockByte {b b' : Block} (h : ∀ k < 16, blockByte b k = blockByte b' k) : b = b' := by
  rw [← blockOfBytes_blockBytes b, ← blockOfBytes_blockBytes b', blockBytes_eq_map, blockBytes_eq_map]
  exact congrArg _ (List.map_congr_left fun k hk => h k (List.mem_range.1 hk))

theorem memoryBlock_congr {m m' : Memory} {a : Word}
    (h : ∀ k < 16, m.read (byteAddr a k).toNat = m'.read (byteAddr a k).toNat) :
    memoryBlock m a = memoryBlock m' a :=
  congrArg _ (List.map_congr_left fun k hk => h k (List.mem_range.1 hk))

/-- The data bytes read, filled up with the pad value, are the block of the padded data (43_modes.md R174, R180). -/
theorem padBlock_readBytes (r : Regs) (m : Memory) (j : Nat) :
    padBlock (dataLength r) (Memory.readBytes (blockDataLength (dataLength r) j) (srcBlock r j) m) =
      plainBlock r m j := by
  refine congrArg blockOfBytes (List.ext_getElem (by simp [blockDataLength]) fun k hk hk' => ?_)
  simp only [List.getElem_append, Memory.readBytes_length, List.getElem_map, List.getElem_range, plainByte]
  simp only [List.length_map, List.length_range] at hk'
  by_cases hd : k < blockDataLength (dataLength r) j
  · have hlt : 16 * j + k < r.len.toNat := by simp only [blockDataLength, dataLength] at hd; omega
    rw [dif_pos hd, if_pos hlt, Memory.readBytes_getElem]
    exact congrArg (fun a : Word => m.read a.toNat) (byteAddr_byteAddr r.src (16 * j) k)
  · have hge : ¬ 16 * j + k < r.len.toNat := by simp only [blockDataLength, dataLength] at hd; omega
    rw [dif_neg hd, if_neg hge, List.getElem_replicate]
    rfl

theorem xorColumn_zero (c : Column) : xorColumn c .zero = c := by
  simp [xorColumn, Column.zero]

@[simp] theorem xorBlock_zero (b : Block) : xorBlock b .zero = b := by
  simp [xorBlock, Block.zero, xorColumn_zero]

theorem xorColumn_cancel_right (a b : Column) : xorColumn (xorColumn a b) b = a := by
  simp [xorColumn]

theorem xorBlock_cancel_right (a b : Block) : xorBlock (xorBlock a b) b = a := by
  simp [xorBlock, xorColumn_cancel_right]

/-- The key words of a valid key are its first `Nk` columns, so its schedule is the one the statements speak of. -/
theorem expandKey_keyWords {r : Regs} (h : ValidKey r) : expandKey (keyWords r) = schedule r := by
  have hwords : keyWords r = (List.range (keyWordsOf r)).map (keyColumn r.key) := by
    rcases h with h | h | h <;> simp only [keyWords, keyWordCount, keyWordsOf, h] <;> rfl
  rw [schedule, hwords]

end Sys2Proof.Machine

/-! ## The block modes (43_modes.md R180 to R183), encryption and decryption alike

A `BlockRun` is an ECB or CBC command as the reference functions read it, seen from the state at its issue. The machine's
four loops are each shown once to make the accesses of such a run. -/

namespace Sys2Proof.Machine

open Sys2Proof.Reference

/-- An ECB or CBC command: what it makes of block `j`, given memory and the chaining value before it (an output block and
the chaining value behind it), which bytes of an output block it writes, and what it starts from. -/
structure BlockRun where
  step : Nat → Memory → Block → Block × Block
  out : Nat → Block → List Byte
  regs : Regs
  mem : Memory
  chain : Block

namespace BlockRun

/-- Memory and chaining value after the first `n` blocks, each read from what the blocks before it left and written out
whole. -/
def after (B : BlockRun) (n : Nat) : Memory × Block :=
  (List.range n).foldl (fun p j =>
    (Memory.writeBytes (blockBytes (B.step j p.1 p.2).1) (byteAddr B.regs.dst (16 * j)) p.1, (B.step j p.1 p.2).2))
    (B.mem, B.chain)

/-- Output block `j`. -/
def block (B : BlockRun) (j : Nat) : Block := (B.step j (B.after j).1 (B.after j).2).1

theorem after_succ (B : BlockRun) (j : Nat) : B.after (j + 1) =
    (Memory.writeBytes (blockBytes (B.block j)) (byteAddr B.regs.dst (16 * j)) (B.after j).1,
      (B.step j (B.after j).1 (B.after j).2).2) := by
  rw [after, List.range_succ, List.foldl_append]
  rfl

/-- The accesses of block `j`: all its reads, then all its writes (20_memory.md R67). -/
def accesses (B : BlockRun) (j : Nat) : List Access :=
  readAccesses (blockDataLength (dataLength B.regs) j) (srcBlock B.regs j) (B.after j).1 ++
    writeAccesses (B.out j (B.block j)) (dstBlock B.regs j)

/-- The state of the machine before block `j`, as far as ECB and CBC have it in common. -/
structure At (B : BlockRun) (j : Nat) (u : State) : Prop where
  regs : u.regs = B.regs
  rk : u.internal.rk = schedule B.regs
  mem : u.mem = (B.after j).1

theorem At.of_internal {B : BlockRun} {j : Nat} {u w : State} (h : B.At j u) (hw : w = { u with internal := w.internal })
    (hrk : w.internal.rk = u.internal.rk) : B.At j w := by
  refine ⟨?_, hrk.trans h.rk, ?_⟩ <;> rw [hw]
  · exact h.regs
  · exact h.mem

theorem At.afterReads {B : BlockRun} {j : Nat} {u : State} (h : B.At j u) (n : Nat) (a : Word) (m : Memory) :
    B.At j (afterAccesses (readAccesses n a m) u) :=
  ⟨h.regs, h.rk, by simpa [applyWrites] using h.mem⟩

/-- A block written out whole leads to the next one. -/
theorem At.afterBlock {B : BlockRun} {j : Nat} {u : State} (h : B.At j u) :
    B.At (j + 1) (afterAccesses (writeAccesses (blockBytes (B.block j)) (dstBlock B.regs j)) u) :=
  ⟨h.regs, h.rk, by rw [after_succ, afterAccesses_mem, applyWrites_writeAccesses, h.mem]; rfl⟩

end BlockRun

/-- What encryption makes of block `j` of the padded data (43_modes.md R180, R182). -/
def encryptStep (cbc : Bool) (r : Regs) (j : Nat) (m : Memory) (chain : Block) : Block × Block :=
  let c := cipher (schedule r) (xorBlock (plainBlock r m j) chain)
  (c, if cbc then c else .zero)

/-- What decryption makes of ciphertext block `j` (43_modes.md R181, R183). -/
def decryptStep (cbc : Bool) (r : Regs) (j : Nat) (m : Memory) (chain : Block) : Block × Block :=
  let c := memoryBlock m (byteAddr r.src (16 * j))
  (xorBlock (invCipher (schedule r) c) chain, if cbc then c else .zero)

/-- How the unpadding of a last block ends (43_modes.md R176, R177). -/
def unpadCode (r : Regs) (b : Block) : ErrCode :=
  if padValid b then if dataLength r - padLength b ≤ capacity r then .ok else .invalidBufferSize else .invalidKey

/-- The bytes of a last block that its unpadding lets out. -/
def unpaddedBytes (r : Regs) (b : Block) : List Byte :=
  if unpadCode r b = .ok then (blockBytes b).take (16 - padLength b) else []

/-- The bytes of decrypted block `j` that are written. -/
def decryptOut (pad : Bool) (r : Regs) (j : Nat) (b : Block) : List Byte :=
  if pad && 16 * (j + 1) == dataLength r then unpaddedBytes r b else blockBytes b

/-- `ECB_ENC` or `CBC_ENC` issued in a state. -/
def encryption (cbc iven : Bool) (s : State) : BlockRun where
  step := encryptStep cbc s.regs
  out _ := blockBytes
  regs := s.regs
  mem := s.mem
  chain := firstChain iven s.regs

/-- `ECB_DEC` or `CBC_DEC` issued in a state. -/
def decryption (cbc iven pad : Bool) (s : State) : BlockRun where
  step := decryptStep cbc s.regs
  out := decryptOut pad s.regs
  regs := s.regs
  mem := s.mem
  chain := firstChain iven s.regs

theorem encryption_after (cbc iven : Bool) (s : State) (n : Nat) :
    (encryption cbc iven s).after n = encryptBlocks cbc s.regs n s.mem (firstChain iven s.regs) := rfl

theorem decryption_after (cbc iven pad : Bool) (s : State) (n : Nat) :
    (decryption cbc iven pad s).after n = decryptBlocks cbc s.regs n s.mem (firstChain iven s.regs) := rfl

/-- In ECB the chaining value stays zero. -/
theorem encryption_ecb_chain (s : State) (j : Nat) : ((encryption false false s).after j).2 = .zero := by
  cases j with
  | zero => rfl
  | succ j => rw [BlockRun.after_succ]; rfl

theorem decryption_ecb_chain (pad : Bool) (s : State) (j : Nat) : ((decryption false false pad s).after j).2 = .zero := by
  cases j with
  | zero => rfl
  | succ j => rw [BlockRun.after_succ]; rfl

/-- The body of both encryption loops: block `j` read, encrypted by `f` and written, with `k` behind it. -/
theorem finish_encryptBlock {B : BlockRun} {j : Nat} {u : State} (hu : B.At j u) (hout : B.out j = blockBytes)
    {f : State → Block} (hf : ∀ w, B.At j w → w.internal.blk = plainBlock B.regs (B.after j).1 j →
      w.internal.chain = u.internal.chain → f w = B.block j)
    {k : State → Run Unit} {xs : List Access} {code : ErrCode}
    (h : ∀ w, B.At (j + 1) w → w.internal.blk = B.block j → finish (k w) = .next (accessesOutcome xs code w)) :
    finish ((readPlainBlock j u).andThen fun _ s => (memWrite (blockBytes (f s)) (dstBlock s.regs j)
      (setBlk (f s) s)).andThen fun _ s => k s) = .next (accessesOutcome (B.accesses j ++ xs) code u) := by
  have hacc : B.accesses j = readAccesses (blockDataLength (dataLength u.regs) j) (srcBlock u.regs j) u.mem ++
      writeAccesses (blockBytes (B.block j)) (dstBlock u.regs j) := by
    rw [BlockRun.accesses, hout, hu.regs, hu.mem]
  rw [readPlainBlock, Run.andThen_assoc, hacc, List.append_assoc]
  refine finish_memRead_andThen ?_
  intro t
  rw [Run.done_andThen]
  have ht : B.At j t := hu.afterReads _ _ _
  have hpad : padBlock (dataLength t.regs)
      (Memory.readBytes (blockDataLength (dataLength u.regs) j) (srcBlock u.regs j) u.mem) =
        plainBlock B.regs (B.after j).1 j := by
    rw [ht.regs, hu.regs, hu.mem, padBlock_readBytes]
  rw [hpad]
  set w := setBlk (plainBlock B.regs (B.after j).1 j) t
  have hw : B.At j w := ht.of_internal rfl rfl
  rw [hf w hw rfl rfl, ← accessesOutcome_of_internal (s := t) (t := setBlk (B.block j) w) rfl rfl]
  refine finish_memWrite_andThen (h _ ?_ rfl)
  rw [hw.regs]
  exact BlockRun.At.afterBlock (hw.of_internal rfl rfl)

theorem finish_ecbEncBlocks {s u : State} (n j : Nat) (hu : (encryption false false s).At j u) :
    finish (ecbEncBlocks n j u) =
      .next (accessesOutcome ((List.range' j n).flatMap (encryption false false s).accesses) .ok u) := by
  induction n generalizing j u with
  | zero => exact (congrArg _ (accessesOutcome_nil .ok u)).symm
  | succ n ih =>
    refine finish_encryptBlock (k := ecbEncBlocks n (j + 1)) hu rfl (fun w hw hblk _ => ?_) fun w hw _ => ih (j + 1) hw
    rw [hw.rk, hblk, BlockRun.block, encryption_ecb_chain]
    simp [encryption, encryptStep]

theorem finish_cbcEncBlocks {iven : Bool} {s u : State} (n j : Nat) (hu : (encryption true iven s).At j u)
    (hchain : u.internal.chain = ((encryption true iven s).after j).2) :
    finish (cbcEncBlocks n j u) =
      .next (accessesOutcome ((List.range' j n).flatMap (encryption true iven s).accesses) .ok u) := by
  induction n generalizing j u with
  | zero => exact (congrArg _ (accessesOutcome_nil .ok u)).symm
  | succ n ih =>
    refine finish_encryptBlock (k := fun w => cbcEncBlocks n (j + 1) (setChain w.internal.blk w)) hu rfl
      (fun w hw hblk hch => ?_) fun w hw hblk => ?_
    · rw [hw.rk, hblk, hch, hchain]
      rfl
    · rw [← accessesOutcome_of_internal (t := setChain w.internal.blk w) rfl rfl]
      refine ih (j + 1) (hw.of_internal rfl rfl) ?_
      rw [setChain_internal, hblk, BlockRun.after_succ]
      rfl

end Sys2Proof.Machine

namespace Sys2Proof.Machine

open Sys2Proof.Reference

@[simp] theorem Run.andThen_done (r : Run Unit) : (r.andThen fun _ s => .done () s) = r := by
  cases r <;> rfl

theorem finish_memWrite (bs : List Byte) (a : Word) (s : State) :
    finish (memWrite bs a s) = .next (accessesOutcome (writeAccesses bs a) .ok s) := by
  rw [← Run.andThen_done (memWrite bs a s), ← List.append_nil (writeAccesses bs a)]
  exact finish_memWrite_andThen (congrArg _ (accessesOutcome_nil .ok _)).symm

/-- A last block with its padding to remove: it writes what its unpadding lets out, and ends with its code. -/
theorem finish_writePlainBlock_unpad (j : Nat) (w : State) : finish (writePlainBlock true j w) =
    .next (accessesOutcome (writeAccesses (unpaddedBytes w.regs w.internal.blk) (dstBlock w.regs j))
      (unpadCode w.regs w.internal.blk) w) := by
  rw [writePlainBlock, if_pos rfl, unpaddedBytes, unpadCode]
  cases padValid w.internal.blk with
  | false => exact (congrArg _ (accessesOutcome_nil .invalidKey w)).symm
  | true =>
    by_cases hcap : dataLength w.regs - padLength w.internal.blk ≤ capacity w.regs
    · simpa [hcap, not_lt.2 hcap] using finish_memWrite _ _ w
    · simp [hcap, not_le.1 hcap, writeAccesses, accessesOutcome_nil, finish]

/-- The body of both decryption loops: block `j`, with `n` blocks behind it, read, decrypted by `g` and written, with
`k` behind it. -/
theorem finish_decryptBlock {B : BlockRun} {pad : Bool} {n j : Nat} {u : State} (hu : B.At j u)
    (hout : B.out = decryptOut pad B.regs) (hlen : 16 * (j + (n + 1)) = dataLength B.regs)
    {g : List Byte → State → State} {chain : Block}
    (hg : ∀ t, t.internal.rk = schedule B.regs → t.internal.chain = u.internal.chain →
      g (Memory.readBytes 16 (srcBlock B.regs j) (B.after j).1) t = setChain chain (setBlk (B.block j) t))
    {k : State → Run Unit} {xs : List Access} {code : ErrCode} (hlast : n = 0 → k = .done () ∧ xs = [])
    (h : ∀ w, B.At (j + 1) w → w.internal.chain = chain → finish (k w) = .next (accessesOutcome xs code w)) :
    finish ((memRead 16 (srcBlock u.regs j) u).andThen fun c s =>
        (writePlainBlock (pad && n == 0) j (g c s)).andThen fun _ s => k s) =
      .next (accessesOutcome (B.accesses j ++ xs) (if pad && n == 0 then unpadCode B.regs (B.block j) else code) u) := by
  have hcount : blockDataLength (dataLength B.regs) j = 16 := by rw [blockDataLength]; omega
  have hunpad : (pad && 16 * (j + 1) == dataLength B.regs) = (pad && n == 0) := by
    rw [← hlen]
    cases pad <;> simp
  rw [BlockRun.accesses, hout, hcount, ← hu.regs, ← hu.mem, List.append_assoc]
  refine finish_memRead_andThen ?_
  intro t
  have ht : B.At j t := hu.afterReads _ _ _
  rw [hu.regs, hu.mem, hg t ht.rk rfl]
  set w := setChain chain (setBlk (B.block j) t)
  have hw : B.At j w := ht.of_internal rfl rfl
  rw [← accessesOutcome_of_internal (s := t) (t := w) rfl rfl, decryptOut, hunpad]
  cases hlastBlock : pad && n == 0 with
  | true =>
    obtain ⟨rfl, rfl⟩ := hlast (by simpa using (Bool.and_eq_true_iff.1 hlastBlock).2)
    rw [Run.andThen_done, finish_writePlainBlock_unpad, hw.regs, List.append_nil]
    rfl
  | false =>
    rw [← hw.regs]
    refine finish_memWrite_andThen (h _ ?_ rfl)
    rw [hw.regs]
    exact hw.afterBlock

/-- The code that the last `n` blocks of a decryption end with, from block `j` on, if no access is refused. -/
def decryptCode (pad : Bool) (B : BlockRun) (j n : Nat) : ErrCode :=
  if pad && n != 0 then unpadCode B.regs (B.block (j + n - 1)) else .ok

theorem decryptCode_succ (pad : Bool) (B : BlockRun) (j n : Nat) : decryptCode pad B j (n + 1) =
    if pad && n == 0 then unpadCode B.regs (B.block j) else decryptCode pad B (j + 1) n := by
  cases n with
  | zero => simp [decryptCode]
  | succ n => simp [decryptCode, Nat.add_right_comm j 1 (n + 1), ← Nat.add_assoc]

theorem finish_ecbDecBlocks {pad : Bool} {s u : State} (n j : Nat) (hu : (decryption false false pad s).At j u)
    (hlen : 16 * (j + n) = dataLength s.regs) :
    finish (ecbDecBlocks pad n j u) =
      .next (accessesOutcome ((List.range' j n).flatMap (decryption false false pad s).accesses)
        (decryptCode pad (decryption false false pad s) j n) u) := by
  induction n generalizing j u with
  | zero => simp [ecbDecBlocks, decryptCode, accessesOutcome_nil, finish]
  | succ n ih =>
    rw [decryptCode_succ]
    refine finish_decryptBlock (g := fun c t => setBlk (invCipher t.internal.rk (blockOfBytes c)) t)
      (chain := u.internal.chain) (k := ecbDecBlocks pad n (j + 1)) hu rfl hlen (fun t hrk hch => ?_)
      (fun hn => by subst hn; exact ⟨rfl, rfl⟩) fun w hw _ => ih (j + 1) hw (by omega)
    rw [hrk, ← hch, ← memoryBlock_eq, BlockRun.block, decryption_ecb_chain]
    simp only [decryption, decryptStep, xorBlock_zero]
    rfl

theorem finish_cbcDecBlocks {pad iven : Bool} {s u : State} (n j : Nat) (hu : (decryption true iven pad s).At j u)
    (hchain : u.internal.chain = ((decryption true iven pad s).after j).2)
    (hlen : 16 * (j + n) = dataLength s.regs) :
    finish (cbcDecBlocks pad n j u) =
      .next (accessesOutcome ((List.range' j n).flatMap (decryption true iven pad s).accesses)
        (decryptCode pad (decryption true iven pad s) j n) u) := by
  induction n generalizing j u with
  | zero => simp [cbcDecBlocks, decryptCode, accessesOutcome_nil, finish]
  | succ n ih =>
    rw [decryptCode_succ]
    refine finish_decryptBlock (g := fun c t => setChain (blockOfBytes c)
        (setBlk (xorBlock (invCipher t.internal.rk (blockOfBytes c)) t.internal.chain) t))
      (chain := ((decryption true iven pad s).after (j + 1)).2) (k := cbcDecBlocks pad n (j + 1)) hu rfl hlen
      (fun t hrk hch => ?_) (fun hn => by subst hn; exact ⟨rfl, rfl⟩) fun w hw hch => ih (j + 1) hw hch (by omega)
    rw [hrk, hch, hchain, ← memoryBlock_eq, BlockRun.after_succ]
    rfl

/-! ## The checks before any access (43_modes.md R171 to R173) -/

theorem keySizeOk_iff (r : Regs) : keySizeOk r = true ↔ ValidKey r := by
  simp [keySizeOk, ValidKey, ← BitVec.toNat_inj, or_assoc]

theorem outSize_eq (pad : Bool) (r : Regs) : outSize pad r = encryptedBytes pad r := by
  cases pad with
  | false => rfl
  | true =>
    simp only [outSize, encryptedBytes, dataLength, if_true]
    omega

theorem encryptCheck_eq_none {pad : Bool} {r : Regs} (hlen : pad = false → r.len.toNat % 16 = 0) (hkey : ValidKey r)
    (hcap : encryptedBytes pad r ≤ r.cap.toNat) : encryptCheck pad r = none := by
  rw [← outSize_eq] at hcap
  simp only [encryptCheck, (keySizeOk_iff r).2 hkey, capacity, not_lt.2 hcap]
  cases pad with
  | false => simp [dataLength, hlen rfl]
  | true => simp

theorem decryptCheck_eq_none {pad : Bool} {r : Regs} (hlen : r.len.toNat % 16 = 0)
    (hpad : pad = true → r.len.toNat ≠ 0) (hkey : ValidKey r)
    (hcap : r.len.toNat ≤ r.cap.toNat + if pad then 16 else 0) : decryptCheck pad r = none := by
  simp only [decryptCheck, (keySizeOk_iff r).2 hkey, dataLength, capacity, hlen]
  cases pad with
  | false => simp [show ¬ r.cap.toNat < r.len.toNat by simpa using hcap]
  | true => simp [hpad rfl, show ¬ r.cap.toNat < r.len.toNat - 16 by simpa using hcap]

theorem ctrCheck_eq_none {r : Regs} (hkey : ValidKey r) (hnonce : r.noncelen.toNat ≤ 16) : ctrCheck r = none := by
  simp [ctrCheck, (keySizeOk_iff r).2 hkey, hnonce]

/-! ## The block modes as lists of accesses -/

/-- The machine begins a block mode at block 0. -/
theorem BlockRun.At.loadSchedule {s : State} (hkey : ValidKey s.regs) {B : BlockRun} (hregs : B.regs = s.regs)
    (hmem : B.mem = s.mem) : B.At 0 (Machine.loadSchedule s) :=
  ⟨hregs.symm, by rw [hregs, ← expandKey_keyWords hkey]; rfl, hmem.symm⟩

theorem exec_encryption {pad cbc iven : Bool} {s : State} (hcheck : encryptCheck pad s.regs = none)
    (hiven : cbc = false → iven = false) : exec (if cbc then .cbcEnc pad iven else .ecbEnc pad) s =
      .next (accessesOutcome ((List.range (encryptedBytes pad s.regs / 16)).flatMap (encryption cbc iven s).accesses)
        .ok s) := by
  have hkey : ValidKey s.regs := (keySizeOk_iff _).1 (encryptCheck_none hcheck).1
  rw [List.range_eq_range', ← outSize_eq]
  cases cbc with
  | false =>
    cases hiven rfl
    have hrun := finish_ecbEncBlocks (outSize pad s.regs / 16) 0 (.loadSchedule hkey rfl rfl)
    rw [accessesOutcome_of_internal (s := s) (t := loadSchedule s) rfl rfl] at hrun
    simpa [exec, execEcbEnc, checked, hcheck] using hrun
  | true =>
    have hrun := finish_cbcEncBlocks (u := setChain (initialChain iven s.regs) (loadSchedule s))
      (outSize pad s.regs / 16) 0 ((BlockRun.At.loadSchedule hkey rfl rfl).of_internal rfl rfl) rfl
    rw [accessesOutcome_of_internal (s := s) (t := setChain (initialChain iven s.regs) (loadSchedule s)) rfl rfl] at hrun
    simpa [exec, execCbcEnc, checked, hcheck] using hrun

theorem exec_decryption {pad cbc iven : Bool} {s : State} (hcheck : decryptCheck pad s.regs = none)
    (hiven : cbc = false → iven = false) : exec (if cbc then .cbcDec pad iven else .ecbDec pad) s =
      .next (accessesOutcome ((List.range (s.regs.len.toNat / 16)).flatMap (decryption cbc iven pad s).accesses)
        (decryptCode pad (decryption cbc iven pad s) 0 (s.regs.len.toNat / 16)) s) := by
  obtain ⟨hsize, hmod, -⟩ := decryptCheck_none hcheck
  have hkey : ValidKey s.regs := (keySizeOk_iff _).1 hsize
  have hlen : 16 * (0 + s.regs.len.toNat / 16) = dataLength s.regs := by simp only [dataLength] at hmod ⊢; omega
  rw [List.range_eq_range']
  cases cbc with
  | false =>
    cases hiven rfl
    have hrun := finish_ecbDecBlocks _ 0 (.loadSchedule hkey (B := decryption false false pad s) rfl rfl) hlen
    rw [accessesOutcome_of_internal (s := s) (t := loadSchedule s) rfl rfl] at hrun
    simpa [exec, execEcbDec, checked, hcheck, dataLength] using hrun
  | true =>
    have hrun := finish_cbcDecBlocks (u := setChain (initialChain iven s.regs) (loadSchedule s)) _ 0
      ((BlockRun.At.loadSchedule (B := decryption true iven pad s) hkey rfl rfl).of_internal rfl rfl) rfl hlen
    rw [accessesOutcome_of_internal (s := s) (t := setChain (initialChain iven s.regs) (loadSchedule s)) rfl rfl] at hrun
    simpa [exec, execCbcDec, checked, hcheck, dataLength] using hrun

end Sys2Proof.Machine

/-! ## Refused accesses (20_memory.md R62; 60_exceptions.md R228) -/

namespace Sys2Proof.Machine

open Sys2Proof.Reference

theorem readsAdmitted_part {s : State} {a : Word} {n i m : Nat} (h : ReadsAdmitted s a n) (hi : i + m ≤ n) :
    ReadsAdmitted s (byteAddr a i) m := fun k hk => by
  rw [byteAddr_byteAddr]
  exact h (i + k) (by omega)

theorem writesAdmitted_part {s : State} {a : Word} {n i m : Nat} (h : WritesAdmitted s a n) (hi : i + m ≤ n) :
    WritesAdmitted s (byteAddr a i) m := fun k hk => by
  rw [byteAddr_byteAddr]
  exact h (i + k) (by omega)

theorem readAccesses_admitted {s : State} {a : Word} {n : Nat} (h : ReadsAdmitted s a n) (m : Memory) :
    ∀ x ∈ readAccesses n a m, x.admitted s.platform = true := by
  induction n generalizing a with
  | zero => simp [readAccesses]
  | succ n ih =>
    refine List.forall_mem_cons.2 ⟨?_, ih fun k hk => ?_⟩
    · simpa [Access.admitted] using h 0 (Nat.succ_pos n)
    · simpa using h (k + 1) (by omega)

theorem writeAccesses_admitted {s : State} {a : Word} {bs : List Byte} (h : WritesAdmitted s a bs.length) :
    ∀ x ∈ writeAccesses bs a, x.admitted s.platform = true := by
  induction bs generalizing a with
  | nil => simp [writeAccesses]
  | cons b bs ih =>
    refine List.forall_mem_cons.2 ⟨?_, ih fun k hk => ?_⟩
    · simpa [Access.admitted] using h 0 (by simp)
    · simpa using h (k + 1) (by simpa using hk)

/-- Ascending reads around read number `i`. -/
theorem readAccesses_split {n i : Nat} (hi : i < n) (a : Word) (m : Memory) :
    ∃ b xs, readAccesses n a m = readAccesses i a m ++ ⟨.read, byteAddr a i, b⟩ :: xs := by
  obtain ⟨d, rfl⟩ := Nat.exists_eq_add_of_lt hi
  exact ⟨_, _, by rw [Nat.add_assoc, readAccesses_append, readAccesses]⟩

/-- Ascending writes around write number `i`. -/
theorem writeAccesses_split {bs : List Byte} {i : Nat} (hi : i < bs.length) (a : Word) :
    ∃ b xs, writeAccesses bs a = writeAccesses (bs.take i) a ++ ⟨.write, byteAddr a i, b⟩ :: xs := by
  have hbs : bs = bs.take i ++ bs[i] :: bs.drop (i + 1) := by
    rw [List.getElem_cons_drop, List.take_append_drop]
  refine ⟨bs[i], writeAccesses (bs.drop (i + 1)) (byteAddr a i + 1), ?_⟩
  conv_lhs => rw [hbs, writeAccesses_append, List.length_take, min_eq_left hi.le, writeAccesses]

/-- The blocks before block `j`, block `j`, and what is behind it. -/
theorem flatMap_range_split {α : Type} (f : Nat → List α) {n j : Nat} (hj : j < n) :
    ∃ xs, (List.range n).flatMap f = (List.range j).flatMap f ++ (f j ++ xs) := by
  obtain ⟨d, rfl⟩ := Nat.exists_eq_add_of_lt hj
  exact ⟨_, by rw [Nat.add_right_comm, List.range_add, List.flatMap_append, List.range_succ, List.flatMap_append,
    List.append_assoc, List.flatMap_singleton]⟩

/-- A completion after some accesses, as the statements say it. -/
theorem completes_afterAccesses {s : State} {xs : List Access} {n : Nat} (hnwr : s.internal.nwr = 0)
    (hn : (writesOf xs).length = n) (code : ErrCode) :
    Completes code n s.regs.state s.regs.gfres s (complete code (afterAccesses xs s)) where
  regs := by simp [hnwr, hn, statusCompleted]
  internal := rfl
  platform := rfl
  latency := rfl
  countdown := rfl
  owned := rfl
  script := rfl
  rdata := rfl
  draws := rfl

namespace BlockRun

/-- The command writes the first `n` output blocks whole. -/
def WritesWhole (B : BlockRun) (n : Nat) : Prop := ∀ j < n, B.out j (B.block j) = blockBytes (B.block j)

theorem WritesWhole.mono {B : BlockRun} {n m : Nat} (h : B.WritesWhole n) (hm : m ≤ n) : B.WritesWhole m :=
  fun j hj => h j (hj.trans_le hm)

theorem length_writesOf_accesses {B : BlockRun} {n : Nat} (h : B.WritesWhole n) :
    (writesOf ((List.range n).flatMap B.accesses)).length = 16 * n := by
  induction n with
  | zero => rfl
  | succ n ih =>
    rw [List.range_succ, List.flatMap_append, writesOf_append, List.length_append, ih (h.mono n.le_succ)]
    simp [accesses, h n n.lt_succ_self]
    omega

theorem applyWrites_accesses {B : BlockRun} {n : Nat} (h : B.WritesWhole n) :
    applyWrites (writesOf ((List.range n).flatMap B.accesses)) B.mem = (B.after n).1 := by
  induction n with
  | zero => rfl
  | succ n ih =>
    rw [List.range_succ, List.flatMap_append, writesOf_append, applyWrites_append, ih (h.mono n.le_succ), after_succ]
    simp [accesses, h n n.lt_succ_self]
    rfl

theorem blockReads_admitted {s : State} {r : Regs} {j l : Nat} (hl : min (dataLength r) (16 * (j + 1)) ≤ l)
    (hr : ReadsAdmitted s r.src l) (m : Memory) :
    ∀ x ∈ readAccesses (blockDataLength (dataLength r) j) (srcBlock r j) m, x.admitted s.platform = true := by
  by_cases hd : 16 * j ≤ dataLength r
  · exact readAccesses_admitted (readsAdmitted_part hr (by rw [blockDataLength]; omega)) m
  · rw [blockDataLength, show dataLength r - 16 * j = 0 by omega]
    exact fun x hx => absurd hx List.not_mem_nil

/-- The accesses of whole blocks are admitted if those of the data and of the output are. -/
theorem accesses_admitted {B : BlockRun} {s : State} {n l : Nat} (h : B.WritesWhole n)
    (hl : min (dataLength B.regs) (16 * n) ≤ l) (hr : ReadsAdmitted s B.regs.src l)
    (hw : WritesAdmitted s B.regs.dst (16 * n)) :
    ∀ x ∈ (List.range n).flatMap B.accesses, x.admitted s.platform = true := by
  intro x hx
  obtain ⟨j, hj, hx⟩ := List.mem_flatMap.1 hx
  rw [List.mem_range] at hj
  rw [accesses, h j hj] at hx
  rcases List.mem_append.1 hx with hx | hx
  · exact blockReads_admitted (by omega) hr _ x hx
  · exact writeAccesses_admitted (writesAdmitted_part hw (by rw [blockBytes_length]; omega)) x hx

theorem byteAddr_block (a : Word) (k : Nat) : byteAddr (byteAddr a (16 * (k / 16))) (k % 16) = byteAddr a k := by
  rw [byteAddr_byteAddr, Nat.div_add_mod]

/-- Read number `k` is the first refused access: the blocks before its block stay written and are counted. -/
theorem outcome_refusedRead {B : BlockRun} {s : State} (hmem : B.mem = s.mem) {n k : Nat}
    (hk : k < dataLength B.regs) (hn : k / 16 < n) (hwhole : B.WritesWhole (k / 16)) (hnwr : s.internal.nwr = 0)
    (hr : ReadsAdmitted s B.regs.src k) (hw : WritesAdmitted s B.regs.dst (16 * (k / 16)))
    (hx : memAdmit s.platform .read (byteAddr B.regs.src k) = false) (code : ErrCode) :
    ∃ t, accessesOutcome ((List.range n).flatMap B.accesses) code s = t ∧
      Completes .busError (16 * (k / 16)) s.regs.state s.regs.gfres s t ∧ t.mem = (B.after (k / 16)).1 := by
  let before := (List.range (k / 16)).flatMap B.accesses
  let reads := readAccesses (k % 16) (srcBlock B.regs (k / 16)) (B.after (k / 16)).1
  obtain ⟨rest, hsplit⟩ := flatMap_range_split B.accesses hn
  obtain ⟨b, xs, hreads⟩ := readAccesses_split (n := blockDataLength (dataLength B.regs) (k / 16)) (i := k % 16)
    (by rw [blockDataLength]; omega) (srcBlock B.regs (k / 16)) (B.after (k / 16)).1
  have hplan : ∃ zs, (List.range n).flatMap B.accesses = (before ++ reads) ++
      ⟨.read, byteAddr (srcBlock B.regs (k / 16)) (k % 16), b⟩ :: zs :=
    ⟨_, by rw [hsplit, accesses, hreads]; simp only [List.append_assoc, List.cons_append]; rfl⟩
  obtain ⟨zs, hplan⟩ := hplan
  have hadmitted : ∀ y ∈ before ++ reads, y.admitted s.platform = true :=
    List.forall_mem_append.2 ⟨accesses_admitted hwhole (l := k) (by omega) hr hw,
      readAccesses_admitted (readsAdmitted_part hr (by omega)) _⟩
  have hwrites : writesOf (before ++ reads) = writesOf before := by simp [reads]
  rw [hplan]
  refine ⟨_, accessesOutcome_refused hadmitted (by rwa [← byteAddr_block] at hx) zs code,
    completes_afterAccesses hnwr ?_ _, ?_⟩
  · rw [hwrites, length_writesOf_accesses hwhole]
  · rw [complete_mem, afterAccesses_mem, hwrites, ← hmem, applyWrites_accesses hwhole]

/-- Write number `k` is the first refused access: the `k` writes before it stay made and are counted. -/
theorem outcome_refusedWrite {B : BlockRun} {s : State} (hmem : B.mem = s.mem) {n k : Nat} {bs : List Byte}
    (hout : B.out (k / 16) (B.block (k / 16)) = bs) (hk : k % 16 < bs.length) (hn : k / 16 < n)
    (hwhole : B.WritesWhole (k / 16)) (hnwr : s.internal.nwr = 0)
    (hr : ReadsAdmitted s B.regs.src (dataLength B.regs)) (hw : WritesAdmitted s B.regs.dst k)
    (hx : memAdmit s.platform .write (byteAddr B.regs.dst k) = false) (code : ErrCode) :
    ∃ t, accessesOutcome ((List.range n).flatMap B.accesses) code s = t ∧
      Completes .busError k s.regs.state s.regs.gfres s t ∧
      t.mem = Memory.writeBytes (bs.take (k % 16)) (byteAddr B.regs.dst (16 * (k / 16))) (B.after (k / 16)).1 := by
  let before := (List.range (k / 16)).flatMap B.accesses
  let reads := readAccesses (blockDataLength (dataLength B.regs) (k / 16)) (srcBlock B.regs (k / 16))
    (B.after (k / 16)).1
  let writes := writeAccesses (bs.take (k % 16)) (dstBlock B.regs (k / 16))
  obtain ⟨rest, hsplit⟩ := flatMap_range_split B.accesses hn
  obtain ⟨b, xs, hwritten⟩ := writeAccesses_split hk (dstBlock B.regs (k / 16))
  have hplan : ∃ zs, (List.range n).flatMap B.accesses = (before ++ (reads ++ writes)) ++
      ⟨.write, byteAddr (dstBlock B.regs (k / 16)) (k % 16), b⟩ :: zs :=
    ⟨_, by rw [hsplit, accesses, hout, hwritten]; simp only [List.append_assoc, List.cons_append]; rfl⟩
  obtain ⟨zs, hplan⟩ := hplan
  have hadmitted : ∀ y ∈ before ++ (reads ++ writes), y.admitted s.platform = true :=
    List.forall_mem_append.2 ⟨accesses_admitted hwhole (min_le_left ..) hr fun i hi => hw i (by omega),
      List.forall_mem_append.2 ⟨blockReads_admitted (min_le_left ..) hr _,
        writeAccesses_admitted (writesAdmitted_part hw (by simp; omega))⟩⟩
  rw [hplan]
  refine ⟨_, accessesOutcome_refused hadmitted (by rwa [← byteAddr_block] at hx) zs code,
    completes_afterAccesses hnwr ?_ _, ?_⟩
  · simp [before, reads, writes, length_writesOf_accesses hwhole]
    omega
  · rw [complete_mem, afterAccesses_mem, writesOf_append, applyWrites_append, ← hmem, applyWrites_accesses hwhole]
    simp [reads, writes]
    rfl

end BlockRun

end Sys2Proof.Machine

/-! ## `CTR` as a list of accesses (20_memory.md R67; 43_modes.md R175, R184) -/

namespace Sys2Proof.Machine

open Sys2Proof.Reference

/-- The least significant `l` bytes of a number, least significant first. -/
def littleEndian (l n : Nat) : List Byte := (List.range l).map fun k => BitVec.ofNat 8 (n / 256 ^ k)

theorem littleEndian_succ (l n : Nat) : littleEndian (l + 1) n = BitVec.ofNat 8 n :: littleEndian l (n / 256) := by
  simp [littleEndian, List.range_succ_eq_map, Function.comp_def, Nat.pow_succ', Nat.div_div_eq_div_mul]

/-- A carry leaves a byte exactly when the byte is 255. -/
theorem incrementBytes_littleEndian (l n : Nat) : incrementBytes (littleEndian l n) = littleEndian l (n + 1) := by
  induction l generalizing n with
  | zero => rfl
  | succ l ih =>
    have hcarry : BitVec.ofNat 8 n + 1 = 0 ↔ (n + 1) % 256 = 0 := by
      rw [← BitVec.toNat_inj]
      simp
    rw [littleEndian_succ, littleEndian_succ, incrementBytes, ih]
    by_cases hc : (n + 1) % 256 = 0
    · rw [if_pos (hcarry.2 hc), show (n + 1) / 256 = n / 256 + 1 by omega, BitVec.ofNat_add]
      exact congrArg (· :: _) (hcarry.2 hc).symm
    · rw [if_neg (mt hcarry.1 hc), show (n + 1) / 256 = n / 256 by omega, BitVec.ofNat_add]
      rfl

theorem counterBlock_eq (n : Nat) : counterBlock n = blockOfBytes (littleEndian 16 n).reverse := rfl

theorem incrementCounter_counterBlock (n : Nat) : incrementCounter (counterBlock n) = counterBlock (n + 1) := by
  have hbytes : (blockBytes (counterBlock n)).reverse = littleEndian 16 n := rfl
  rw [incrementCounter, hbytes, incrementBytes_littleEndian, counterBlock_eq]

/-- Byte `i` of a number written with bytes `b`, most significant first. -/
theorem bigEndian_byte (b : Nat → Byte) (l : Nat) {i : Nat} (hi : i < l) :
    BitVec.ofNat 8 (((List.range l).map fun k => (b k).toNat * 256 ^ (l - 1 - k)).sum / 256 ^ (l - 1 - i)) = b i := by
  induction l with
  | zero => exact absurd hi (Nat.not_lt_zero i)
  | succ l ih =>
    have hsum : ((List.range (l + 1)).map fun k => (b k).toNat * 256 ^ (l + 1 - 1 - k)).sum =
        256 * ((List.range l).map fun k => (b k).toNat * 256 ^ (l - 1 - k)).sum + (b l).toNat := by
      rw [List.range_succ, List.map_append, List.sum_append, ← List.sum_map_mul_left]
      congr 1
      · refine congrArg _ (List.map_congr_left fun k hk => ?_)
        have hk := List.mem_range.1 hk
        rw [show l + 1 - 1 - k = (l - 1 - k) + 1 by omega, Nat.pow_succ]
        ring
      · simp
    rw [hsum]
    by_cases hl : i = l
    · subst hl
      apply BitVec.eq_of_toNat_eq
      have := (b i).isLt
      simp
      omega
    · rw [show l + 1 - 1 - i = (l - 1 - i) + 1 by omega, Nat.pow_succ', ← Nat.div_div_eq_div_mul,
        Nat.mul_add_div (by omega), Nat.div_eq_of_lt (b l).isLt, Nat.add_zero]
      exact ih (by omega)

/-- The initial counter value is the block of the number `CTR0` (43_modes.md R175). -/
theorem initialCounter_eq {r : Regs} (h : r.noncelen.toNat ≤ 16) : initialCounter r = counterBlock (counterStart r) := by
  let nonceByte (k : Nat) : Byte := if k < r.noncelen.toNat then blockByte r.iv k else 0
  have hbytes : (blockBytes r.iv).take r.noncelen.toNat ++ List.replicate (16 - r.noncelen.toNat) 0 =
      (List.range 16).map nonceByte := by
    refine List.ext_getElem (by simp; omega) fun k hk hk' => ?_
    simp only [List.getElem_append, List.getElem_take, blockBytes_getElem, List.getElem_replicate, List.getElem_map,
      List.getElem_range, List.length_take, blockBytes_length, min_eq_left h]
    rfl
  have hstart : counterStart r = ((List.range 16).map fun k => (nonceByte k).toNat * 256 ^ (16 - 1 - k)).sum := by
    refine congrArg List.sum (List.map_congr_left fun k _ => ?_)
    simp only [nonceByte]
    split <;> rfl
  rw [initialCounter, hbytes, counterBlock, hstart]
  exact congrArg _ (List.map_congr_left fun k hk => (bigEndian_byte nonceByte 16 (List.mem_range.1 hk)).symm)

/-- The accesses that XOR keystream bytes into memory: each byte read, then written. -/
def ctrAccesses : List Byte → Word → Memory → List Access
  | [], _, _ => []
  | k :: ks, a, m => ⟨.read, a, m.read a.toNat⟩ :: ⟨.write, a, m.read a.toNat ^^^ k⟩ ::
      ctrAccesses ks (a + 1) (m.write a.toNat (m.read a.toNat ^^^ k))

/-- Memory with keystream bytes XORed in. -/
def ctrMemory (ks : List Byte) (a : Word) (m : Memory) : Memory := applyWrites (writesOf (ctrAccesses ks a m)) m

theorem ctrMemory_cons (k : Byte) (ks : List Byte) (a : Word) (m : Memory) :
    ctrMemory (k :: ks) a m = ctrMemory ks (a + 1) (m.write a.toNat (m.read a.toNat ^^^ k)) := by
  simp [ctrMemory, ctrAccesses, applyWrites]

theorem ctrAccesses_append (ks ks' : List Byte) (a : Word) (m : Memory) : ctrAccesses (ks ++ ks') a m =
    ctrAccesses ks a m ++ ctrAccesses ks' (byteAddr a ks.length) (ctrMemory ks a m) := by
  induction ks generalizing a m with
  | nil => simp [ctrAccesses, ctrMemory, applyWrites]
  | cons k ks ih => simp [ctrAccesses, ctrMemory_cons, ih]

@[simp] theorem length_writesOf_ctrAccesses (ks : List Byte) (a : Word) (m : Memory) :
    (writesOf (ctrAccesses ks a m)).length = ks.length := by
  induction ks generalizing a m with
  | nil => rfl
  | cons k ks ih => simp [ctrAccesses, ih]

/-- Kinds and addresses of the accesses of `CTR`, in their order. -/
theorem map_ctrAccesses (ks : List Byte) (a : Word) (m : Memory) :
    (ctrAccesses ks a m).map (fun x => (x.kind, x.addr)) = (List.range ks.length).flatMap fun k =>
      [(AccessKind.read, byteAddr a k), (AccessKind.write, byteAddr a k)] := by
  induction ks generalizing a m with
  | nil => rfl
  | cons k ks ih => simp [ctrAccesses, ih, List.range_succ_eq_map, List.flatMap_map]

theorem ctrAccesses_admitted {s : State} {a : Word} {ks : List Byte} (hr : ReadsAdmitted s a ks.length)
    (hw : WritesAdmitted s a ks.length) (m : Memory) :
    ∀ x ∈ ctrAccesses ks a m, x.admitted s.platform = true := by
  induction ks generalizing a m with
  | nil => simp [ctrAccesses]
  | cons k ks ih =>
    refine List.forall_mem_cons.2 ⟨?_, List.forall_mem_cons.2 ⟨?_, ih (fun i hi => ?_) (fun i hi => ?_) _⟩⟩
    · simpa [Access.admitted] using hr 0 (by simp)
    · simpa [Access.admitted] using hw 0 (by simp)
    · simpa using hr (i + 1) (by simpa using hi)
    · simpa using hw (i + 1) (by simpa using hi)

theorem read_ctrMemory_other {ks : List Byte} {a x : Word} (h : ∀ i < ks.length, byteAddr a i ≠ x) (m : Memory) :
    (ctrMemory ks a m).read x.toNat = m.read x.toNat := by
  induction ks generalizing a m with
  | nil => rfl
  | cons k ks ih =>
    have hne : x.toNat ≠ a.toNat := fun he =>
      h 0 (by simp) (by rw [byteAddr_zero, BitVec.eq_of_toNat_eq he])
    rw [ctrMemory_cons, ih, Memory.read_write, if_neg hne]
    intro i hi
    simpa using h (i + 1) (by simpa using hi)

theorem read_ctrMemory {ks : List Byte} (hlen : ks.length ≤ 2 ^ 32) (a : Word) (m : Memory) {i : Nat}
    (hi : i < ks.length) :
    (ctrMemory ks a m).read (byteAddr a i).toNat = m.read (byteAddr a i).toNat ^^^ ks[i] := by
  induction ks generalizing a m i with
  | nil => exact absurd hi (Nat.not_lt_zero i)
  | cons k ks ih =>
    rw [List.length_cons] at hlen hi
    have hne (j : Nat) (hj : j < ks.length) : byteAddr a (j + 1) ≠ byteAddr a 0 := fun he =>
      absurd (byteAddr_inj (by omega) (by omega) he) (by omega)
    rw [ctrMemory_cons]
    cases i with
    | zero =>
      rw [byteAddr_zero, read_ctrMemory_other, Memory.read_write, if_pos rfl]
      · rfl
      · intro j hj
        simpa using hne j hj
    | succ i =>
      have hne' : (byteAddr a (i + 1)).toNat ≠ a.toNat := fun he =>
        hne i (by omega) (by rw [byteAddr_zero]; exact BitVec.eq_of_toNat_eq he)
      have hnext := ih (by omega) (a + 1) (m.write a.toNat (m.read a.toNat ^^^ k)) (i := i) (by omega)
      rw [BitVec.ofNat_eq_ofNat, byteAddr_add_one, Memory.read_write, if_neg hne'] at hnext
      exact hnext

theorem finish_ctrBytes_andThen {ks : List Byte} {a : Word} {s : State} {k : Unit → State → Run Unit}
    {xs : List Access} {code : ErrCode}
    (h : let t := afterAccesses (ctrAccesses ks a s.mem) s
      finish (k () t) = .next (accessesOutcome xs code t)) :
    finish ((ctrBytes ks a s).andThen k) = .next (accessesOutcome (ctrAccesses ks a s.mem ++ xs) code s) := by
  induction ks generalizing a s with
  | nil => simpa [ctrBytes, ctrAccesses] using h
  | cons b ks ih =>
    rw [ctrBytes, Run.andThen_assoc]
    refine finish_busRead_andThen ?_
    intro t
    rw [Run.andThen_assoc]
    refine finish_busWrite_andThen (ih ?_)
    simp only [t, ← afterAccesses_append]
    exact h

/-- The keystream of the data (43_modes.md R184). -/
def keystream (r : Regs) : List Byte := (List.range (dataLength r)).map (keystreamByte r)

@[simp] theorem keystream_length (r : Regs) : (keystream r).length = dataLength r := by simp [keystream]

/-- Keystream block `j` is the encryption of `CTR0 + j`, cut to the data. -/
theorem keystream_block (r : Regs) (j : Nat) :
    (blockBytes (cipher (schedule r) (counterBlock (counterStart r + j)))).take (blockDataLength (dataLength r) j) =
      ((keystream r).drop (16 * j)).take 16 := by
  refine List.ext_getElem (by simp [blockDataLength]) fun k hk _ => ?_
  simp only [List.length_take, blockBytes_length] at hk
  simp only [List.getElem_take, blockBytes_getElem, List.getElem_drop, keystream, List.getElem_map,
    List.getElem_range, keystreamByte]
  rw [Nat.mul_add_div (by omega), Nat.div_eq_of_lt (by omega), Nat.mul_add_mod, Nat.mod_eq_of_lt (by omega),
    Nat.add_zero]

theorem finish_ctrBlocks {r : Regs} {u : State} (n j : Nat) (hregs : u.regs = r) (hrk : u.internal.rk = schedule r)
    (hctr : u.internal.ctrv = counterBlock (counterStart r + j)) (hn : dataLength r ≤ 16 * (j + n)) :
    finish (ctrBlocks n j u) =
      .next (accessesOutcome (ctrAccesses ((keystream r).drop (16 * j)) (srcBlock r j) u.mem) .ok u) := by
  induction n generalizing j u with
  | zero =>
    rw [List.drop_eq_nil_of_le (by simpa using hn)]
    exact (congrArg _ (accessesOutcome_nil .ok u)).symm
  | succ n ih =>
    subst hregs
    let ks := ((keystream u.regs).drop (16 * j)).take 16
    let w := setBlk (cipher (schedule u.regs) (counterBlock (counterStart u.regs + j))) u
    have hrest : ctrAccesses ((keystream u.regs).drop (16 * (j + 1))) (byteAddr (srcBlock u.regs j) ks.length)
        (ctrMemory ks (srcBlock u.regs j) u.mem) =
        ctrAccesses ((keystream u.regs).drop (16 * (j + 1))) (srcBlock u.regs (j + 1))
          (ctrMemory ks (srcBlock u.regs j) u.mem) := by
      by_cases hfull : 16 * (j + 1) ≤ dataLength u.regs
      · rw [show ks.length = 16 by simp [ks]; omega]
        exact congrArg (ctrAccesses _ · _) (byteAddr_byteAddr u.regs.src (16 * j) 16)
      · rw [List.drop_eq_nil_of_le (by simp; omega)]
        rfl
    have hsplit : (keystream u.regs).drop (16 * j) = ks ++ (keystream u.regs).drop (16 * (j + 1)) := by
      rw [Nat.mul_succ, ← List.drop_drop, List.take_append_drop]
    rw [hsplit, ctrAccesses_append, hrest, ← accessesOutcome_of_internal (t := w) rfl rfl, ctrBlocks]
    simp only [hrk, hctr, setBlk_internal, setBlk_regs, keystream_block]
    refine finish_ctrBytes_andThen (s := w) ?_
    intro t
    rw [← accessesOutcome_of_internal (t := setCtrv (incrementCounter t.internal.ctrv) t) rfl rfl]
    refine ih (j + 1) rfl hrk ?_ (by omega)
    rw [setCtrv_internal, show t.internal.ctrv = _ from hctr, incrementCounter_counterBlock, Nat.add_assoc]

/-- `CTR` makes the accesses that XOR its keystream into the data. -/
theorem exec_ctr {s : State} (hkey : ValidKey s.regs) (hnonce : s.regs.noncelen.toNat ≤ 16) :
    exec .ctr s = .next (accessesOutcome (ctrAccesses (keystream s.regs) s.regs.src s.mem) .ok s) := by
  have hrun := finish_ctrBlocks (r := s.regs) (u := setCtrv (initialCounter s.regs) (loadSchedule s))
    ((dataLength s.regs + 15) / 16) 0 rfl (expandKey_keyWords hkey)
    (by rw [Nat.add_zero, ← initialCounter_eq hnonce]; rfl) (by omega)
  rw [accessesOutcome_of_internal (s := s) (t := setCtrv (initialCounter s.regs) (loadSchedule s)) rfl rfl] at hrun
  simpa [exec, execCtr, checked, ctrCheck_eq_none hkey hnonce, srcBlock] using hrun

end Sys2Proof.Machine

/-! ## Commands whose accesses are refused (20_memory.md R62; 60_exceptions.md R222, R228) -/

namespace Sys2Proof.Machine

open Sys2Proof.Reference

theorem encryption_writesWhole (cbc iven : Bool) (s : State) (n : Nat) : (encryption cbc iven s).WritesWhole n :=
  fun _ _ => rfl

theorem decryptOut_whole {pad : Bool} {r : Regs} {j : Nat} (h : pad = true → 16 * (j + 1) ≠ dataLength r) (b : Block) :
    decryptOut pad r j b = blockBytes b := by
  cases pad with
  | false => rfl
  | true => simp [decryptOut, h rfl]

/-- A decryption writes every block whole, but for a last block to unpad. -/
theorem decryption_writesWhole {cbc iven pad : Bool} {s : State} {n : Nat} (h : pad = true → 16 * n < dataLength s.regs) :
    (decryption cbc iven pad s).WritesWhole n :=
  fun j hj => decryptOut_whole (r := s.regs) (fun hp => by have := h hp; omega) _

/-- The two encryptions, or the two decryptions, with the flags of either. -/
theorem mode_flags {i : Instr} {pad : Bool} {ecb : Bool → Instr} {cbc : Bool → Bool → Instr}
    (h : i = ecb pad ∨ ∃ iven, i = cbc pad iven) :
    ∃ c iven, (c = false → iven = false) ∧ i = if c then cbc pad iven else ecb pad := by
  rcases h with rfl | ⟨iven, rfl⟩
  · exact ⟨false, false, fun _ => rfl, rfl⟩
  · exact ⟨true, iven, by simp, rfl⟩

/-- A command with data reads its first byte first. -/
theorem BlockRun.accesses_first (B : BlockRun) {n : Nat} (hn : 0 < n) (hlen : 0 < dataLength B.regs) :
    ∃ b xs, (List.range n).flatMap B.accesses = ⟨.read, B.regs.src, b⟩ :: xs := by
  obtain ⟨rest, hsplit⟩ := flatMap_range_split B.accesses hn
  obtain ⟨b, xs, hreads⟩ := readAccesses_split (n := blockDataLength (dataLength B.regs) 0) (i := 0)
    (by rw [blockDataLength]; omega) (srcBlock B.regs 0) (B.after 0).1
  exact ⟨b, _, by rw [hsplit, accesses, hreads]; simp [srcBlock, readAccesses]; rfl⟩

/-- A command whose first access is refused ends untouched. -/
theorem failsUntouched_of_refused {i : Instr} {s : State} {x : Access} {xs : List Access} {code : ErrCode}
    (hnwr : s.internal.nwr = 0) (hexec : exec i s = .next (accessesOutcome (x :: xs) code s))
    (hx : x.admitted s.platform = false) : FailsUntouched .busError i s := by
  rw [accessesOutcome_cons_refused hx] at hexec
  refine ⟨_, hexec, ?_, rfl, rfl⟩
  simpa using completes_afterAccesses (xs := []) hnwr rfl .busError

/-- The blocks of an encryption hold the data. -/
theorem dataLength_le_encryptedBytes {pad : Bool} {r : Regs} : dataLength r ≤ encryptedBytes pad r := by
  cases pad with
  | false => exact le_rfl
  | true =>
    simp only [dataLength, encryptedBytes, if_true]
    omega

theorem encryptedBytes_mod {pad : Bool} {r : Regs} (h : pad = false → r.len.toNat % 16 = 0) :
    encryptedBytes pad r % 16 = 0 := by
  cases pad with
  | false => exact h rfl
  | true => simp [encryptedBytes]

theorem paddedBy_padLength {b : Block} {p : Nat} (h : PaddedBy b p) : padLength b = p := by
  obtain ⟨hlow, -, hbytes⟩ := h
  exact hbytes 15 (by omega) (by omega)

/-- The padding is valid when the block is padded by the length it claims (43_modes.md R176). -/
theorem padValid_iff (b : Block) : padValid b = true ↔ PaddedBy b (padLength b) := by
  have hbyte (k : Nat) : blockByte b k = blockByte b 15 ↔ (blockByte b k).toNat = padLength b := by
    rw [padLength, BitVec.toNat_inj]
  simp only [padValid, PaddedBy, Bool.and_eq_true, decide_eq_true_eq, List.all_eq_true, beq_iff_eq, and_assoc,
    List.mem_drop_iff_getElem, forall_exists_index, blockBytes_getElem, blockBytes_length]
  refine and_congr_right fun hlow => and_congr_right fun hhigh => ⟨fun h k hk hfrom => ?_, fun h x k hk hx => ?_⟩
  · exact (hbyte k).1 (h _ (k - (16 - padLength b)) (by omega) (by congr 1; omega))
  · subst hx
    exact (hbyte _).2 (h _ (by omega) (by omega))

/-- A last block whose padding is good and whose data fit lets its data out. -/
theorem unpad_of_paddedBy {r : Regs} {b : Block} {p : Nat} (h : PaddedBy b p) (hcap : dataLength r - p ≤ capacity r) :
    unpadCode r b = .ok ∧ unpaddedBytes r b = (blockBytes b).take (16 - p) := by
  have hp := paddedBy_padLength h
  have hcode : unpadCode r b = .ok := by
    rw [unpadCode, if_pos ((padValid_iff b).2 (hp.symm ▸ h)), hp, if_pos hcap]
  exact ⟨hcode, by rw [unpaddedBytes, if_pos hcode, hp]⟩

end Sys2Proof.Machine

namespace Sys2Proof.Proofs

open Sys2Proof.Machine Sys2Proof.Reference

/-- Settles O34: the first access of every mode command is the read of its first source byte. -/
theorem refusedFirstReadIsBusError : Obligations.RefusedFirstReadIsBusError := by
  intro s hnwr hkey hlen hx
  refine ⟨fun pad i hi hmod hcap => ?_, fun pad i hi hmod hcap => ?_, fun hnonce => ?_⟩
  · obtain ⟨cbc, iven, hiven, rfl⟩ := mode_flags hi
    have hexec := exec_encryption (encryptCheck_eq_none hmod hkey hcap) hiven
    have := dataLength_le_encryptedBytes (pad := pad) (r := s.regs)
    have := encryptedBytes_mod hmod
    obtain ⟨b, xs, hfirst⟩ := (encryption cbc iven s).accesses_first (n := encryptedBytes pad s.regs / 16)
      (by simp only [dataLength] at *; omega) hlen
    rw [hfirst] at hexec
    exact failsUntouched_of_refused hnwr hexec hx
  · obtain ⟨cbc, iven, hiven, rfl⟩ := mode_flags hi
    have hexec := exec_decryption (decryptCheck_eq_none hmod (fun _ => hlen.ne') hkey hcap) hiven
    obtain ⟨b, xs, hfirst⟩ := (decryption cbc iven pad s).accesses_first (n := s.regs.len.toNat / 16) (by omega) hlen
    rw [hfirst] at hexec
    exact failsUntouched_of_refused hnwr hexec hx
  · have hexec := exec_ctr hkey hnonce
    cases hks : keystream s.regs with
    | nil =>
      have := keystream_length s.regs
      simp [hks, dataLength] at this
      omega
    | cons k ks =>
      rw [hks, ctrAccesses] at hexec
      exact failsUntouched_of_refused hnwr hexec hx

/-- Settles O35: the refused write cuts the list of accesses inside block `k / 16`. -/
theorem refusedWriteKeepsEarlierWrites : Obligations.RefusedWriteKeepsEarlierWrites := by
  intro s pad cbc iven k hkey hmod hcap hiven hnwr hk hr hw hx before block
  have := encryptedBytes_mod hmod
  obtain ⟨t, ht, hcompletes, hmem⟩ := BlockRun.outcome_refusedWrite (B := encryption cbc iven s) rfl
    (n := encryptedBytes pad s.regs / 16) (k := k) (bs := blockBytes block) rfl (by simp; omega) (by omega)
    (encryption_writesWhole _ _ _ _) hnwr hr hw hx .ok
  rw [encryption_after] at hmem
  exact ⟨t, ht ▸ exec_encryption (encryptCheck_eq_none hmod hkey hcap) hiven, hcompletes, hmem⟩

/-- Settles O52: the refused read cuts the list of accesses before the writes of block `k / 16`. -/
theorem refusedReadKeepsEarlierBlocks : Obligations.RefusedReadKeepsEarlierBlocks := by
  intro s pad cbc iven k hkey hiven hnwr hk hr hw hx
  refine ⟨fun hmod hcap => ?_, fun hmod hcap => ?_⟩
  · have := encryptedBytes_mod hmod
    have := dataLength_le_encryptedBytes (pad := pad) (r := s.regs)
    obtain ⟨t, ht, hcompletes, hmem⟩ := BlockRun.outcome_refusedRead (B := encryption cbc iven s) rfl
      (n := encryptedBytes pad s.regs / 16) (k := k) hk (by simp only [dataLength] at *; omega)
      (encryption_writesWhole _ _ _ _) hnwr hr hw hx .ok
    rw [encryption_after] at hmem
    exact ⟨t, ht ▸ exec_encryption (encryptCheck_eq_none hmod hkey hcap) hiven, hcompletes, hmem⟩
  · obtain ⟨t, ht, hcompletes, hmem⟩ := BlockRun.outcome_refusedRead (B := decryption cbc iven pad s) rfl
      (n := s.regs.len.toNat / 16) (k := k) hk (by omega)
      (decryption_writesWhole fun _ => by simp only [dataLength]; omega) hnwr hr hw hx _
    rw [decryption_after] at hmem
    exact ⟨t, ht ▸ exec_decryption (decryptCheck_eq_none hmod (fun _ => by omega) hkey hcap) hiven, hcompletes, hmem⟩

/-- Settles O53: as for an encryption, with the bytes that an unpadded last block lets out; they begin with those that
the refused write comes after. -/
theorem refusedWriteOfDecryptionKeepsEarlierWrites : Obligations.RefusedWriteOfDecryptionKeepsEarlierWrites := by
  intro s pad cbc iven k hkey hmod hcap hiven hnwr hk hpad hr hw hx before block
  obtain ⟨hlt, htake⟩ : k % 16 < (decryptOut pad s.regs (k / 16) block).length ∧
      (decryptOut pad s.regs (k / 16) block).take (k % 16) = (blockBytes block).take (k % 16) := by
    by_cases hlast : pad = true ∧ 16 * (k / 16 + 1) = s.regs.len.toNat
    · obtain ⟨rfl, hlast⟩ := hlast
      obtain ⟨p, hp, hfits, hkp⟩ := (hpad rfl).resolve_left (by omega)
      have hblock : block = lastPlain cbc iven s := by
        simp only [block, before, lastPlain, earlierBlocks]
        rw [show s.regs.len.toNat / 16 - 1 = k / 16 by omega, show s.regs.len.toNat - 16 = 16 * (k / 16) by omega]
      rw [← hblock] at hp
      rw [decryptOut, if_pos (by simpa [dataLength] using hlast), (unpad_of_paddedBy hp hfits).2, List.length_take,
        blockBytes_length, List.take_take]
      exact ⟨by omega, by rw [min_eq_left (by omega)]⟩
    · rw [decryptOut_whole fun hp he => hlast ⟨hp, he⟩, blockBytes_length]
      exact ⟨by omega, rfl⟩
  obtain ⟨t, ht, hcompletes, hmem⟩ := BlockRun.outcome_refusedWrite (B := decryption cbc iven pad s) rfl
    (n := s.regs.len.toNat / 16) (k := k) rfl hlt (by omega)
    (decryption_writesWhole fun _ => by simp only [dataLength]; omega) hnwr hr hw hx _
  refine ⟨t, ht ▸ exec_decryption (decryptCheck_eq_none hmod (fun _ => by omega) hkey hcap) hiven, hcompletes, ?_⟩
  rw [decryption_after] at hmem
  rw [← htake]
  exact hmem

end Sys2Proof.Proofs

namespace Sys2Proof.Machine

open Sys2Proof.Reference

/-- The accesses of `CTR` around byte `k`. -/
theorem ctrAccesses_split {ks : List Byte} {k : Nat} (hk : k < ks.length) (a : Word) (m : Memory) :
    ∃ b c xs, ctrAccesses ks a m = ctrAccesses (ks.take k) a m ++
      ⟨.read, byteAddr a k, b⟩ :: ⟨.write, byteAddr a k, c⟩ :: xs := by
  have hks : ks = ks.take k ++ ks[k] :: ks.drop (k + 1) := by
    rw [List.getElem_cons_drop, List.take_append_drop]
  have hsplit := ctrAccesses_append (ks.take k) (ks[k] :: ks.drop (k + 1)) a m
  rw [← hks, List.length_take, min_eq_left hk.le] at hsplit
  exact ⟨_, _, _, hsplit⟩

/-- Refused the read or the write of byte `k`, `CTR` has written the bytes before it and no other. -/
theorem ctrOutcome_refused {s : State} {a : Word} {ks : List Byte} {k : Nat} (hk : k < ks.length)
    (hr : ReadsAdmitted s a k) (hw : WritesAdmitted s a k)
    (hx : memAdmit s.platform .read (byteAddr a k) = false ∨ memAdmit s.platform .write (byteAddr a k) = false)
    (code : ErrCode) : ∃ ys, accessesOutcome (ctrAccesses ks a s.mem) code s = complete .busError (afterAccesses ys s) ∧
      writesOf ys = writesOf (ctrAccesses (ks.take k) a s.mem) := by
  obtain ⟨b, c, xs, hsplit⟩ := ctrAccesses_split hk a s.mem
  have hlen : (ks.take k).length = k := by rw [List.length_take, min_eq_left hk.le]
  have hbefore : ∀ y ∈ ctrAccesses (ks.take k) a s.mem, y.admitted s.platform = true :=
    ctrAccesses_admitted (hlen.symm ▸ hr) (hlen.symm ▸ hw) s.mem
  rw [hsplit]
  cases hread : Access.admitted s.platform ⟨.read, byteAddr a k, b⟩ with
  | false => exact ⟨_, accessesOutcome_refused hbefore hread _ code, rfl⟩
  | true =>
    have hwrite : Access.admitted s.platform ⟨.write, byteAddr a k, c⟩ = false :=
      hx.resolve_left fun h => Bool.false_ne_true (h.symm.trans hread)
    refine ⟨ctrAccesses (ks.take k) a s.mem ++ [⟨.read, byteAddr a k, b⟩], ?_, by simp⟩
    rw [← accessesOutcome_refused _ hwrite xs code, List.append_assoc]
    · rfl
    · exact List.forall_mem_append.2 ⟨hbefore, by simpa using hread⟩

/-! ## The order of accesses (20_memory.md R67) -/

/-- The kinds and addresses of the accesses made before a completion. -/
theorem accessesBetween_afterAccesses (xs : List Access) (code : ErrCode) (s : State) :
    accessesBetween s (complete code (afterAccesses xs s)) = xs.map fun x => (x.kind, x.addr) := by
  simp [accessesBetween]

/-- `OUTLEN` counts the writes made, if they are fewer than the address space has bytes. -/
theorem outlen_afterAccesses {s : State} {xs : List Access} {n : Nat} (hnwr : s.internal.nwr = 0)
    (hn : (writesOf xs).length = n) (hlt : n < 2 ^ 32) (code : ErrCode) :
    (complete code (afterAccesses xs s)).regs.outlen.toNat = n := by
  simpa [hnwr, hn] using Nat.mod_eq_of_lt hlt

theorem map_accesses (B : BlockRun) (j : Nat) : (B.accesses j).map (fun x => (x.kind, x.addr)) =
    sourceReads B.regs (16 * j) (blockDataLength (dataLength B.regs) j) ++
      destinationWrites B.regs (16 * j) (B.out j (B.block j)).length := by
  rw [BlockRun.accesses, List.map_append, map_readAccesses, map_writeAccesses]
  simp only [srcBlock, dstBlock, sourceReads, destinationWrites, ← byteAddr_byteAddr]
  rfl

/-- The bytes that `n` whole blocks and one more write. -/
theorem BlockRun.length_writesOf_accesses_succ {B : BlockRun} {n : Nat} (h : B.WritesWhole n) :
    (writesOf ((List.range (n + 1)).flatMap B.accesses)).length = 16 * n + (B.out n (B.block n)).length := by
  rw [List.range_succ, List.flatMap_append, writesOf_append, List.length_append, length_writesOf_accesses h]
  simp [accesses]

/-- Each block's share of the bytes written. -/
theorem BlockRun.length_out {B : BlockRun} {n j : Nat} (h : B.WritesWhole n) (hj : j < n + 1)
    (hlast : (B.out n (B.block n)).length ≤ 16) :
    (B.out j (B.block j)).length = min 16 (16 * n + (B.out n (B.block n)).length - 16 * j) := by
  by_cases hjn : j = n
  · subst hjn
    omega
  · rw [h j (by omega), blockBytes_length]
    omega

theorem unpaddedBytes_length_le (r : Regs) (b : Block) : (unpaddedBytes r b).length ≤ 16 := by
  unfold unpaddedBytes
  split
  · exact List.length_take_le' ..
  · exact Nat.zero_le 16

theorem decryptOut_length_le (pad : Bool) (r : Regs) (j : Nat) (b : Block) : (decryptOut pad r j b).length ≤ 16 := by
  unfold decryptOut
  split
  · exact unpaddedBytes_length_le r b
  · exact le_rfl

end Sys2Proof.Machine

namespace Sys2Proof.Proofs

open Sys2Proof.Machine Sys2Proof.Reference

/-- Settles O54: the refused access cuts the list of accesses at byte `k`. -/
theorem refusedAccessOfCtrKeepsEarlierBytes : Obligations.RefusedAccessOfCtrKeepsEarlierBytes := by
  intro s k hkey hnonce hnwr hk hr hw hx
  have hkl : k < (keystream s.regs).length := (keystream_length s.regs).symm ▸ hk
  have hlen : ((keystream s.regs).take k).length = k := by rw [List.length_take, min_eq_left hkl.le]
  obtain ⟨ys, hys, hwrites⟩ := ctrOutcome_refused hkl hr hw hx .ok
  have hmem : (afterAccesses ys s).mem = ctrMemory ((keystream s.regs).take k) s.regs.src s.mem := by
    rw [afterAccesses_mem, hwrites, ctrMemory]
  refine ⟨_, (exec_ctr hkey hnonce).trans (congrArg _ hys), completes_afterAccesses hnwr ?_ _, fun i hi => ?_,
    fun a ha => ?_⟩
  · rw [hwrites, length_writesOf_ctrAccesses, hlen]
  · rw [complete_mem, hmem, read_ctrMemory (by omega) _ _ (i := i) (by omega)]
    simp [keystream]
  · rw [complete_mem, hmem, read_ctrMemory_other]
    rwa [hlen]

/-- Settles O33: with nothing refused, the accesses made are those of the lists, and their kinds and addresses do not
depend on the data. -/
theorem accessOrderIsBlockByBlock : Obligations.AccessOrderIsBlockByBlock := by
  intro s t hnwr hkey hopen
  have hall (xs : List Access) : ∀ x ∈ xs, x.admitted s.platform = true := fun x _ => hopen x.kind x.addr
  refine ⟨fun pad i hi hmod hcap hexec => ?_, fun pad i hi hmod hpad hcap hexec => ?_, fun hnonce hexec => ?_⟩
  · obtain ⟨cbc, iven, hiven, rfl⟩ := mode_flags hi
    rw [exec_encryption (encryptCheck_eq_none hmod hkey hcap) hiven, accessesOutcome_admitted (hall _)] at hexec
    cases hexec
    rw [accessesBetween_afterAccesses, List.map_flatMap]
    exact congrArg (List.flatMap · _) (funext fun j => map_accesses _ j)
  · obtain ⟨cbc, iven, hiven, rfl⟩ := mode_flags hi
    rw [exec_decryption (decryptCheck_eq_none hmod hpad hkey hcap) hiven, accessesOutcome_admitted (hall _)] at hexec
    cases hexec
    rw [accessesBetween_afterAccesses, List.map_flatMap]
    cases hn : s.regs.len.toNat / 16 with
    | zero => rfl
    | succ n =>
      have hwhole : (decryption cbc iven pad s).WritesWhole n :=
        decryption_writesWhole fun _ => by simp only [dataLength]; omega
      have hlast : ((decryption cbc iven pad s).out n ((decryption cbc iven pad s).block n)).length ≤ 16 :=
        decryptOut_length_le ..
      refine List.flatMap_congr fun j hj => ?_
      have hj := List.mem_range.1 hj
      rw [map_accesses, outlen_afterAccesses hnwr (BlockRun.length_writesOf_accesses_succ hwhole)
        (by omega), ← BlockRun.length_out hwhole hj hlast]
      rw [show blockDataLength (dataLength (decryption cbc iven pad s).regs) j = 16 by
        simp only [blockDataLength, dataLength, decryption]; omega]
      rfl
  · rw [exec_ctr hkey hnonce, accessesOutcome_admitted (hall _)] at hexec
    cases hexec
    rw [accessesBetween_afterAccesses, map_ctrAccesses, keystream_length]
    rfl

end Sys2Proof.Proofs

/-! ## Output that does not overwrite data to come (20_memory.md R68) -/

namespace Sys2Proof.Machine

open Sys2Proof.Reference

namespace BlockRun

/-- The chaining value before block `j` if every block is read from memory at issue. -/
def chainAt (B : BlockRun) : Nat → Block
  | 0 => B.chain
  | j + 1 => (B.step j B.mem (B.chainAt j)).2

/-- Output block `j` if every block is read from memory at issue. -/
def blockAt (B : BlockRun) (j : Nat) : Block := (B.step j B.mem (B.chainAt j)).1

/-- The bytes the first `n` blocks write if every block is read from memory at issue. -/
def outputBytes (B : BlockRun) (n : Nat) : List Byte := (List.range n).flatMap fun j => B.out j (B.blockAt j)

/-- No data byte is overwritten by the output of the blocks before its own. -/
def ReadsFirst (B : BlockRun) : Prop :=
  ∀ i < dataLength B.regs, ∀ k < 16 * (i / 16), byteAddr B.regs.src i ≠ byteAddr B.regs.dst k

/-- Each of the first `n` blocks depends on memory through the data bytes of that block only. -/
def ReadsOwnBlock (B : BlockRun) (n : Nat) : Prop :=
  ∀ j < n, ∀ m m' chain, (∀ i < dataLength B.regs, i / 16 = j →
    m.read (byteAddr B.regs.src i).toNat = m'.read (byteAddr B.regs.src i).toNat) → B.step j m chain = B.step j m' chain

theorem ReadsOwnBlock.mono {B : BlockRun} {n m : Nat} (h : B.ReadsOwnBlock n) (hm : m ≤ n) : B.ReadsOwnBlock m :=
  fun j hj => h j (hj.trans_le hm)

theorem outputBytes_succ (B : BlockRun) (n : Nat) :
    B.outputBytes (n + 1) = B.outputBytes n ++ B.out n (B.blockAt n) := by
  simp [outputBytes, List.range_succ, List.flatMap_append]

/-- The whole blocks before block `n`. -/
def wholeBytes (B : BlockRun) (n : Nat) : List Byte := (List.range n).flatMap fun j => blockBytes (B.blockAt j)

theorem wholeBytes_succ (B : BlockRun) (n : Nat) : B.wholeBytes (n + 1) = B.wholeBytes n ++ blockBytes (B.blockAt n) := by
  simp [wholeBytes, List.range_succ, List.flatMap_append]

@[simp] theorem wholeBytes_length (B : BlockRun) (n : Nat) : (B.wholeBytes n).length = 16 * n := by
  simp [wholeBytes, Nat.mul_comm]

/-- Block `j` is the same from memory at issue as from memory with the blocks before it written. -/
theorem step_wholeBytes {B : BlockRun} {n j : Nat} (hown : B.ReadsOwnBlock n) (hfirst : B.ReadsFirst) (hj : j < n)
    (chain : Block) :
    B.step j (Memory.writeBytes (B.wholeBytes j) B.regs.dst B.mem) chain = B.step j B.mem chain :=
  hown j hj _ _ _ fun i hi hij => Memory.read_writeBytes_other (fun k hk he =>
    hfirst i hi k (by rwa [wholeBytes_length, ← hij] at hk) he.symm) _

/-- Block after block, memory holds the output of the data at issue. -/
theorem after_eq {B : BlockRun} {n : Nat} (hown : B.ReadsOwnBlock n) (hfirst : B.ReadsFirst) :
    B.after n = (Memory.writeBytes (B.wholeBytes n) B.regs.dst B.mem, B.chainAt n) := by
  induction n with
  | zero => rfl
  | succ n ih =>
    rw [after_succ, block, ih (hown.mono n.le_succ), step_wholeBytes hown hfirst n.lt_succ_self, wholeBytes_succ,
      Memory.writeBytes_append, wholeBytes_length]
    rfl

theorem block_eq {B : BlockRun} {n j : Nat} (hown : B.ReadsOwnBlock n) (hfirst : B.ReadsFirst) (hj : j < n) :
    B.block j = B.blockAt j := by
  rw [block, after_eq (hown.mono hj.le) hfirst, step_wholeBytes hown hfirst hj, blockAt]

/-- Commands that differ in their registers only have the same output blocks. -/
theorem chainAt_congr {B B' : BlockRun} (hstep : B'.step = B.step) (hmem : B'.mem = B.mem)
    (hchain : B'.chain = B.chain) (j : Nat) : B'.chainAt j = B.chainAt j := by
  induction j with
  | zero => exact hchain
  | succ j ih => rw [chainAt, chainAt, ih, hstep, hmem]

theorem blockAt_congr {B B' : BlockRun} (hstep : B'.step = B.step) (hmem : B'.mem = B.mem)
    (hchain : B'.chain = B.chain) (j : Nat) : B'.blockAt j = B.blockAt j := by
  rw [blockAt, blockAt, chainAt_congr hstep hmem hchain, hstep, hmem]

/-- The bytes written are those of the whole blocks, when all are written whole. -/
theorem outputBytes_eq_wholeBytes {B : BlockRun} {n : Nat} (h : ∀ j < n, ∀ b, B.out j b = blockBytes b) :
    B.outputBytes n = B.wholeBytes n :=
  List.flatMap_congr fun j hj => h j (List.mem_range.1 hj) _

/-- Memory after a command whose blocks but the last are written whole. -/
theorem applyWrites_accesses_eq {B : BlockRun} {n : Nat} (hown : B.ReadsOwnBlock n) (hfirst : B.ReadsFirst)
    (hwhole : ∀ j, j + 1 < n → ∀ b, B.out j b = blockBytes b) :
    applyWrites (writesOf ((List.range n).flatMap B.accesses)) B.mem =
      Memory.writeBytes (B.outputBytes n) B.regs.dst B.mem := by
  cases n with
  | zero => rfl
  | succ n =>
    have hbefore : B.WritesWhole n := fun j hj => hwhole j (by omega) _
    rw [List.range_succ, List.flatMap_append, writesOf_append, applyWrites_append, applyWrites_accesses hbefore,
      outputBytes_succ, outputBytes_eq_wholeBytes fun j hj => hwhole j (by omega), Memory.writeBytes_append,
      wholeBytes_length, after_eq (hown.mono n.le_succ) hfirst]
    simp [accesses, block_eq hown hfirst n.lt_succ_self]
    rfl

theorem length_writesOf_accesses_eq {B : BlockRun} {n : Nat} (hown : B.ReadsOwnBlock n) (hfirst : B.ReadsFirst) :
    (writesOf ((List.range n).flatMap B.accesses)).length = (B.outputBytes n).length := by
  induction n with
  | zero => rfl
  | succ n ih =>
    rw [List.range_succ, List.flatMap_append, writesOf_append, List.length_append, ih (hown.mono n.le_succ),
      outputBytes_succ, List.length_append]
    simp [accesses, block_eq hown hfirst n.lt_succ_self]

end BlockRun

theorem plainBlock_congr {r : Regs} {m m' : Memory} {j : Nat} (h : ∀ i < dataLength r, i / 16 = j →
    m.read (byteAddr r.src i).toNat = m'.read (byteAddr r.src i).toNat) : plainBlock r m j = plainBlock r m' j := by
  refine congrArg blockOfBytes (List.map_congr_left fun k hk => ?_)
  have hk := List.mem_range.1 hk
  unfold plainByte
  split
  · next hlt => exact h _ hlt (by omega)
  · rfl

theorem encryption_readsOwnBlock (cbc iven : Bool) (s : State) (n : Nat) :
    (encryption cbc iven s).ReadsOwnBlock n := by
  intro j _ m m' chain h
  have hblock : plainBlock s.regs m j = plainBlock s.regs m' j := plainBlock_congr h
  simp only [encryption, encryptStep, hblock]

theorem decryption_readsOwnBlock (cbc iven pad : Bool) (s : State) :
    (decryption cbc iven pad s).ReadsOwnBlock (s.regs.len.toNat / 16) := by
  intro j hj m m' chain h
  have hblock : memoryBlock m (byteAddr s.regs.src (16 * j)) = memoryBlock m' (byteAddr s.regs.src (16 * j)) :=
    memoryBlock_congr fun k hk => by
      rw [byteAddr_byteAddr]
      exact h _ (show _ < s.regs.len.toNat by omega) (by omega)
  simp only [decryption, decryptStep, hblock]

/-- With disjoint buffers no data is overwritten. -/
theorem readsFirst_of_apart {B : BlockRun} {n : Nat}
    (h : BuffersApart B.regs.src (dataLength B.regs) B.regs.dst n) (hn : 16 * ((dataLength B.regs - 1) / 16) ≤ n) :
    B.ReadsFirst :=
  fun i hi k hk => h i hi k (by omega)

/-- In place no data is overwritten either: the blocks before a byte's block end before it. -/
theorem readsFirst_of_inPlace {B : BlockRun} (h : B.regs.dst = B.regs.src) : B.ReadsFirst := by
  intro i hi k hk he
  have hlen : dataLength B.regs < 2 ^ 32 := B.regs.len.isLt
  rw [h] at he
  exact absurd (byteAddr_inj (by omega) (by omega) he) (by omega)

/-- Byte `k` of block `j` among the bytes of blocks. -/
theorem getElem_wholeBytes (B : BlockRun) {n j k : Nat} (hk : k < 16) (hj : j < n)
    (h : 16 * j + k < (B.wholeBytes n).length) : (B.wholeBytes n)[16 * j + k] = blockByte (B.blockAt j) k := by
  induction n with
  | zero => exact absurd hj (Nat.not_lt_zero j)
  | succ n ih =>
    by_cases hjn : j = n
    · subst hjn
      simp only [BlockRun.wholeBytes_succ, List.getElem_append, BlockRun.wholeBytes_length]
      rw [dif_neg (by omega), blockBytes_getElem]
      congr 1
      omega
    · simp only [BlockRun.wholeBytes_succ, List.getElem_append, BlockRun.wholeBytes_length]
      rw [dif_pos (by omega)]
      exact ih (by omega) _

/-- The whole blocks written are read back block by block. -/
theorem memoryBlock_wholeBytes (B : BlockRun) {n j : Nat} (hj : j < n) (hn : 16 * n ≤ 2 ^ 32) (a : Word) (m : Memory) :
    memoryBlock (Memory.writeBytes (B.wholeBytes n) a m) (byteAddr a (16 * j)) = B.blockAt j := by
  refine Block.ext_blockByte fun k hk => ?_
  rw [memoryBlock, blockByte_blockOfBytes_map _ hk, byteAddr_byteAddr,
    Memory.read_writeBytes (by simpa using hn) _ _ (by simp; omega), getElem_wholeBytes B hk hj]

/-- The output of an encryption whose data is not overwritten, as memory holds it. -/
theorem exec_encryption_mem {pad cbc iven : Bool} {s t : State} (hkey : ValidKey s.regs)
    (hmod : pad = false → s.regs.len.toNat % 16 = 0) (hcap : encryptedBytes pad s.regs ≤ s.regs.cap.toNat)
    (hiven : cbc = false → iven = false) (hr : ReadsAdmitted s s.regs.src s.regs.len.toNat)
    (hw : WritesAdmitted s s.regs.dst (encryptedBytes pad s.regs)) (hfirst : (encryption cbc iven s).ReadsFirst)
    (h : exec (if cbc then .cbcEnc pad iven else .ecbEnc pad) s = .next t) :
    t.mem = Memory.writeBytes ((encryption cbc iven s).wholeBytes (encryptedBytes pad s.regs / 16)) s.regs.dst s.mem := by
  have hmod' := encryptedBytes_mod hmod
  rw [exec_encryption (encryptCheck_eq_none hmod hkey hcap) hiven,
    accessesOutcome_admitted (BlockRun.accesses_admitted (encryption_writesWhole _ _ _ _) (min_le_left ..) hr
      fun k hk => hw k (by omega))] at h
  cases h
  rw [complete_mem, afterAccesses_mem]
  exact (BlockRun.applyWrites_accesses (encryption_writesWhole cbc iven s _)).trans
    (congrArg Prod.fst (BlockRun.after_eq (encryption_readsOwnBlock cbc iven s _) hfirst))

end Sys2Proof.Machine

namespace Sys2Proof.Proofs

open Sys2Proof.Machine Sys2Proof.Reference

/-- Settles O27: memory after the command holds the blocks of the data at issue, one behind the other. -/
theorem encryptionOfDisjointBuffers : Obligations.EncryptionOfDisjointBuffers := by
  intro s t pad cbc iven hkey hmod hcap hiven hr hw hapart hexec j hj
  have hmod' := encryptedBytes_mod hmod
  have hle := dataLength_le_encryptedBytes (pad := pad) (r := s.regs)
  have hfirst : (encryption cbc iven s).ReadsFirst := readsFirst_of_apart (B := encryption cbc iven s) hapart
    (show 16 * ((dataLength s.regs - 1) / 16) ≤ _ by omega)
  have hblock (i : Nat) (hi : i < encryptedBytes pad s.regs / 16) :
      memoryBlock t.mem (byteAddr s.regs.dst (16 * i)) = (encryption cbc iven s).blockAt i := by
    rw [exec_encryption_mem hkey hmod hcap hiven hr hw hfirst hexec]
    exact memoryBlock_wholeBytes _ hi (by omega) _ _
  rw [hblock j hj]
  cases j with
  | zero => rfl
  | succ j =>
    rw [if_neg (by omega), Nat.add_sub_cancel, hblock j (by omega)]
    rfl

end Sys2Proof.Proofs

/-! ## Block modes that nothing refuses, in place and with disjoint buffers (20_memory.md R68) -/

namespace Sys2Proof.Machine

open Sys2Proof.Reference

/-- A command has completed with a code, after writing some bytes from a base address on and no other. -/
structure Outputs (code : ErrCode) (bytes : List Byte) (base : Word) (s t : State) : Prop where
  regs : t.regs = { s.regs with outlen := BitVec.ofNat 32 bytes.length, status := statusCompleted code }
  platform : t.platform = s.platform
  nwr : t.internal.nwr = 0
  mem : t.mem = Memory.writeBytes bytes base s.mem
  length : bytes.length < 2 ^ 32

theorem Outputs.outlen {code : ErrCode} {bytes : List Byte} {base : Word} {s t : State}
    (h : Outputs code bytes base s t) : t.regs.outlen.toNat = bytes.length := by
  rw [h.regs]
  exact Nat.mod_eq_of_lt h.length

theorem Outputs.read {code : ErrCode} {bytes : List Byte} {base : Word} {s t : State}
    (h : Outputs code bytes base s t) {k : Nat} (hk : k < bytes.length) :
    t.mem.read (byteAddr base k).toNat = bytes[k] := by
  rw [h.mem]
  exact Memory.read_writeBytes h.length.le base s.mem hk

/-- A command whose check fails puts out nothing. -/
theorem outputs_of_failed {s t : State} {code : ErrCode} {k : State → Run Unit} (hnwr : s.internal.nwr = 0)
    (h : finish (checked (some code) s k) = .next t) (base : Word) : Outputs code [] base s t := by
  cases h
  exact ⟨by simp [hnwr], rfl, rfl, rfl, Nat.two_pow_pos 32⟩

theorem exec_encryption_failed {pad cbc iven : Bool} {s t : State} {code : ErrCode}
    (hcheck : encryptCheck pad s.regs = some code) (hnwr : s.internal.nwr = 0)
    (h : exec (if cbc then .cbcEnc pad iven else .ecbEnc pad) s = .next t) (base : Word) :
    Outputs code [] base s t := by
  cases cbc <;> simp only [if_true, Bool.false_eq_true, if_false, exec, execEcbEnc, execCbcEnc, hcheck] at h <;>
    exact outputs_of_failed hnwr h base

theorem exec_decryption_failed {pad cbc iven : Bool} {s t : State} {code : ErrCode}
    (hcheck : decryptCheck pad s.regs = some code) (hnwr : s.internal.nwr = 0)
    (h : exec (if cbc then .cbcDec pad iven else .ecbDec pad) s = .next t) (base : Word) :
    Outputs code [] base s t := by
  cases cbc <;> simp only [if_true, Bool.false_eq_true, if_false, exec, execEcbDec, execCbcDec, hcheck] at h <;>
    exact outputs_of_failed hnwr h base

theorem BlockRun.outputBytes_length_le {B : BlockRun} (hout : ∀ j b, (B.out j b).length ≤ 16) (n : Nat) :
    (B.outputBytes n).length ≤ 16 * n := by
  induction n with
  | zero => rfl
  | succ n ih =>
    have := hout n (B.blockAt n)
    rw [outputBytes_succ, List.length_append]
    omega

theorem BlockRun.outputBytes_congr {B B' : BlockRun} (hstep : B'.step = B.step) (hmem : B'.mem = B.mem)
    (hchain : B'.chain = B.chain) (hout : B'.out = B.out) (n : Nat) : B'.outputBytes n = B.outputBytes n :=
  List.flatMap_congr fun j _ => by rw [hout, blockAt_congr hstep hmem hchain]

/-- What a block mode puts out if nothing is refused and no data is overwritten. -/
theorem BlockRun.outputs {B : BlockRun} {s : State} {n : Nat} (hopen : ∀ kind a, memAdmit s.platform kind a = true)
    (hnwr : s.internal.nwr = 0) (hmem : B.mem = s.mem) (hown : B.ReadsOwnBlock n) (hfirst : B.ReadsFirst)
    (hwhole : ∀ j, j + 1 < n → ∀ b, B.out j b = blockBytes b) (hout : ∀ j b, (B.out j b).length ≤ 16)
    (hn : 16 * n < 2 ^ 32) (code : ErrCode) :
    Outputs code (B.outputBytes n) B.regs.dst s (accessesOutcome ((List.range n).flatMap B.accesses) code s) := by
  rw [accessesOutcome_admitted fun x _ => hopen x.kind x.addr]
  refine ⟨?_, rfl, rfl, ?_, (outputBytes_length_le hout n).trans_lt hn⟩
  · rw [complete_regs, afterAccesses_internal, hnwr, length_writesOf_accesses_eq hown hfirst]
    simp
  · rw [complete_mem, afterAccesses_mem, ← hmem, applyWrites_accesses_eq hown hfirst hwhole]

theorem exec_encryption_outputs {pad cbc iven : Bool} {s t : State} (hcheck : encryptCheck pad s.regs = none)
    (hiven : cbc = false → iven = false) (hopen : ∀ kind a, memAdmit s.platform kind a = true)
    (hnwr : s.internal.nwr = 0) (hfirst : (encryption cbc iven s).ReadsFirst)
    (h : exec (if cbc then .cbcEnc pad iven else .ecbEnc pad) s = .next t) :
    Outputs .ok ((encryption cbc iven s).outputBytes (encryptedBytes pad s.regs / 16)) s.regs.dst s t := by
  obtain ⟨-, hcap, -⟩ := encryptCheck_none hcheck
  have hlt : capacity s.regs < 2 ^ 32 := s.regs.cap.isLt
  rw [outSize_eq] at hcap
  rw [exec_encryption hcheck hiven] at h
  cases h
  exact BlockRun.outputs (B := encryption cbc iven s) hopen hnwr rfl (encryption_readsOwnBlock cbc iven s _) hfirst
    (fun _ _ _ => rfl) (fun _ _ => le_rfl) (by omega) .ok

theorem exec_decryption_outputs {pad cbc iven : Bool} {s t : State} (hcheck : decryptCheck pad s.regs = none)
    (hiven : cbc = false → iven = false) (hopen : ∀ kind a, memAdmit s.platform kind a = true)
    (hnwr : s.internal.nwr = 0) (hfirst : (decryption cbc iven pad s).ReadsFirst)
    (h : exec (if cbc then .cbcDec pad iven else .ecbDec pad) s = .next t) :
    Outputs (decryptCode pad (decryption cbc iven pad s) 0 (s.regs.len.toNat / 16))
      ((decryption cbc iven pad s).outputBytes (s.regs.len.toNat / 16)) s.regs.dst s t := by
  rw [exec_decryption hcheck hiven] at h
  cases h
  exact BlockRun.outputs (B := decryption cbc iven pad s) hopen hnwr rfl (decryption_readsOwnBlock cbc iven pad s) hfirst
    (fun j hj => decryptOut_whole (r := s.regs) fun _ => by simp only [dataLength]; omega)
    (fun _ _ => decryptOut_length_le ..) (by omega) _

/-- The code of a decryption by the last block of the data at issue. -/
theorem decryptCode_eq {pad cbc iven : Bool} {s : State} (hfirst : (decryption cbc iven pad s).ReadsFirst) :
    decryptCode pad (decryption cbc iven pad s) 0 (s.regs.len.toNat / 16) =
      if pad && s.regs.len.toNat / 16 != 0 then
        unpadCode s.regs ((decryption cbc iven pad s).blockAt (s.regs.len.toNat / 16 - 1)) else .ok := by
  rw [decryptCode]
  by_cases hn : s.regs.len.toNat / 16 = 0
  · simp [hn]
  · rw [BlockRun.block_eq (decryption_readsOwnBlock cbc iven pad s) hfirst (by omega), Nat.zero_add]
    rfl

/-- A state with the destination at the source. -/
def inPlace (s : State) : State := { s with regs := { s.regs with dst := s.regs.src } }

theorem encryption_inPlace_readsFirst (cbc iven : Bool) (s : State) :
    (encryption cbc iven (inPlace s)).ReadsFirst := readsFirst_of_inPlace rfl

theorem decryption_inPlace_readsFirst (cbc iven pad : Bool) (s : State) :
    (decryption cbc iven pad (inPlace s)).ReadsFirst := readsFirst_of_inPlace rfl

theorem encryption_inPlace_outputBytes (cbc iven : Bool) (s : State) (n : Nat) :
    (encryption cbc iven (inPlace s)).outputBytes n = (encryption cbc iven s).outputBytes n :=
  BlockRun.outputBytes_congr (B := encryption cbc iven s) (B' := encryption cbc iven (inPlace s)) rfl rfl rfl rfl n

theorem decryption_inPlace_outputBytes (cbc iven pad : Bool) (s : State) (n : Nat) :
    (decryption cbc iven pad (inPlace s)).outputBytes n = (decryption cbc iven pad s).outputBytes n :=
  BlockRun.outputBytes_congr (B := decryption cbc iven pad s) (B' := decryption cbc iven pad (inPlace s)) rfl rfl rfl rfl n

/-- In place an encryption puts out what it puts out with disjoint buffers. -/
theorem encryption_inPlace {pad cbc iven : Bool} {s t t' : State} (hiven : cbc = false → iven = false)
    (hopen : ∀ kind a, memAdmit s.platform kind a = true) (hnwr : s.internal.nwr = 0)
    (hapart : BuffersApart s.regs.src s.regs.len.toNat s.regs.dst s.regs.cap.toNat)
    (h : exec (if cbc then .cbcEnc pad iven else .ecbEnc pad) s = .next t)
    (h' : exec (if cbc then .cbcEnc pad iven else .ecbEnc pad) (inPlace s) = .next t') :
    ∃ code bytes, Outputs code bytes s.regs.dst s t ∧ Outputs code bytes s.regs.src (inPlace s) t' := by
  cases hcheck : encryptCheck pad s.regs with
  | some code =>
    exact ⟨code, [], exec_encryption_failed hcheck hnwr h _,
      exec_encryption_failed (s := inPlace s) hcheck hnwr h' _⟩
  | none =>
    obtain ⟨-, hcap, -⟩ := encryptCheck_none hcheck
    rw [outSize_eq] at hcap
    have hle := dataLength_le_encryptedBytes (pad := pad) (r := s.regs)
    have hfirst : (encryption cbc iven s).ReadsFirst := readsFirst_of_apart (B := encryption cbc iven s) hapart
      (show 16 * ((dataLength s.regs - 1) / 16) ≤ capacity s.regs by omega)
    refine ⟨.ok, _, exec_encryption_outputs hcheck hiven hopen hnwr hfirst h, ?_⟩
    rw [← encryption_inPlace_outputBytes]
    exact exec_encryption_outputs (s := inPlace s) hcheck hiven hopen hnwr (encryption_inPlace_readsFirst cbc iven s) h'

/-- In place a decryption puts out what it puts out with disjoint buffers. -/
theorem decryption_inPlace {pad cbc iven : Bool} {s t t' : State} (hiven : cbc = false → iven = false)
    (hopen : ∀ kind a, memAdmit s.platform kind a = true) (hnwr : s.internal.nwr = 0)
    (hapart : BuffersApart s.regs.src s.regs.len.toNat s.regs.dst s.regs.cap.toNat)
    (h : exec (if cbc then .cbcDec pad iven else .ecbDec pad) s = .next t)
    (h' : exec (if cbc then .cbcDec pad iven else .ecbDec pad) (inPlace s) = .next t') :
    ∃ code bytes, Outputs code bytes s.regs.dst s t ∧ Outputs code bytes s.regs.src (inPlace s) t' := by
  cases hcheck : decryptCheck pad s.regs with
  | some code =>
    exact ⟨code, [], exec_decryption_failed hcheck hnwr h _,
      exec_decryption_failed (s := inPlace s) hcheck hnwr h' _⟩
  | none =>
    obtain ⟨-, hmod, -, hwhole, hpadded⟩ := decryptCheck_none hcheck
    have hfirst : (decryption cbc iven pad s).ReadsFirst := readsFirst_of_apart (B := decryption cbc iven pad s) hapart
      (show 16 * ((dataLength s.regs - 1) / 16) ≤ capacity s.regs by
        cases pad with
        | false => have := hwhole rfl; omega
        | true => have := hpadded rfl; omega)
    have hfirst' := decryption_inPlace_readsFirst cbc iven pad s
    have hrun' := exec_decryption_outputs (s := inPlace s) hcheck hiven hopen hnwr hfirst' h'
    have hcode : decryptCode pad (decryption cbc iven pad (inPlace s)) 0 ((inPlace s).regs.len.toNat / 16) =
        decryptCode pad (decryption cbc iven pad s) 0 (s.regs.len.toNat / 16) := by
      rw [decryptCode_eq hfirst', decryptCode_eq hfirst,
        BlockRun.blockAt_congr (B := decryption cbc iven pad s) (B' := decryption cbc iven pad (inPlace s)) rfl rfl rfl]
      rfl
    rw [hcode, decryption_inPlace_outputBytes] at hrun'
    exact ⟨_, _, exec_decryption_outputs hcheck hiven hopen hnwr hfirst h, hrun'⟩

end Sys2Proof.Machine

namespace Sys2Proof.Proofs

open Sys2Proof.Machine Sys2Proof.Reference

/-- Settles O51: in place and with disjoint buffers alike, every block is that of the data at issue. -/
theorem inPlaceGivesDisjointOutput : Obligations.InPlaceGivesDisjointOutput := by
  intro s t t' i hi hnwr hopen hapart h h'
  obtain ⟨code, bytes, hout, hout'⟩ : ∃ code bytes,
      Outputs code bytes s.regs.dst s t ∧ Outputs code bytes s.regs.src (inPlace s) t' := by
    obtain ⟨pad, rfl | rfl | ⟨iven, rfl | rfl⟩⟩ := hi
    · exact encryption_inPlace (cbc := false) (iven := false) (fun _ => rfl) hopen hnwr hapart h h'
    · exact decryption_inPlace (cbc := false) (iven := false) (fun _ => rfl) hopen hnwr hapart h h'
    · exact encryption_inPlace (cbc := true) (by simp) hopen hnwr hapart h h'
    · exact decryption_inPlace (cbc := true) (by simp) hopen hnwr hapart h h'
  refine ⟨by rw [hout.regs, hout'.regs], by rw [hout.regs, hout'.regs], fun k hk => ?_⟩
  rw [hout.outlen] at hk
  rw [hout.read hk, hout'.read hk]

end Sys2Proof.Proofs

/-! ## The inverse block transform (42_round_transform.md R133 to R141) -/

namespace Sys2Proof.Machine

theorem invSbox_sbox (x : Byte) : invSbox (sbox x) = x := by
  revert x
  decide +kernel

theorem invSubBytes_subBytes (b : Block) : invSubBytes (subBytes b) = b := by
  simp [invSubBytes, subBytes, mapBlock, mapColumn, invSbox_sbox]

theorem invShiftRows_shiftRows (b : Block) : invShiftRows (shiftRows b) = b := rfl

theorem doubleGf_eq (b : Byte) : doubleGf b = (b <<< 1) ^^^ (if b.msb then 0x1B else 0) := by
  rw [doubleGf]
  split <;> simp

/-- Multiplication by `{02}` is linear (40_gf_arithmetic.md R100). -/
theorem doubleGf_xor (a b : Byte) : doubleGf (a ^^^ b) = doubleGf a ^^^ doubleGf b := by
  have hcarry : (if (a ^^^ b).msb then (0x1B : Byte) else 0) =
      (if a.msb then 0x1B else 0) ^^^ (if b.msb then 0x1B else 0) := by
    rw [BitVec.msb_xor]
    cases a.msb <;> cases b.msb <;> rfl
  rw [doubleGf_eq, doubleGf_eq, doubleGf_eq, hcarry, BitVec.shiftLeft_xor_distrib]
  ac_rfl

theorem mulGfFrom_xor (n i : Nat) (a b m acc acc' : Byte) :
    mulGfFrom n i (a ^^^ b) m (acc ^^^ acc') = mulGfFrom n i a m acc ^^^ mulGfFrom n i b m acc' := by
  induction n generalizing i a b acc acc' with
  | zero => rfl
  | succ n ih =>
    rw [mulGfFrom, mulGfFrom, mulGfFrom, doubleGf_xor, ← ih]
    congr 1
    cases m.getLsbD i with
    | false => rfl
    | true =>
      simp only [if_true]
      ac_rfl

/-- Multiplication is linear in its left factor (40_gf_arithmetic.md R101). -/
theorem mulGf_xor (a b m : Byte) : mulGf (a ^^^ b) m = mulGf a m ^^^ mulGf b m := mulGfFrom_xor 8 0 a b m 0 0

theorem mulGf_0E (b : Byte) :
    mulGf b 0x0E = doubleGf b ^^^ doubleGf (doubleGf b) ^^^ doubleGf (doubleGf (doubleGf b)) := by
  simp [mulGf, mulGfFrom]

theorem mulGf_0B (b : Byte) : mulGf b 0x0B = b ^^^ doubleGf b ^^^ doubleGf (doubleGf (doubleGf b)) := by
  simp [mulGf, mulGfFrom]

theorem mulGf_0D (b : Byte) : mulGf b 0x0D = b ^^^ doubleGf (doubleGf b) ^^^ doubleGf (doubleGf (doubleGf b)) := by
  simp [mulGf, mulGfFrom]

theorem mulGf_09 (b : Byte) : mulGf b 0x09 = b ^^^ doubleGf (doubleGf (doubleGf b)) := by
  simp [mulGf, mulGfFrom]

theorem byte_xor_left_comm (a b c : Byte) : a ^^^ (b ^^^ c) = b ^^^ (a ^^^ c) := by
  rw [← BitVec.xor_assoc, ← BitVec.xor_assoc, BitVec.xor_comm a b]

theorem mixColumn_xor (a b : Column) : mixColumn (xorColumn a b) = xorColumn (mixColumn a) (mixColumn b) := by
  simp only [mixColumn, xorColumn, doubleGf_xor, Column.mk.injEq]
  refine ⟨?_, ?_, ?_, ?_⟩ <;> ac_rfl

theorem invMixColumn_xor (a b : Column) :
    invMixColumn (xorColumn a b) = xorColumn (invMixColumn a) (invMixColumn b) := by
  simp only [invMixColumn, xorColumn, mulGf_xor, Column.mk.injEq]
  refine ⟨?_, ?_, ?_, ?_⟩ <;> ac_rfl

/-- `InvMixColumns` undoes `MixColumns` on a column of one byte, whatever its row. -/
theorem invMixColumn_mixColumn_row (x : Byte) :
    invMixColumn (mixColumn ⟨x, 0, 0, 0⟩) = ⟨x, 0, 0, 0⟩ ∧ invMixColumn (mixColumn ⟨0, x, 0, 0⟩) = ⟨0, x, 0, 0⟩ ∧
      invMixColumn (mixColumn ⟨0, 0, x, 0⟩) = ⟨0, 0, x, 0⟩ ∧ invMixColumn (mixColumn ⟨0, 0, 0, x⟩) = ⟨0, 0, 0, x⟩ := by
  have hzero : doubleGf 0#8 = 0#8 := rfl
  simp only [invMixColumn, mixColumn, mulGf_0E, mulGf_0B, mulGf_0D, mulGf_09, doubleGf_xor]
  simp [hzero, BitVec.xor_assoc, BitVec.xor_comm, byte_xor_left_comm]

/-- The two matrices are inverse on the four one-byte columns that a column is the sum of (42_round_transform.md R136,
R137). -/
theorem invMixColumn_mixColumn (a : Column) : invMixColumn (mixColumn a) = a := by
  have hsum : a = xorColumn ⟨a.r0, 0, 0, 0⟩ (xorColumn ⟨0, a.r1, 0, 0⟩ (xorColumn ⟨0, 0, a.r2, 0⟩ ⟨0, 0, 0, a.r3⟩)) := by
    simp [xorColumn]
  obtain ⟨h0, -, -, -⟩ := invMixColumn_mixColumn_row a.r0
  obtain ⟨-, h1, -, -⟩ := invMixColumn_mixColumn_row a.r1
  obtain ⟨-, -, h2, -⟩ := invMixColumn_mixColumn_row a.r2
  obtain ⟨-, -, -, h3⟩ := invMixColumn_mixColumn_row a.r3
  conv_lhs => rw [hsum]
  rw [mixColumn_xor, mixColumn_xor, mixColumn_xor, invMixColumn_xor, invMixColumn_xor, invMixColumn_xor, h0, h1, h2, h3,
    ← hsum]

theorem invMixColumns_mixColumns (b : Block) : invMixColumns (mixColumns b) = b := by
  simp [invMixColumns, mixColumns, invMixColumn_mixColumn]

theorem addRoundKey_cancel (b k : Block) : addRoundKey (addRoundKey b k) k = b := xorBlock_cancel_right b k

/-- The last of `n + 1` middle rounds. -/
theorem cipherRounds_succ (w : List Column) (n r : Nat) (b : Block) : cipherRounds w (n + 1) r b =
    addRoundKey (mixColumns (shiftRows (subBytes (cipherRounds w n r b)))) (roundKey w (r + n)) := by
  induction n generalizing r b with
  | zero => rfl
  | succ n ih =>
    rw [cipherRounds, ih, cipherRounds, Nat.add_right_comm r 1 n]
    rfl

theorem invCipherRounds_cipherRounds (w : List Column) (n : Nat) (b : Block) :
    invCipherRounds w n (cipherRounds w n 1 b) = b := by
  induction n with
  | zero => rfl
  | succ n ih =>
    rw [cipherRounds_succ, invCipherRounds, Nat.add_comm 1 n, addRoundKey_cancel, invMixColumns_mixColumns,
      invShiftRows_shiftRows, invSubBytes_subBytes, ih]

/-- The inverse block transform undoes the forward one, for every schedule (42_round_transform.md R141). -/
theorem invCipher_cipher (w : List Column) (b : Block) : invCipher w (cipher w b) = b := by
  simp only [invCipher, cipher, addRoundKey_cancel, invShiftRows_shiftRows, invSubBytes_subBytes,
    invCipherRounds_cipherRounds]

end Sys2Proof.Machine

/-! ## Decryption after encryption (43_modes.md R183, R185) -/

namespace Sys2Proof.Machine

open Sys2Proof.Reference

theorem schedule_congr {r r' : Regs} (hkey : r'.key = r.key) (hlen : r'.keylen = r.keylen) :
    schedule r' = schedule r := by
  simp only [schedule, keyWordsOf, hkey, hlen]

/-- A decryption whose source holds the blocks of an encryption, under the same key and IV, has the chaining values of the
encryption and gives the blocks of its padded data. -/
theorem decryption_blockAt {cbc iven pad : Bool} {s d : State} {n : Nat} (hkey : schedule d.regs = schedule s.regs)
    (hiv : d.regs.iv = s.regs.iv) (hsrc : ∀ j < n,
      memoryBlock d.mem (byteAddr d.regs.src (16 * j)) = (encryption cbc iven s).blockAt j) {j : Nat} (hj : j < n) :
    (decryption cbc iven pad d).blockAt j = plainBlock s.regs s.mem j := by
  have hchain : (decryption cbc iven pad d).chainAt j = (encryption cbc iven s).chainAt j := by
    induction j with
    | zero =>
      show firstChain iven d.regs = firstChain iven s.regs
      rw [firstChain, firstChain, hiv]
    | succ j =>
      show (if cbc then memoryBlock d.mem (byteAddr d.regs.src (16 * j)) else .zero) =
        if cbc then (encryption cbc iven s).blockAt j else .zero
      rw [hsrc j (by omega)]
  show xorBlock (invCipher (schedule d.regs) (memoryBlock d.mem (byteAddr d.regs.src (16 * j))))
    ((decryption cbc iven pad d).chainAt j) = _
  rw [hchain, hkey, hsrc j hj]
  show xorBlock (invCipher (schedule s.regs) (cipher (schedule s.regs)
    (xorBlock (plainBlock s.regs s.mem j) ((encryption cbc iven s).chainAt j)))) _ = _
  rw [invCipher_cipher, xorBlock_cancel_right]

/-- The padded data's last block is padded by what the data lack to whole blocks, or by a whole block. -/
theorem plainBlock_paddedBy (r : Regs) (m : Memory) :
    PaddedBy (plainBlock r m (r.len.toNat / 16)) (16 - r.len.toNat % 16) := by
  refine ⟨by omega, by omega, fun k hk hfrom => ?_⟩
  rw [plainBlock, blockByte_blockOfBytes_map _ hk, plainByte, if_neg (by omega)]
  exact Nat.mod_eq_of_lt (by omega)

/-- The bytes of whole blocks of the padded data, and of a first part of the block behind them. -/
theorem plainBlocks_bytes (r : Regs) (m : Memory) (n q : Nat) (hq : q ≤ 16) :
    ((List.range n).flatMap fun j => blockBytes (plainBlock r m j)) ++ (blockBytes (plainBlock r m n)).take q =
      (List.range (16 * n + q)).map (plainByte r m) := by
  have hpart (j : Nat) : blockBytes (plainBlock r m j) = (List.range 16).map fun k => plainByte r m (16 * j + k) := rfl
  induction n generalizing q with
  | zero => simp [hpart, ← List.map_take, List.take_range, hq]
  | succ n ih =>
    have hwhole := ih 16 le_rfl
    rw [List.take_of_length_le (blockBytes_length _).le] at hwhole
    rw [List.range_succ, List.flatMap_append, List.flatMap_singleton, hwhole, ← Nat.mul_succ, List.range_add,
      List.map_append, hpart, ← List.map_take, List.take_range, min_eq_left hq, List.map_map]
    rfl

/-- The data as memory holds it. -/
def dataBytes (s : State) : List Byte :=
  (List.range s.regs.len.toNat).map fun i => s.mem.read (byteAddr s.regs.src i).toNat

theorem map_plainByte (s : State) : (List.range s.regs.len.toNat).map (plainByte s.regs s.mem) = dataBytes s :=
  List.map_congr_left fun _ hi => if_pos (List.mem_range.1 hi)

/-- A decryption that gives the blocks of the padded data ends with `OK`, and puts out the data. -/
theorem decryption_outputBytes {cbc iven pad : Bool} {s d : State}
    (hmod : pad = false → s.regs.len.toNat % 16 = 0) (hlen : d.regs.len.toNat = encryptedBytes pad s.regs)
    (hcap : s.regs.len.toNat ≤ d.regs.cap.toNat)
    (hblocks : ∀ j < d.regs.len.toNat / 16,
      (decryption cbc iven pad d).blockAt j = plainBlock s.regs s.mem j)
    (hfirst : (decryption cbc iven pad d).ReadsFirst) :
    decryptCode pad (decryption cbc iven pad d) 0 (d.regs.len.toNat / 16) = .ok ∧
      (decryption cbc iven pad d).outputBytes (d.regs.len.toNat / 16) = dataBytes s := by
  rw [decryptCode_eq hfirst]
  cases pad with
  | false =>
    refine ⟨rfl, ?_⟩
    have hbytes := plainBlocks_bytes s.regs s.mem (d.regs.len.toNat / 16) 0 (Nat.zero_le 16)
    have hn : 16 * (d.regs.len.toNat / 16) + 0 = s.regs.len.toNat := by
      have := hmod rfl
      simp only [encryptedBytes, Bool.false_eq_true, if_false] at hlen
      omega
    rw [hn, map_plainByte, List.take_zero, List.append_nil] at hbytes
    rw [← hbytes]
    exact List.flatMap_congr fun j hj => congrArg blockBytes (hblocks j (List.mem_range.1 hj))
  | true =>
    simp only [encryptedBytes, if_true] at hlen
    have hn : d.regs.len.toNat / 16 = s.regs.len.toNat / 16 + 1 := by omega
    rw [hn] at hblocks ⊢
    obtain ⟨hcode, hout⟩ := unpad_of_paddedBy (r := d.regs) (plainBlock_paddedBy s.regs s.mem)
      (by simp only [dataLength, capacity]; omega)
    have hbytes := plainBlocks_bytes s.regs s.mem (s.regs.len.toNat / 16) (s.regs.len.toNat % 16) (by omega)
    rw [Nat.div_add_mod, map_plainByte] at hbytes
    refine ⟨?_, ?_⟩
    · rw [Nat.add_sub_cancel, hblocks _ (by omega)]
      simpa using hcode
    · rw [BlockRun.outputBytes_succ, hblocks _ (by omega), ← hbytes]
      congr 1
      · refine List.flatMap_congr fun j hj => ?_
        have hj := List.mem_range.1 hj
        rw [hblocks j (by omega)]
        exact decryptOut_whole (r := d.regs) (fun _ => by simp only [dataLength]; omega) _
      · show decryptOut true d.regs _ _ = _
        rw [decryptOut, if_pos (by simp [dataLength]; omega), hout]
        congr 1
        omega

/-- Padding adds at most a block. -/
theorem encryptedBytes_le (pad : Bool) (r : Regs) : encryptedBytes pad r ≤ r.len.toNat + if pad then 16 else 0 := by
  cases pad with
  | false => exact le_rfl
  | true =>
    simp only [encryptedBytes, if_true]
    omega

/-- Decrypted with the key and IV of an encryption, its output gives the data. -/
theorem exec_decryption_of_encrypted {cbc iven pad : Bool} {s d : State} (hkey : ValidKey s.regs)
    (hmod : pad = false → s.regs.len.toNat % 16 = 0) (hiven : cbc = false → iven = false)
    (hkeylen : d.regs.keylen = s.regs.keylen) (hkeys : d.regs.key = s.regs.key) (hiv : d.regs.iv = s.regs.iv)
    (hlen : d.regs.len.toNat = encryptedBytes pad s.regs) (hcap : s.regs.len.toNat ≤ d.regs.cap.toNat)
    (hopen : ∀ kind a, memAdmit d.platform kind a = true) (hnwr : d.internal.nwr = 0)
    (hsrc : ∀ j < d.regs.len.toNat / 16,
      memoryBlock d.mem (byteAddr d.regs.src (16 * j)) = (encryption cbc iven s).blockAt j)
    (hfirst : (decryption cbc iven pad d).ReadsFirst) :
    ∃ u, exec (if cbc then .cbcDec pad iven else .ecbDec pad) d = .next u ∧
      Outputs .ok (dataBytes s) d.regs.dst d u := by
  have hmod' := encryptedBytes_mod hmod
  have hkey' : ValidKey d.regs := by
    unfold ValidKey
    rwa [hkeylen]
  have hcheck : decryptCheck pad d.regs = none := by
    refine decryptCheck_eq_none (by omega) (fun hp => ?_) hkey' ?_
    · rw [hlen, encryptedBytes, if_pos hp]
      omega
    · have := encryptedBytes_le pad s.regs
      omega
  obtain ⟨hcode, hbytes⟩ := decryption_outputBytes hmod hlen hcap
    (fun j hj => decryption_blockAt (schedule_congr hkeys hkeylen) hiv hsrc hj) hfirst
  have hexec := exec_decryption hcheck hiven
  refine ⟨_, hexec, ?_⟩
  rw [← hcode, ← hbytes]
  exact exec_decryption_outputs hcheck hiven hopen hnwr hfirst hexec

end Sys2Proof.Machine

namespace Sys2Proof.Proofs

open Sys2Proof.Machine Sys2Proof.Reference

/-- Settles O50: the source of the decryption holds the encrypted blocks, which decrypt to those of the padded data. -/
theorem decryptionRestoresEncryptedData : Obligations.DecryptionRestoresEncryptedData := by
  intro s t pad cbc iven out cap hkey hmod hcap hnwr hiven hopen hapart hout hcapOut hexec
  have hmod' := encryptedBytes_mod hmod
  have hle := dataLength_le_encryptedBytes (pad := pad) (r := s.regs)
  have hlt : s.regs.cap.toNat < 2 ^ 32 := s.regs.cap.isLt
  have hfirst : (encryption cbc iven s).ReadsFirst := readsFirst_of_apart (B := encryption cbc iven s) hapart
    (show 16 * ((dataLength s.regs - 1) / 16) ≤ _ by omega)
  have hrun := exec_encryption_outputs (encryptCheck_eq_none hmod hkey hcap) hiven hopen hnwr hfirst hexec
  have hwhole := BlockRun.outputBytes_eq_wholeBytes (B := encryption cbc iven s)
    (n := encryptedBytes pad s.regs / 16) fun _ _ _ => rfl
  rw [hwhole] at hrun
  let d : Machine.State :=
    { t with regs := { t.regs with src := s.regs.dst, dst := out, len := t.regs.outlen, cap := cap } }
  have hlen : d.regs.len.toNat = encryptedBytes pad s.regs := by
    rw [show d.regs.len = t.regs.outlen from rfl, hrun.outlen, BlockRun.wholeBytes_length]
    omega
  have hsrc (j : Nat) (hj : j < d.regs.len.toNat / 16) :
      memoryBlock d.mem (byteAddr d.regs.src (16 * j)) = (encryption cbc iven s).blockAt j := by
    rw [show d.mem = t.mem from rfl, hrun.mem]
    exact memoryBlock_wholeBytes _ (by omega) (by omega) _ _
  have hfirst' : (decryption cbc iven pad d).ReadsFirst := by
    rcases hout with rfl | hout
    · exact readsFirst_of_inPlace rfl
    · refine readsFirst_of_apart (n := s.regs.len.toNat) (B := decryption cbc iven pad d) ?_ ?_
      · rwa [← hlen] at hout
      · show 16 * ((d.regs.len.toNat - 1) / 16) ≤ _
        have := encryptedBytes_le pad s.regs
        split at this <;> omega
  obtain ⟨u, hu, houtputs⟩ := exec_decryption_of_encrypted (d := d) hkey hmod hiven (by simp [d, hrun.regs])
    (by simp [d, hrun.regs]) (by simp [d, hrun.regs]) hlen hcapOut
    (fun kind a => by rw [show d.platform = t.platform from rfl, hrun.platform]; exact hopen kind a) hrun.nwr hsrc hfirst'
  have hlength : (dataBytes s).length = s.regs.len.toNat := by simp [dataBytes]
  refine ⟨u, hu, by rw [houtputs.regs]; rfl, ?_, fun i hi => ?_⟩
  · rw [← BitVec.toNat_inj, houtputs.outlen, hlength]
  · rw [show out = d.regs.dst from rfl, houtputs.read (hlength.symm ▸ hi)]
    simp [dataBytes]

end Sys2Proof.Proofs

/-! ## The command word (30_encoding.md R80 to R83): the decoder as the opcode table -/

namespace Sys2Proof

/-- The OP value of a command's row (30_encoding.md R82). -/
def Instr.op (i : Instr) : Byte := i.row.pattern.setWidth 8

/-- The field bits a command's row admits (30_encoding.md R82). -/
def Instr.fields : Instr → Word
  | .addRoundKey _ | .keyExpand _ => 0x0000F000
  | .ecbEnc _ | .ecbDec _ => 0x00000100
  | .cbcEnc _ _ | .cbcDec _ _ => 0x00000300
  | .gfDouble | .gfMul | .subBytes | .invSubBytes | .shiftRows | .invShiftRows | .mixColumns | .invMixColumns
  | .encBlock | .decBlock | .ctr => 0

/-- The command with its operands read from a word. -/
def Instr.withOperandsOf (w : Word) : Instr → Instr
  | .addRoundKey _ => .addRoundKey (rkidxField w)
  | .keyExpand _ => .keyExpand (rkidxField w)
  | .ecbEnc _ => .ecbEnc (padField w)
  | .ecbDec _ => .ecbDec (padField w)
  | .cbcEnc _ _ => .cbcEnc (padField w) (ivenField w)
  | .cbcDec _ _ => .cbcDec (padField w) (ivenField w)
  | i => i

/-! ### The rows of the opcode table -/

theorem Instr.row_pattern (i : Instr) : i.row.pattern = i.op.setWidth 32 := by
  cases i <;> rfl

theorem Instr.row_mask (i : Instr) : i.row.mask = ~~~i.fields := by
  cases i with
  | addRoundKey | keyExpand => exact (by decide : (0xFFFF0FFF : Word) = ~~~0x0000F000)
  | ecbEnc | ecbDec => exact (by decide : (0xFFFFFEFF : Word) = ~~~0x00000100)
  | cbcEnc | cbcDec => exact (by decide : (0xFFFFFCFF : Word) = ~~~0x00000300)
  | _ => decide

/-- No field bit lies in OP. -/
theorem Instr.fields_low (i : Instr) : i.fields.setWidth 8 = 0#8 := by
  cases i with
  | addRoundKey | keyExpand => exact (by decide : (0x0000F000 : Word).setWidth 8 = 0#8)
  | ecbEnc | ecbDec => exact (by decide : (0x00000100 : Word).setWidth 8 = 0#8)
  | cbcEnc | cbcDec => exact (by decide : (0x00000300 : Word).setWidth 8 = 0#8)
  | _ => decide

theorem Instr.row_mem_opcodeRows (i : Instr) : i.row ∈ opcodeRows := by
  cases i <;> simp [opcodeRows, Instr.row]

theorem exists_row_eq {r : OpcodeRow} (hr : r ∈ opcodeRows) : ∃ i : Instr, i.row = r := by
  obtain ⟨i, -, hi⟩ := List.mem_map.1 hr
  exact ⟨i, hi⟩

/-- The rows differ in their patterns, so in their OP values. -/
theorem Instr.row_eq_of_op_eq {i j : Instr} (h : i.op = j.op) : i.row = j.row :=
  List.inj_on_of_nodup_map (f := OpcodeRow.pattern) (by decide : (opcodeRows.map OpcodeRow.pattern).Nodup)
    i.row_mem_opcodeRows j.row_mem_opcodeRows (by rw [i.row_pattern, j.row_pattern, h])

theorem getLsbD_opBits (k : Nat) : (0x000000FF : Word).getLsbD k = decide (k < 8) := by
  refine (BitVec.getLsbD_setWidth 32 (BitVec.allOnes 8) k).trans ?_
  rw [BitVec.getLsbD_allOnes, ← Bool.decide_and]
  exact decide_eq_decide.2 (by omega)

/-- A word is an OP value outside the bits `fields` when its OP is that value and it has no bit outside OP and
`fields`: bit by bit, below 8 and from 8 on. -/
theorem and_not_fields_eq_op_iff {fields : Word} (hfields : fields.setWidth 8 = 0#8) (w : Word) (op : Byte) :
    w &&& ~~~fields = op.setWidth 32 ↔ opField w = op ∧ w &&& ~~~(0x000000FF ||| fields) = 0 := by
  have hlow (k : Nat) (hk : k < 8) : fields.getLsbD k = false := by
    simpa [hk] using congrArg (·.getLsbD k) hfields
  have hhigh (k : Nat) (hk : 8 ≤ k) : op.getLsbD k = false := BitVec.getLsbD_of_ge op k hk
  have hrow : w &&& ~~~fields = op.setWidth 32 ↔
      ∀ k < 32, (w.getLsbD k && !fields.getLsbD k) = op.getLsbD k := by
    refine BitVec.eq_of_getLsbD_eq_iff.trans (forall₂_congr fun k hk => ?_)
    simp only [BitVec.getLsbD_and, BitVec.getLsbD_not, BitVec.getLsbD_setWidth, hk, decide_true, Bool.true_and]
  have hop : opField w = op ↔ ∀ k < 8, w.getLsbD k = op.getLsbD k := by
    refine BitVec.eq_of_getLsbD_eq_iff.trans (forall₂_congr fun k hk => ?_)
    simp only [opField, BitVec.getLsbD_extractLsb', hk, decide_true, Bool.true_and, Nat.zero_add]
  have hbits : w &&& ~~~(0x000000FF ||| fields) = 0 ↔
      ∀ k < 32, (w.getLsbD k && !(decide (k < 8) || fields.getLsbD k)) = false := by
    refine BitVec.eq_of_getLsbD_eq_iff.trans (forall₂_congr fun k hk => ?_)
    rw [BitVec.getLsbD_and, BitVec.getLsbD_not, BitVec.getLsbD_or, getLsbD_opBits, decide_eq_true hk, Bool.true_and]
    exact Iff.of_eq (congrArg _ BitVec.getLsbD_zero)
  rw [hrow, hop, hbits]
  constructor
  · refine fun h => ⟨fun k hk => ?_, fun k hk => ?_⟩
    · simpa [hlow k hk] using h k (by omega)
    · by_cases hk8 : k < 8
      · simp [hk8]
      · simpa [hk8, hhigh k (by omega)] using h k hk
  · rintro ⟨h, h'⟩ k hk
    by_cases hk8 : k < 8
    · simpa [hlow k hk8] using h k hk8
    · simpa [hk8, hhigh k (by omega)] using h' k hk

/-- A word matches a command's row when it passes the decoder's tests for that command (30_encoding.md R83). -/
theorem Instr.row_matches_iff (i : Instr) (w : Word) :
    w &&& i.row.mask = i.row.pattern ↔ opField w = i.op ∧ w &&& ~~~(0x000000FF ||| i.fields) = 0 := by
  rw [i.row_mask, i.row_pattern, and_not_fields_eq_op_iff i.fields_low]

/-! ### What the decoder says -/

@[simp] theorem Instr.row_withOperandsOf (w : Word) (i : Instr) : (i.withOperandsOf w).row = i.row := by
  cases i <;> rfl

@[simp] theorem Instr.withOperandsOf_withOperandsOf (w : Word) (i : Instr) :
    (i.withOperandsOf w).withOperandsOf w = i.withOperandsOf w := by
  cases i <;> rfl

theorem rkidxField_lt (w : Word) : rkidxField w < 16 := (w.extractLsb' 12 4).isLt

theorem Instr.wellFormed_withOperandsOf (w : Word) (i : Instr) : (i.withOperandsOf w).wellFormed = true := by
  cases i with
  | addRoundKey | keyExpand => exact decide_eq_true (rkidxField_lt w)
  | _ => rfl

theorem ifAdmitted_eq_ok_iff {fields w : Word} {i j : Instr} :
    ifAdmitted fields w i = .ok j ↔ w &&& ~~~(0x000000FF ||| fields) = 0 ∧ i = j := by
  unfold ifAdmitted
  split
  · next h => simp only [h, true_and, Except.ok.injEq]
  · next h => simp only [h, false_and, reduceCtorEq]

/-- A word with the OP of a command decodes to that command and its own operands, if its other bits are admitted. -/
theorem decode_of_op {w : Word} {i : Instr} (h : opField w = i.op) :
    decode w = ifAdmitted i.fields w (i.withOperandsOf w) := by
  simp only [decode, h]
  cases i <;> rfl

/-- A word whose OP is of no row is illegal (30_encoding.md R85). -/
theorem decode_of_unassigned {w : Word} (h : ∀ i : Instr, opField w ≠ i.op) : decode w = .error .unassignedOp := by
  unfold decode
  exact (if_neg (h .gfDouble)).trans <| (if_neg (h .gfMul)).trans <| (if_neg (h .subBytes)).trans <|
    (if_neg (h .invSubBytes)).trans <| (if_neg (h .shiftRows)).trans <| (if_neg (h .invShiftRows)).trans <|
    (if_neg (h .mixColumns)).trans <| (if_neg (h .invMixColumns)).trans <| (if_neg (h (.addRoundKey 0))).trans <|
    (if_neg (h (.keyExpand 0))).trans <| (if_neg (h .encBlock)).trans <| (if_neg (h .decBlock)).trans <|
    (if_neg (h (.ecbEnc false))).trans <| (if_neg (h (.ecbDec false))).trans <|
    (if_neg (h (.cbcEnc false false))).trans <| (if_neg (h (.cbcDec false false))).trans <| if_neg (h .ctr)

/-- A word decodes to the command whose row it matches and whose operands it holds (30_encoding.md R81 to R83). -/
theorem decode_eq_ok_iff {w : Word} {i : Instr} :
    decode w = .ok i ↔ w &&& i.row.mask = i.row.pattern ∧ i.withOperandsOf w = i := by
  constructor
  · intro h
    by_cases hop : ∃ j : Instr, opField w = j.op
    · obtain ⟨j, hop⟩ := hop
      rw [decode_of_op hop, ifAdmitted_eq_ok_iff] at h
      obtain ⟨hbits, rfl⟩ := h
      rw [j.row_withOperandsOf w]
      exact ⟨(j.row_matches_iff w).2 ⟨hop, hbits⟩, j.withOperandsOf_withOperandsOf w⟩
    · rw [decode_of_unassigned (not_exists.1 hop)] at h
      cases h
  · rintro ⟨hrow, hi⟩
    obtain ⟨hop, hbits⟩ := (i.row_matches_iff w).1 hrow
    rw [decode_of_op hop, ifAdmitted_eq_ok_iff]
    exact ⟨hbits, hi⟩

theorem wellFormed_of_decode {w : Word} {i : Instr} (h : decode w = .ok i) : i.wellFormed = true := by
  obtain ⟨-, hi⟩ := decode_eq_ok_iff.1 h
  exact hi ▸ i.wellFormed_withOperandsOf w

/-! ### The encoding of a command matches its row and holds its operands -/

theorem padField_encodeFields {op rkidx : Nat} (hop : op < 256) (pad iven : Bool) :
    padField (encodeFields op pad iven rkidx) = pad := by
  have hbit : (op + 256 * pad.toNat + 512 * iven.toNat + 4096 * rkidx) / 2 ^ 8 % 2 = pad.toNat := by
    have := pad.toNat_le
    have := iven.toNat_le
    omega
  rw [padField, encodeFields, BitVec.getLsbD_ofNat, Nat.testBit_eq_decide_div_mod_eq, hbit]
  cases pad <;> rfl

theorem ivenField_encodeFields {op rkidx : Nat} (hop : op < 256) (pad iven : Bool) :
    ivenField (encodeFields op pad iven rkidx) = iven := by
  have hbit : (op + 256 * pad.toNat + 512 * iven.toNat + 4096 * rkidx) / 2 ^ 9 % 2 = iven.toNat := by
    have := pad.toNat_le
    have := iven.toNat_le
    omega
  rw [ivenField, encodeFields, BitVec.getLsbD_ofNat, Nat.testBit_eq_decide_div_mod_eq, hbit]
  cases iven <;> rfl

theorem rkidxField_encodeFields {op rkidx : Nat} (hop : op < 256) (pad iven : Bool) (hk : rkidx < 16) :
    rkidxField (encodeFields op pad iven rkidx) = rkidx := by
  simp only [rkidxField, encodeFields, BitVec.extractLsb'_toNat, BitVec.toNat_ofNat, Nat.shiftRight_eq_div_pow]
  have := pad.toNat_le
  have := iven.toNat_le
  omega

theorem Instr.withOperandsOf_encode {i : Instr} (h : i.wellFormed = true) : i.withOperandsOf (encode i) = i := by
  cases i with
  | addRoundKey | keyExpand =>
    exact congrArg _ (rkidxField_encodeFields (by decide) _ _ (of_decide_eq_true h))
  | ecbEnc | ecbDec => exact congrArg _ (padField_encodeFields (by decide) _ _)
  | cbcEnc | cbcDec =>
    exact congrArg₂ _ (padField_encodeFields (by decide) _ _) (ivenField_encodeFields (by decide) _ _)
  | _ => rfl

open Laws.RowFits in
theorem rowFits (i : Instr) : Statement i :=
  match i with
  | .gfDouble => gfDouble
  | .gfMul => gfMul
  | .subBytes => subBytes
  | .invSubBytes => invSubBytes
  | .shiftRows => shiftRows
  | .invShiftRows => invShiftRows
  | .mixColumns => mixColumns
  | .invMixColumns => invMixColumns
  | .addRoundKey k => addRoundKey k
  | .keyExpand k => keyExpand k
  | .encBlock => encBlock
  | .decBlock => decBlock
  | .ecbEnc pad => ecbEnc pad
  | .ecbDec pad => ecbDec pad
  | .cbcEnc pad iven => cbcEnc pad iven
  | .cbcDec pad iven => cbcDec pad iven
  | .ctr => ctr

theorem encode_and_row_mask {i : Instr} (h : i.wellFormed = true) : encode i &&& i.row.mask = i.row.pattern :=
  eq_of_beq (rowFits i h).2

theorem decode_encode {i : Instr} (h : i.wellFormed = true) : decode (encode i) = .ok i :=
  decode_eq_ok_iff.2 ⟨encode_and_row_mask h, i.withOperandsOf_encode h⟩

/-! ### A command has one word -/

theorem and_padBit (w : Word) : w &&& (0x00000100 : Word) = if padField w then 0x00000100 else 0 :=
  BitVec.and_twoPow w 8

theorem and_ivenBit (w : Word) : w &&& (0x00000200 : Word) = if ivenField w then 0x00000200 else 0 :=
  BitVec.and_twoPow w 9

theorem and_padIvenBits (w : Word) :
    w &&& (0x00000300 : Word) = (w &&& (0x00000100 : Word)) ||| (w &&& (0x00000200 : Word)) :=
  BitVec.and_or_distrib_left (x := w) (y := 0x00000100) (z := 0x00000200)

theorem and_rkidxBits (w : Word) : w &&& (0x0000F000 : Word) = BitVec.ofNat 32 (rkidxField w) <<< 12 := by
  have hmask : (0x0000F000 : Word) = (BitVec.allOnes 4).setWidth 32 <<< 12 := by decide
  refine BitVec.eq_of_getLsbD_eq fun k hk => ?_
  rw [hmask, rkidxField, BitVec.ofNat_toNat]
  simp only [BitVec.getLsbD_and, BitVec.getLsbD_shiftLeft, BitVec.getLsbD_setWidth, BitVec.getLsbD_allOnes,
    BitVec.getLsbD_extractLsb']
  by_cases hk12 : k < 12
  · simp [hk12]
  · rw [Nat.add_sub_cancel' (not_lt.1 hk12)]
    ac_rfl

/-- Words with the same operands for a command agree in the field bits of its row. -/
theorem and_fields_eq {i : Instr} {w v : Word} (h : i.withOperandsOf w = i.withOperandsOf v) :
    w &&& i.fields = v &&& i.fields := by
  cases i with
  | addRoundKey | keyExpand =>
    injection h with hk
    simp only [Instr.fields, and_rkidxBits, hk]
  | ecbEnc | ecbDec =>
    injection h with hp
    simp only [Instr.fields, and_padBit, hp]
  | cbcEnc | cbcDec =>
    injection h with hp hv
    simp only [Instr.fields, and_padIvenBits, and_padBit, and_ivenBit, hp, hv]
  | _ => exact BitVec.and_zero.trans BitVec.and_zero.symm

/-- The mask of a command's row and its fields leave no bit of a word open. -/
theorem Instr.and_mask_or_and_fields (i : Instr) (w : Word) : (w &&& i.row.mask) ||| (w &&& i.fields) = w := by
  rw [i.row_mask, BitVec.or_comm, ← BitVec.and_or_distrib_left, BitVec.or_not_self, BitVec.and_allOnes]

theorem decode_injective {w v : Word} {i : Instr} (hw : decode w = .ok i) (hv : decode v = .ok i) : w = v := by
  obtain ⟨hwrow, hwi⟩ := decode_eq_ok_iff.1 hw
  obtain ⟨hvrow, hvi⟩ := decode_eq_ok_iff.1 hv
  rw [← i.and_mask_or_and_fields w, ← i.and_mask_or_and_fields v, hwrow, hvrow, and_fields_eq (hwi.trans hvi.symm)]

end Sys2Proof

namespace Sys2Proof.Proofs

/-- Settles O2: the encoding matches the command's row and holds its operands. -/
theorem decodeEncodeRoundTrip : Obligations.DecodeEncodeRoundTrip :=
  fun _ => decode_encode

/-- Settles O3: the word and the encoding of its command decode alike, and a command has one word. -/
theorem encodeDecodeRoundTrip : Obligations.EncodeDecodeRoundTrip := by
  intro w i h
  have hi := wellFormed_of_decode h
  exact ⟨hi, decode_injective (decode_encode hi) h⟩

/-- Settles O4: to decode is to match a row, and no two rows have one OP value. -/
theorem legalWordsMatchOneTableRow : Obligations.LegalWordsMatchOneTableRow := by
  intro w
  have row_of_decode (i : Instr) (h : decode w = .ok i) : i.row ∈ opcodeRows ∧ w &&& i.row.mask = i.row.pattern :=
    ⟨i.row_mem_opcodeRows, (decode_eq_ok_iff.1 h).1⟩
  refine ⟨⟨fun ⟨i, h⟩ => ⟨i.row, row_of_decode i h⟩, fun ⟨r, hr, hmatch⟩ => ?_⟩, row_of_decode,
    fun r hr r' hr' h h' => ?_⟩
  · obtain ⟨i, rfl⟩ := exists_row_eq hr
    exact ⟨i.withOperandsOf w, decode_eq_ok_iff.2
      ⟨by rwa [i.row_withOperandsOf], i.withOperandsOf_withOperandsOf w⟩⟩
  · obtain ⟨i, rfl⟩ := exists_row_eq hr
    obtain ⟨j, rfl⟩ := exists_row_eq hr'
    obtain ⟨hop, -⟩ := (i.row_matches_iff w).1 h
    obtain ⟨hop', -⟩ := (j.row_matches_iff w).1 h'
    exact Instr.row_eq_of_op_eq (hop.symm.trans hop')

/-- Settles O1, by running the decoder on the sixteen words. -/
theorem sampleWordsDecode : Obligations.SampleWordsDecode := by
  unfold Obligations.SampleWordsDecode
  decide

end Sys2Proof.Proofs

/-! ## Latency (70_reset_and_hazards.md R257) -/

namespace Sys2Proof.Machine

/-- The command in flight runs alike whatever lies outside the engine. -/
theorem runCommand_outside (o : State) {s t : State} (h : runCommand s = .next t) :
    runCommand (outside o s) = .next (outside o t) := by
  obtain ⟨i, hi, hrun⟩ | ⟨why, hwhy, hrun⟩ := runCommand_cases s <;> rw [hrun] at h
  · simp only [runCommand, outside_regs, hi]
    exact exec_outside o h
  · simp only [runCommand, outside_regs, hwhy]
    cases h
    rfl

/-- The command in flight leaves what lies outside the engine as it is. -/
theorem outside_of_runCommand {s t : State} (h : runCommand s = .next t) : outside s t = t :=
  Host.Outcome.next.inj ((runCommand_outside s h).symm.trans h)

theorem runCommand_rdata {s t : State} (h : runCommand s = .next t) (v : Word) :
    runCommand { s with rdata := v } = .next { t with rdata := v } := by
  have hrun := runCommand_outside { s with rdata := v } h
  rw [← outside_of_runCommand h] at hrun ⊢
  exact hrun

/-- The step with no cycle left completes the command: the engine is then idle and done. -/
theorem step_completes {s : State} (hb : s.regs.status.busy = true) (hc : s.countdown = 0) :
    ∃ t, step s = .next t ∧ runCommand s = .next t ∧ t.regs.status.busy = false ∧ t.regs.status.done = true ∧
      t.script = s.script := by
  obtain ⟨code, u, state, gfres, hrun, hu⟩ := runCommand_inversion s
  refine ⟨_, ?_, hrun, rfl, rfl, hu.script⟩
  rw [← hrun, step, cycle, if_pos hb, if_pos hc]

theorem core_run_of_next {s t : State} (h : step s = .next t) (k : Nat) :
    Host.Core.run core (k + 1) s = Host.Core.run core k t := by
  simp only [Host.Core.run, Host.Check.core_step]
  rw [h]

/-- A cycle passes with no host action to come. -/
theorem step_latency_noHost {s : State} (hb : s.regs.status.busy = true) (hs : s.script = []) (n : Nat) :
    step { s with countdown := n + 1 } = .next { s with countdown := n } := by
  simp [step, cycle, hb, hostTurn, hs]

/-- A cycle passes with the host polling: it reads `STATUS` and polls again. -/
theorem step_latency_wait {s : State} {xs : List HostAct} (hb : s.regs.status.busy = true)
    (hs : s.script = .wait :: xs) (n : Nat) :
    step { s with countdown := n + 1 } = .next { s with countdown := n, rdata := statusWord s.regs.status } := by
  simp [step, cycle, hb, hostTurn, hs, hostAct, readStatus]

theorem run_latency_noHost {s : State} (hb : s.regs.status.busy = true) (hs : s.script = []) (n k : Nat) :
    Host.Core.run core (n + k) { s with countdown := n } = Host.Core.run core k { s with countdown := 0 } := by
  induction n with
  | zero => rw [Nat.zero_add]
  | succ n ih => rw [Nat.add_right_comm, core_run_of_next (step_latency_noHost hb hs n), ih]

/-- The cycles of a polling host change its read data only. -/
theorem run_latency_wait {s : State} {xs : List HostAct} (hb : s.regs.status.busy = true)
    (hs : s.script = .wait :: xs) (n k : Nat) :
    ∃ v, Host.Core.run core (n + k) { s with countdown := n } =
      Host.Core.run core k { s with countdown := 0, rdata := v } := by
  induction n generalizing s with
  | zero => exact ⟨s.rdata, by rw [Nat.zero_add]⟩
  | succ n ih =>
    obtain ⟨v, hv⟩ := ih (s := { s with rdata := statusWord s.regs.status }) hb hs
    exact ⟨v, by rw [Nat.add_right_comm, core_run_of_next (step_latency_wait hb hs n), hv]⟩

/-- The poll that finds the engine idle ends the ownership and reads the completed `STATUS`. -/
theorem step_wait_completed {s : State} {xs : List HostAct} (hb : s.regs.status.busy = false)
    (hd : s.regs.status.done = true) (hs : s.script = .wait :: xs) :
    step s = .next { s with
      script := xs, rdata := BitVec.ofNat 32 (2 + 256 * Reference.codeNumber s.regs.status.err), owned := [] } := by
  rw [step_idle hb hs]
  simp [hostAct, hb, readStatus, statusWord_eq_ofNat, Reference.statusNumber, hd]

end Sys2Proof.Machine

namespace Sys2Proof.Proofs

open Sys2Proof.Machine

/-- Settles O40: the cycles before the completion change the count, and the read data of a host that polls; the command
reads neither. -/
theorem latencyChangesNoResult : Obligations.LatencyChangesNoResult := by
  constructor
  · intro s n hb hs
    obtain ⟨t, hstep, -, hidle, hdone, -⟩ := step_completes (s := { s with countdown := 0 }) hb rfl
    refine ⟨t, ?_, hstep, hidle, hdone⟩
    rw [run_latency_noHost hb hs n 1]
    exact core_run_of_next hstep 0
  · intro s n xs hb hs
    obtain ⟨t, hstep, hrun, hidle, hdone, hscript⟩ := step_completes (s := { s with countdown := 0 }) hb rfl
    refine ⟨t, hstep, hidle, hdone, ?_⟩
    obtain ⟨v, hv⟩ := run_latency_wait hb hs n 2
    have hpoll : step { s with countdown := 0, rdata := v } = .next { t with rdata := v } := by
      obtain ⟨t', hstep', hrun', -⟩ := step_completes (s := { s with countdown := 0, rdata := v }) hb rfl
      exact hstep'.trans (hrun'.symm.trans (runCommand_rdata hrun v))
    rw [hv, core_run_of_next hpoll]
    exact core_run_of_next (step_wait_completed (s := { t with rdata := v }) hidle hdone (hscript.trans hs)) 0

end Sys2Proof.Proofs

/-! ## Galois-field arithmetic (40_gf_arithmetic.md R100 to R104) -/

namespace Sys2Proof.Machine

open Sys2Proof.Reference

/-- A GF command counts no byte as written, and of the results it changes `GFRES` only. -/
theorem exec_gf_completes {i : Instr} {s t : State} (hi : IsGf i = true) (hnwr : s.internal.nwr = 0)
    (h : exec i s = .next t) : Completes .ok 0 s.regs.state t.regs.gfres s t ∧ KeepsBuffers s t := by
  have hmode : IsMode i = false := by
    cases i with
    | gfDouble | gfMul => rfl
    | _ => cases hi
  obtain ⟨hok, hstate⟩ := exec_gf_results hi h
  obtain ⟨hout, hkeeps⟩ := exec_nonMode_keepsBuffers hmode h
  have hcompletes := exec_completes h
  rw [hok, hstate, hout, hnwr] at hcompletes
  exact ⟨hcompletes, hkeeps⟩

theorem doubleGf_eq_timesX (b : Byte) : doubleGf b = timesX b := doubleGf_eq b

theorem timesXPow_succ (n : Nat) (b : Byte) : timesXPow (n + 1) b = timesX (timesXPow n b) := by
  simp [timesXPow, List.range_succ]

/-- The iterations of `mul_gf` from bit `i` on add up the `b * x^j` of the bits that are 1. -/
theorem mulGfFrom_eq_foldl (n i : Nat) (b m acc : Byte) : mulGfFrom n i (timesXPow i b) m acc =
    (List.range' i n).foldl (fun acc j => if m.getLsbD j then acc ^^^ timesXPow j b else acc) acc := by
  induction n generalizing i acc with
  | zero => rfl
  | succ n ih => rw [mulGfFrom, doubleGf_eq_timesX, ← timesXPow_succ, ih, List.range'_succ, List.foldl_cons]

theorem mulGf_eq_foldl (b m : Byte) : mulGf b m =
    (List.range 8).foldl (fun acc j => if m.getLsbD j then acc ^^^ timesXPow j b else acc) 0 := by
  rw [List.range_eq_range']
  exact mulGfFrom_eq_foldl 8 0 b m 0

/-- Bit `i` of operand B is bit `8 + i` of `GFOP` (10_state.md R33). -/
theorem gfOperandB_getLsbD (r : Regs) {i : Nat} (hi : i < 8) :
    (gfOperandB r).getLsbD i = r.gfop.getLsbD (8 + i) := by
  simp [gfOperandB, hi]

/-- The polynomial over GF(2) that the bits of a byte are the coefficients of (40_gf_arithmetic.md R102). -/
noncomputable def bytePoly (b : Byte) : Polynomial (ZMod 2) :=
  ∑ i ∈ Finset.range 8, if b.getLsbD i then Polynomial.X ^ i else 0

/-- `x^8+x^4+x^3+x+1` (40_gf_arithmetic.md R102). -/
noncomputable def gfModulus : Polynomial (ZMod 2) :=
  Polynomial.X ^ 8 + Polynomial.X ^ 4 + Polynomial.X ^ 3 + Polynomial.X + 1

theorem bytePoly_zero : bytePoly 0 = 0 := by simp [bytePoly]

theorem bytePoly_xor (a b : Byte) : bytePoly (a ^^^ b) = bytePoly a + bytePoly b := by
  simp only [bytePoly, ← Finset.sum_add_distrib]
  refine Finset.sum_congr rfl fun i _ => ?_
  rw [BitVec.getLsbD_xor]
  cases a.getLsbD i <;> cases b.getLsbD i <;> simp [CharTwo.add_self_eq_zero]

theorem bytePoly_coeff (b : Byte) {i : Nat} (hi : i < 8) : (bytePoly b).coeff i = if b.getLsbD i then 1 else 0 := by
  rw [bytePoly, Polynomial.finsetSum_coeff, Finset.sum_eq_single_of_mem i (Finset.mem_range.2 hi)]
  · split <;> simp
  · intro j _ hj
    split <;> simp [Polynomial.coeff_X_pow, hj.symm]

theorem bytePoly_injective : Function.Injective bytePoly := by
  intro a b h
  refine BitVec.eq_of_getLsbD_eq fun i hi => ?_
  have hcoeff := congrArg (Polynomial.coeff · i) h
  simp only [bytePoly_coeff _ hi] at hcoeff
  cases ha : a.getLsbD i <;> cases hb : b.getLsbD i <;> simp_all

theorem bytePoly_degree_lt (b : Byte) : (bytePoly b).degree < 8 := by
  rw [bytePoly]
  refine (Polynomial.degree_sum_le _ _).trans_lt ((Finset.sup_lt_iff (by decide)).2 fun i hi => ?_)
  split
  · simpa using hi
  · rw [Polynomial.degree_zero]
    decide

/-- The shift of `double_gf` before the reduction: the high bit of the byte is the coefficient of `x^8`. -/
theorem X_mul_bytePoly (b : Byte) :
    Polynomial.X * bytePoly b = bytePoly (b <<< 1) + if b.msb then Polynomial.X ^ 8 else 0 := by
  have hlow : (b <<< 1).getLsbD 0 = false := by simp
  have hbit (i : Nat) (hi : i < 7) : (b <<< 1).getLsbD (i + 1) = b.getLsbD i := by
    simpa using fun _ => Nat.succ_lt_succ hi
  have hshift : bytePoly (b <<< 1) =
      ∑ i ∈ Finset.range 7, if b.getLsbD i then (Polynomial.X : Polynomial (ZMod 2)) ^ (i + 1) else 0 := by
    rw [bytePoly, Finset.sum_range_succ', hlow, if_neg Bool.false_ne_true, add_zero]
    exact Finset.sum_congr rfl fun i hi => by rw [hbit i (Finset.mem_range.1 hi)]
  rw [hshift, bytePoly, Finset.sum_range_succ, mul_add, Finset.mul_sum, BitVec.msb_eq_getLsbD_last]
  simp only [mul_ite, mul_zero, pow_succ']

theorem gfModulus_degree : gfModulus.degree = 8 := by
  rw [gfModulus]
  compute_degree!

/-- `0x1B` is `0x11B` without its `x^8` term (40_gf_arithmetic.md R102). -/
theorem X_pow_eight_sub_bytePoly : Polynomial.X ^ 8 - bytePoly 0x1B = gfModulus := by
  have hpoly : bytePoly 0x1B = 1 + Polynomial.X + Polynomial.X ^ 3 + Polynomial.X ^ 4 := by
    simp [bytePoly, Finset.sum_range_succ]
  rw [CharTwo.sub_eq_add, hpoly, gfModulus]
  abel

/-- The byte as an element of GF(2^8), the ring of polynomials modulo `x^8+x^4+x^3+x+1`. -/
noncomputable def residue (b : Byte) : AdjoinRoot gfModulus := AdjoinRoot.mk gfModulus (bytePoly b)

theorem residue_zero : residue 0 = 0 := by rw [residue, bytePoly_zero, map_zero]

theorem residue_xor (a b : Byte) : residue (a ^^^ b) = residue a + residue b := by
  rw [residue, bytePoly_xor, map_add, residue, residue]

theorem residue_eq_sum (b : Byte) :
    residue b = ∑ i ∈ Finset.range 8, if b.getLsbD i then AdjoinRoot.root gfModulus ^ i else 0 := by
  simp [residue, bytePoly, apply_ite (AdjoinRoot.mk gfModulus)]

/-- A byte is the only one of its residue class: its polynomial has a smaller degree than the modulus. -/
theorem residue_injective : Function.Injective residue := by
  intro a b h
  refine bytePoly_injective (sub_eq_zero.1 (Polynomial.eq_zero_of_dvd_of_degree_lt (AdjoinRoot.mk_eq_mk.1 h) ?_))
  rw [gfModulus_degree]
  exact (Polynomial.degree_sub_le _ _).trans_lt (max_lt (bytePoly_degree_lt a) (bytePoly_degree_lt b))

/-- `double_gf` multiplies by `x` (40_gf_arithmetic.md R100). -/
theorem residue_doubleGf (b : Byte) : residue (doubleGf b) = AdjoinRoot.root gfModulus * residue b := by
  have hreduce : AdjoinRoot.mk gfModulus (Polynomial.X ^ 8) = residue 0x1B :=
    AdjoinRoot.mk_eq_mk.2 X_pow_eight_sub_bytePoly.symm.dvd
  have hshift := congrArg (AdjoinRoot.mk gfModulus) (X_mul_bytePoly b)
  rw [map_mul, AdjoinRoot.mk_X, map_add] at hshift
  rw [doubleGf_eq, residue_xor]
  refine Eq.trans ?_ hshift.symm
  cases b.msb with
  | false => exact congrArg (residue (b <<< 1) + ·) (residue_zero.trans (map_zero _).symm)
  | true => exact congrArg (residue (b <<< 1) + ·) hreduce.symm

/-- The iterations of `mul_gf` from bit `i` on add the product of `b` and the bits of `m` from there on. -/
theorem residue_mulGfFrom (n i : Nat) (b m acc : Byte) : residue (mulGfFrom n i b m acc) = residue acc +
    residue b * ∑ j ∈ Finset.range n, if m.getLsbD (i + j) then AdjoinRoot.root gfModulus ^ j else 0 := by
  induction n generalizing i b acc with
  | zero => simp [mulGfFrom]
  | succ n ih =>
    have hacc : residue (if m.getLsbD i then acc ^^^ b else acc) =
        residue acc + residue b * if m.getLsbD i then 1 else 0 := by
      split <;> simp [residue_xor]
    have htail : (∑ j ∈ Finset.range n, if m.getLsbD (i + (j + 1)) then AdjoinRoot.root gfModulus ^ (j + 1) else 0) =
        AdjoinRoot.root gfModulus *
          ∑ j ∈ Finset.range n, if m.getLsbD (i + 1 + j) then AdjoinRoot.root gfModulus ^ j else 0 := by
      rw [Finset.mul_sum]
      refine Finset.sum_congr rfl fun j _ => ?_
      rw [mul_ite, mul_zero, ← pow_succ', Nat.add_right_comm i 1 j, Nat.add_assoc]
    rw [mulGfFrom, ih, hacc, residue_doubleGf, Finset.sum_range_succ', htail, pow_zero, Nat.add_zero i,
      mul_comm (AdjoinRoot.root gfModulus) (residue b), mul_assoc, add_assoc, ← mul_add, add_comm (ite _ _ _)]

/-- `mul_gf` is the multiplication of GF(2^8) (40_gf_arithmetic.md R102). -/
theorem residue_mulGf (b m : Byte) : residue (mulGf b m) = residue b * residue m := by
  rw [mulGf, residue_mulGfFrom, residue_zero, zero_add, residue_eq_sum m]
  simp only [Nat.zero_add]

theorem mulGf_comm (b m : Byte) : mulGf b m = mulGf m b :=
  residue_injective (by rw [residue_mulGf, residue_mulGf, mul_comm])

/-- The product of two bytes' polynomials is that of their `mul_gf` plus a multiple of the modulus. -/
theorem bytePoly_mul_eq (b m : Byte) : ∃ q, bytePoly b * bytePoly m = bytePoly (mulGf b m) + q * gfModulus := by
  have hmk : AdjoinRoot.mk gfModulus (bytePoly b * bytePoly m) = AdjoinRoot.mk gfModulus (bytePoly (mulGf b m)) := by
    rw [map_mul]
    exact (residue_mulGf b m).symm
  obtain ⟨q, hq⟩ := AdjoinRoot.mk_eq_mk.1 hmk
  exact ⟨q, by rw [mul_comm q, ← hq, add_sub_cancel]⟩

theorem mulGf_zero (b : Byte) : mulGf b 0x00 = 0x00 := by
  simp [mulGf, mulGfFrom]

theorem mulGf_one (b : Byte) : mulGf b 0x01 = b := by
  simp [mulGf, mulGfFrom]

theorem mulGf_two (b : Byte) : mulGf b 0x02 = doubleGf b := by
  simp [mulGf, mulGfFrom]

theorem mulGf_three (b : Byte) : mulGf b 0x03 = doubleGf b ^^^ b := by
  simp [mulGf, mulGfFrom, BitVec.xor_comm]

end Sys2Proof.Machine

namespace Sys2Proof.Proofs

open Sys2Proof.Machine Sys2Proof.Reference

/-- Settles O9: `mul_gf` is the multiplication of the ring of polynomials modulo `x^8+x^4+x^3+x+1`, in which different
bytes are different elements. -/
theorem mulGfIsFieldProduct : Obligations.MulGfIsFieldProduct :=
  ⟨bytePoly_mul_eq, fun b m => ⟨mulGf_zero b, mulGf_one b, mulGf_two b, mulGf_three b, mulGf_comm b m⟩⟩

/-- Settles O7: the command's `double_gf` is `timesX`. -/
theorem gfDoubleCompletes : Obligations.GfDoubleCompletes := by
  intro s hnwr
  refine ⟨_, rfl, ?_⟩
  rw [← doubleGf_eq_timesX]
  exact exec_gf_completes (i := .gfDouble) rfl hnwr rfl

/-- Settles O8: the iterations of `mul_gf` are the steps of the sum over the bits of operand B. -/
theorem gfMulCompletes : Obligations.GfMulCompletes := by
  intro s hnwr
  refine ⟨_, rfl, ?_⟩
  have hmul : mulGf (gfOperandA s.regs) (gfOperandB s.regs) = (List.range 8).foldl (fun acc i =>
      if s.regs.gfop.getLsbD (8 + i) then acc ^^^ timesXPow i (s.regs.gfop.extractLsb' 0 8) else acc) 0 := by
    rw [mulGf_eq_foldl]
    refine List.foldl_ext _ _ _ fun acc i hi => ?_
    rw [gfOperandB_getLsbD _ (List.mem_range.1 hi), gfOperandA]
  rw [← hmul]
  exact exec_gf_completes (i := .gfMul) rfl hnwr rfl

end Sys2Proof.Proofs

/-! ## The key schedule (41_key_schedule.md R110 to R116) -/

namespace Sys2Proof.Machine

open Sys2Proof.Reference

/-- A word of the schedule depends only on the words before it. -/
theorem nextKeyWord_congr {nk i : Nat} {w w' : List Column} (hpos : 0 < nk) (hi : nk ≤ i)
    (h : ∀ j < i, scheduleWord w j = scheduleWord w' j) : nextKeyWord nk i w = nextKeyWord nk i w' := by
  simp only [nextKeyWord, h (i - 1) (by omega), h (i - nk) (by omega)]

theorem scheduleWord_append_left {w : List Column} {j : Nat} (hj : j < w.length) (w' : List Column) :
    scheduleWord (w ++ w') j = scheduleWord w j :=
  List.getD_append _ _ _ _ hj

theorem expandFrom_length (nk n i : Nat) (w : List Column) : (expandFrom nk n i w).length = w.length + n := by
  induction n generalizing i w with
  | zero => rfl
  | succ n ih => rw [expandFrom, ih, List.length_append, List.length_singleton, Nat.add_right_comm, Nat.add_assoc]

/-- The words that are there stay. -/
theorem expandFrom_scheduleWord {w : List Column} {j : Nat} (hj : j < w.length) (nk n i : Nat) :
    scheduleWord (expandFrom nk n i w) j = scheduleWord w j := by
  induction n generalizing i w with
  | zero => rfl
  | succ n ih =>
    rw [expandFrom, ih (by rw [List.length_append]; omega), scheduleWord_append_left hj]

/-- Each word from `i` on follows from the words before it (41_key_schedule.md R115). -/
theorem expandFrom_recurrence {nk n i j : Nat} {w : List Column} (hpos : 0 < nk) (hnk : nk ≤ i) (hw : w.length = i)
    (hij : i ≤ j) (hj : j < i + n) :
    scheduleWord (expandFrom nk n i w) j = nextKeyWord nk j (expandFrom nk n i w) := by
  induction n generalizing i w with
  | zero => omega
  | succ n ih =>
    have hw' : (w ++ [nextKeyWord nk i w]).length = i + 1 := by rw [List.length_append, hw, List.length_singleton]
    by_cases hji : j = i
    · subst hji
      have hnew : scheduleWord (w ++ [nextKeyWord nk j w]) j = nextKeyWord nk j w := by
        simp [scheduleWord, hw]
      rw [expandFrom, expandFrom_scheduleWord (by omega), hnew]
      refine nextKeyWord_congr hpos hnk fun k hk => ?_
      rw [expandFrom_scheduleWord (by omega), scheduleWord_append_left (by omega)]
    · rw [expandFrom]
      exact ih (by omega) hw' (by omega) (by omega)

/-- The table of round constants holds the powers of `x` from index 1 on (41_key_schedule.md R112). -/
theorem rconTable_getD {j : Nat} (hpos : 0 < j) (hj : j ≤ 10) : rconTable.getD j 0 = timesXPow (j - 1) 1 := by
  interval_cases j <;> rfl

/-- The three key sizes in words (41_key_schedule.md R110). -/
theorem keyWordsOf_cases {r : Regs} (h : ValidKey r) : keyWordsOf r = 4 ∨ keyWordsOf r = 6 ∨ keyWordsOf r = 8 := by
  simp only [keyWordsOf, ValidKey] at h ⊢
  omega

theorem keyWordsOf_pos {r : Regs} (h : ValidKey r) : 0 < keyWordsOf r := by
  have := keyWordsOf_cases h
  omega

theorem roundCount_keyWordsOf {r : Regs} (h : ValidKey r) : roundCount (keyWordsOf r) = roundsOf r := by
  rw [roundsOf]
  rcases keyWordsOf_cases h with h | h | h <;> rw [h] <;> rfl

/-- Nowhere in a schedule does the index into the table of round constants pass its end. -/
theorem div_keyWordsOf_le {r : Regs} (h : ValidKey r) {i : Nat} (hi : i < 4 * (roundsOf r + 1)) :
    i / keyWordsOf r ≤ 10 := by
  rw [roundsOf] at hi
  rcases keyWordsOf_cases h with h | h | h <;> rw [h] at hi ⊢ <;> omega

/-- The machine's recurrence is the one of the statements. -/
theorem nextKeyWord_eq {r : Regs} (h : ValidKey r) {i : Nat} (hi : keyWordsOf r ≤ i) (hlt : i < 4 * (roundsOf r + 1))
    (w : List Column) : nextKeyWord (keyWordsOf r) i w =
      xorColumn (scheduleTerm (keyWordsOf r) i (scheduleWord w (i - 1))) (scheduleWord w (i - keyWordsOf r)) := by
  rw [nextKeyWord, scheduleTerm]
  congr 1
  refine if_congr Iff.rfl ?_ (if_congr ?_ rfl rfl)
  · rw [rconWord, rconTable_getD (Nat.div_pos hi (keyWordsOf_pos h)) (div_keyWordsOf_le h hlt)]
    simp [xorColumn, subWord, mapColumn, rotWord]
  · rcases keyWordsOf_cases h with h | h | h <;> rw [h] <;> simp

/-- The expansion of a valid key, from its own words on. -/
theorem schedule_eq {r : Regs} (h : ValidKey r) : schedule r =
    expandFrom (keyWordsOf r) (4 * (roundsOf r + 1) - keyWordsOf r) (keyWordsOf r)
      ((List.range (keyWordsOf r)).map (keyColumn r.key)) := by
  simp only [schedule, expandKey, List.length_map, List.length_range, roundCount_keyWordsOf h]

theorem keyWordsOf_le {r : Regs} : keyWordsOf r ≤ 4 * (roundsOf r + 1) := by
  rw [roundsOf]
  omega

theorem schedule_length {r : Regs} (h : ValidKey r) : (schedule r).length = 4 * (roundsOf r + 1) := by
  rw [schedule_eq h, expandFrom_length, List.length_map, List.length_range, Nat.add_sub_cancel' keyWordsOf_le]

/-- The key is the beginning of its schedule (41_key_schedule.md R111). -/
theorem schedule_scheduleWord_key {r : Regs} (h : ValidKey r) {i : Nat} (hi : i < keyWordsOf r) :
    scheduleWord (schedule r) i = keyColumn r.key i := by
  rw [schedule_eq h, expandFrom_scheduleWord (by simpa using hi)]
  simp [scheduleWord, hi]

/-- The words behind the key follow the recurrence (41_key_schedule.md R115). -/
theorem schedule_recurrence {r : Regs} (h : ValidKey r) {i : Nat} (hi : keyWordsOf r ≤ i)
    (hlt : i < 4 * (roundsOf r + 1)) : scheduleWord (schedule r) i =
      xorColumn (scheduleTerm (keyWordsOf r) i (scheduleWord (schedule r) (i - 1)))
        (scheduleWord (schedule r) (i - keyWordsOf r)) := by
  rw [← nextKeyWord_eq h hi hlt, schedule_eq h]
  exact expandFrom_recurrence (keyWordsOf_pos h) le_rfl (by simp) hi (by omega)

/-! ## Commands that transform `STATE` (41_key_schedule.md R116, R118; 42_round_transform.md R138, R156) -/

/-- A command on `STATE` that ends with `OK` counts no byte as written, and of the results it changes `STATE` only. -/
theorem transformsState_of_exec {i : Instr} {s t : State} {P : Block → Prop} (hg : IsGf i = false)
    (hm : IsMode i = false) (hnwr : s.internal.nwr = 0) (h : exec i s = .next t) (hok : t.regs.status.err = .ok)
    (hP : P t.regs.state) : TransformsState i s P := by
  obtain ⟨hgfres, -⟩ := exec_state_results hg hm h
  obtain ⟨hout, hkeeps⟩ := exec_nonMode_keepsBuffers hm h
  have hcompletes := exec_completes h
  rw [hok, hgfres, hout, hnwr] at hcompletes
  exact ⟨t, h, hcompletes, hkeeps, hP⟩

theorem roundKeyCheck_eq_none {k : Nat} {r : Regs} (hkey : ValidKey r) (hk : k ≤ roundsOf r) :
    roundKeyCheck k r = none := by
  have hcount : roundCount (keyWordCount r) = roundsOf r := roundCount_keyWordsOf hkey
  simp [roundKeyCheck, (keySizeOk_iff r).2 hkey, hcount, hk]

/-- The schedule a command under a valid key computes. -/
theorem loadSchedule_rk {s : State} (h : ValidKey s.regs) : (loadSchedule s).internal.rk = schedule s.regs :=
  expandKey_keyWords h

theorem exec_keyExpand {s : State} {k : Nat} (hkey : ValidKey s.regs) (hk : k ≤ roundsOf s.regs) :
    exec (.keyExpand k) s =
      .next (complete .ok (setState (roundKey (schedule s.regs) k) (loadSchedule s))) := by
  rw [exec, execKeyExpand, roundKeyCheck_eq_none hkey hk, ← loadSchedule_rk hkey]
  rfl

theorem exec_addRoundKey {s : State} {k : Nat} (hkey : ValidKey s.regs) (hk : k ≤ roundsOf s.regs) :
    exec (.addRoundKey k) s =
      .next (complete .ok (setState (addRoundKey s.regs.state (roundKey (schedule s.regs) k)) (loadSchedule s))) := by
  rw [exec, execAddRoundKey, roundKeyCheck_eq_none hkey hk, ← loadSchedule_rk hkey]
  rfl

/-- Column `c` of round key `k` is word `4k + c` (41_key_schedule.md R116). -/
theorem stateAt_roundKey (w : List Column) (k b : Nat) {c : Nat} (hc : c < 4) :
    stateAt (roundKey w k) b c = columnByte (w.getD (4 * k + c) .zero) b := by
  interval_cases c <;> rfl

theorem columnByte_xorColumn (a b : Column) (k : Nat) :
    columnByte (xorColumn a b) k = columnByte a k ^^^ columnByte b k := by
  unfold columnByte
  split <;> rfl

theorem blockColumn_xorBlock (a b : Block) (c : Nat) :
    blockColumn (xorBlock a b) c = xorColumn (blockColumn a c) (blockColumn b c) := by
  unfold blockColumn
  split <;> rfl

/-- `AddRoundKey` is a bytewise exclusive or (42_round_transform.md R138). -/
theorem stateAt_addRoundKey (a k : Block) (b c : Nat) :
    stateAt (addRoundKey a k) b c = stateAt a b c ^^^ stateAt k b c := by
  rw [addRoundKey, stateAt, blockColumn_xorBlock, columnByte_xorColumn]
  rfl

end Sys2Proof.Machine

namespace Sys2Proof.Proofs

open Sys2Proof.Machine Sys2Proof.Reference

/-- Settles O18: the expansion only appends words, so what holds of a word when it is appended holds in the whole
schedule. -/
theorem expandedKeyFollowsRecurrence : Obligations.ExpandedKeyFollowsRecurrence := fun _ hkey =>
  ⟨schedule_length hkey, fun _ => schedule_scheduleWord_key hkey, fun _ => schedule_recurrence hkey⟩

/-- Settles O19: with the checks passed, both commands take round key `k` from the schedule of the registers. -/
theorem roundKeyCommandsComplete : Obligations.RoundKeyCommandsComplete := by
  intro s k hkey hk hnwr
  refine ⟨transformsState_of_exec rfl rfl hnwr (exec_keyExpand hkey hk) rfl fun b _ c hc => ?_,
    transformsState_of_exec rfl rfl hnwr (exec_addRoundKey hkey hk) rfl fun b _ c hc => ?_⟩
  · exact stateAt_roundKey (schedule s.regs) k b hc
  · rw [← stateAt_roundKey (schedule s.regs) k b hc]
    exact stateAt_addRoundKey s.regs.state _ b c

end Sys2Proof.Proofs

/-! ## The substitution tables (42_round_transform.md R130, R131) -/

namespace Sys2Proof.Machine

open Sys2Proof.Reference

theorem sbox_invSbox (x : Byte) : sbox (invSbox x) = x :=
  Function.LeftInverse.rightInverse_of_card_le invSbox_sbox le_rfl x

/-- The affine map that follows the inversion in the S-box (42_round_transform.md R130). -/
def sboxAffine (b : Byte) : Byte :=
  b ^^^ b.rotateLeft 1 ^^^ b.rotateLeft 2 ^^^ b.rotateLeft 3 ^^^ b.rotateLeft 4 ^^^ 0x63

/-- The inverse of `sboxAffine`. -/
def sboxAffineInv (y : Byte) : Byte := y.rotateLeft 1 ^^^ y.rotateLeft 3 ^^^ y.rotateLeft 6 ^^^ 0x05

theorem sboxAffine_sboxAffineInv (y : Byte) : sboxAffine (sboxAffineInv y) = y := by
  revert y
  decide +kernel

/-- With the affine map taken off, the forward table holds the multiplicative inverse of every byte but 0. -/
theorem mulGf_sboxAffineInv_sbox {x : Byte} (hx : x ≠ 0) : mulGf x (sboxAffineInv (sbox x)) = 0x01 := by
  revert x
  decide +kernel

theorem zero_mulGf (b : Byte) : mulGf 0x00 b = 0x00 := by rw [mulGf_comm, mulGf_zero]

theorem residue_one : residue 0x01 = 1 := by simp [residue, bytePoly]

/-- A byte has one inverse: `b = b * (x * b') = (x * b) * b' = b'` in GF(2^8). -/
theorem mulGf_inverse_unique {x b b' : Byte} (hb : mulGf x b = 0x01) (hb' : mulGf x b' = 0x01) : b = b' := by
  have hx : residue x * residue b = 1 := by rw [← residue_mulGf, hb, residue_one]
  have hx' : residue x * residue b' = 1 := by rw [← residue_mulGf, hb', residue_one]
  exact residue_injective (left_inv_eq_right_inv ((mul_comm _ _).trans hx) hx')

theorem sbox_eq_sboxAffine {x b : Byte} (hb : mulGf x b = 0x01) : sbox x = sboxAffine b := by
  have hx : x ≠ 0 := by
    rintro rfl
    rw [zero_mulGf] at hb
    exact absurd hb (by decide)
  rw [mulGf_inverse_unique hb (mulGf_sboxAffineInv_sbox hx), sboxAffine_sboxAffineInv]

/-! ## The step functions on the bytes of a block (42_round_transform.md R132 to R137) -/

theorem columnByte_mapColumn (f : Byte → Byte) (a : Column) (r : Nat) :
    columnByte (mapColumn f a) r = f (columnByte a r) := by
  unfold columnByte
  split <;> rfl

theorem blockColumn_mapBlock (f : Byte → Byte) (b : Block) (c : Nat) :
    blockColumn (mapBlock f b) c = mapColumn f (blockColumn b c) := by
  unfold blockColumn
  split <;> rfl

theorem blockByte_mapBlock (f : Byte → Byte) (b : Block) (k : Nat) :
    blockByte (mapBlock f b) k = f (blockByte b k) := by
  rw [blockByte, stateAt, blockColumn_mapBlock, columnByte_mapColumn]
  rfl

theorem stateAt_shiftRows (b : Block) {r c : Nat} (hr : r < 4) (hc : c < 4) :
    stateAt (shiftRows b) r c = stateAt b r ((c + r) % 4) := by
  interval_cases r <;> interval_cases c <;> rfl

theorem stateAt_invShiftRows (b : Block) {r c : Nat} (hr : r < 4) (hc : c < 4) :
    stateAt (invShiftRows b) r c = stateAt b r ((c + 4 - r) % 4) := by
  interval_cases r <;> interval_cases c <;> rfl

/-- Byte `r` of a column multiplied by the circulant matrix whose row 0 is given, each further row rotated right by one
(42_round_transform.md R136, R137). -/
def circulantByte (row : List Byte) (a : Column) (r : Nat) : Byte :=
  (List.range 4).foldl (fun acc i => acc ^^^ mulGf (columnByte a i) (row.getD ((i + 4 - r) % 4) 0)) 0

/-- Row `r` of the matrix written out. -/
theorem circulantByte_eq (m0 m1 m2 m3 : Byte) (a : Column) :
    circulantByte [m0, m1, m2, m3] a 0 = mulGf a.r0 m0 ^^^ mulGf a.r1 m1 ^^^ mulGf a.r2 m2 ^^^ mulGf a.r3 m3 ∧
    circulantByte [m0, m1, m2, m3] a 1 = mulGf a.r0 m3 ^^^ mulGf a.r1 m0 ^^^ mulGf a.r2 m1 ^^^ mulGf a.r3 m2 ∧
    circulantByte [m0, m1, m2, m3] a 2 = mulGf a.r0 m2 ^^^ mulGf a.r1 m3 ^^^ mulGf a.r2 m0 ^^^ mulGf a.r3 m1 ∧
    circulantByte [m0, m1, m2, m3] a 3 = mulGf a.r0 m1 ^^^ mulGf a.r1 m2 ^^^ mulGf a.r2 m3 ^^^ mulGf a.r3 m0 := by
  simp [circulantByte, List.range_succ, columnByte]

theorem blockColumn_mixColumns (b : Block) (c : Nat) :
    blockColumn (mixColumns b) c = mixColumn (blockColumn b c) := by
  unfold blockColumn
  split <;> rfl

theorem blockColumn_invMixColumns (b : Block) (c : Nat) :
    blockColumn (invMixColumns b) c = invMixColumn (blockColumn b c) := by
  unfold blockColumn
  split <;> rfl

theorem columnByte_mixColumn (a : Column) {r : Nat} (hr : r < 4) :
    columnByte (mixColumn a) r = circulantByte [0x02, 0x03, 0x01, 0x01] a r := by
  obtain ⟨h0, h1, h2, h3⟩ := circulantByte_eq 0x02 0x03 0x01 0x01 a
  simp only [mulGf_one, mulGf_two, mulGf_three] at h0 h1 h2 h3
  interval_cases r
  · exact h0.symm
  · exact h1.symm
  · exact h2.symm
  · exact h3.symm

theorem columnByte_invMixColumn (a : Column) {r : Nat} (hr : r < 4) :
    columnByte (invMixColumn a) r = circulantByte [0x0E, 0x0B, 0x0D, 0x09] a r := by
  obtain ⟨h0, h1, h2, h3⟩ := circulantByte_eq 0x0E 0x0B 0x0D 0x09 a
  interval_cases r
  · exact h0.symm
  · exact h1.symm
  · exact h2.symm
  · exact h3.symm

theorem stateAt_mixColumns (b : Block) {r : Nat} (hr : r < 4) (c : Nat) :
    stateAt (mixColumns b) r c = circulantByte [0x02, 0x03, 0x01, 0x01] (blockColumn b c) r := by
  rw [stateAt, blockColumn_mixColumns, columnByte_mixColumn _ hr]

theorem stateAt_invMixColumns (b : Block) {r : Nat} (hr : r < 4) (c : Nat) :
    stateAt (invMixColumns b) r c = circulantByte [0x0E, 0x0B, 0x0D, 0x09] (blockColumn b c) r := by
  rw [stateAt, blockColumn_invMixColumns, columnByte_invMixColumn _ hr]

/-! ## The block transforms as folds over the rounds (42_round_transform.md R139 to R141) -/

theorem scheduleRounds_schedule {r : Regs} (h : ValidKey r) : scheduleRounds (schedule r) = roundsOf r := by
  rw [scheduleRounds, schedule_length h]
  omega

theorem cipherRounds_eq_foldl (w : List Column) (n : Nat) (b : Block) : cipherRounds w n 1 b =
    (List.range n).foldl (fun s i => xorBlock (mixColumns (shiftRows (subBytes s))) (keyAt w (i + 1))) b := by
  induction n with
  | zero => rfl
  | succ n ih =>
    rw [cipherRounds_succ, ih, List.range_succ, List.foldl_append, Nat.add_comm 1 n]
    rfl

theorem invCipherRounds_eq_foldl (w : List Column) (n : Nat) (b : Block) : invCipherRounds w n b =
    (List.range n).foldl
      (fun s i => invSubBytes (invShiftRows (invMixColumns (xorBlock s (keyAt w (n - i)))))) b := by
  induction n generalizing b with
  | zero => rfl
  | succ n ih =>
    rw [invCipherRounds, ih, List.range_succ_eq_map, List.foldl_cons, List.foldl_map]
    simp only [Nat.succ_eq_add_one, Nat.add_sub_add_right]
    rfl

theorem cipher_eq_encipher (w : List Column) (b : Block) : cipher w b = encipher w (scheduleRounds w) b := by
  rw [cipher, cipherRounds_eq_foldl]
  rfl

theorem invCipher_eq_decipher (w : List Column) (b : Block) : invCipher w b = decipher w (scheduleRounds w) b := by
  rw [invCipher, invCipherRounds_eq_foldl]
  rfl

theorem block_finite : Finite Block :=
  Finite.of_injective (fun (b : Block) (k : Fin 16) => blockByte b k) fun _ _ h =>
    Block.ext_blockByte fun k hk => congrFun h ⟨k, hk⟩

/-- The forward block transform is one-to-one on the finitely many blocks, so it undoes the inverse one too. -/
theorem cipher_invCipher (w : List Column) (b : Block) : cipher w (invCipher w b) = b := by
  have := block_finite
  have := Fintype.ofFinite Block
  exact Function.LeftInverse.rightInverse_of_card_le (invCipher_cipher w) le_rfl b

theorem keyCheck_eq_none {r : Regs} (h : ValidKey r) : keyCheck r = none := by
  simp [keyCheck, (keySizeOk_iff r).2 h]

theorem exec_encBlock {s : State} (h : ValidKey s.regs) : exec .encBlock s =
    .next (complete .ok (setState (cipher (schedule s.regs) s.regs.state) (loadSchedule s))) := by
  rw [exec, execEncBlock, keyCheck_eq_none h, ← loadSchedule_rk h]
  rfl

theorem exec_decBlock {s : State} (h : ValidKey s.regs) : exec .decBlock s =
    .next (complete .ok (setState (invCipher (schedule s.regs) s.regs.state) (loadSchedule s))) := by
  rw [exec, execDecBlock, keyCheck_eq_none h, ← loadSchedule_rk h]
  rfl

end Sys2Proof.Machine

namespace Sys2Proof.Proofs

open Sys2Proof.Machine Sys2Proof.Reference

/-- Settles O10: the tables are checked against the inverse of the affine map, and GF(2^8) has no second inverse of a
byte. -/
theorem sboxTablesAreAlgebraic : Obligations.SboxTablesAreAlgebraic :=
  ⟨rfl, fun _ hx => ⟨_, mulGf_sboxAffineInv_sbox hx⟩, fun _ _ => sbox_eq_sboxAffine,
    fun x => ⟨invSbox_sbox x, sbox_invSbox x⟩⟩

/-- Settles O11: both commands apply one function to every byte of `STATE`. -/
theorem substitutionCommandsComplete : Obligations.SubstitutionCommandsComplete := by
  intro s hnwr
  exact ⟨transformsState_of_exec rfl rfl hnwr rfl rfl fun k _ => blockByte_mapBlock sbox s.regs.state k,
    transformsState_of_exec rfl rfl hnwr rfl rfl fun k _ => blockByte_mapBlock invSbox s.regs.state k⟩

/-- Settles O12: the bytes of both shifts by row and column. -/
theorem rowShiftCommandsComplete : Obligations.RowShiftCommandsComplete := by
  intro s hnwr
  exact ⟨transformsState_of_exec rfl rfl hnwr rfl rfl fun _ hr _ hc => stateAt_shiftRows s.regs.state hr hc,
    transformsState_of_exec rfl rfl hnwr rfl rfl fun _ hr _ hc => stateAt_invShiftRows s.regs.state hr hc⟩

/-- Settles O13: each column is multiplied by its matrix, row by row. -/
theorem columnMixCommandsComplete : Obligations.ColumnMixCommandsComplete := by
  intro s hnwr
  exact ⟨transformsState_of_exec rfl rfl hnwr rfl rfl fun _ hr c _ => stateAt_mixColumns s.regs.state hr c,
    transformsState_of_exec rfl rfl hnwr rfl rfl fun _ hr c _ => stateAt_invMixColumns s.regs.state hr c⟩

/-- Settles O14: each step has its own lemma. -/
theorem inverseStepsUndoSteps : Obligations.InverseStepsUndoSteps := fun b k =>
  ⟨invSubBytes_subBytes b, invShiftRows_shiftRows b, invMixColumns_mixColumns b, addRoundKey_cancel b k⟩

/-- Settles O15: the steps of the inverse transform undo those of the forward one, last one first, whatever the
schedule; the other order follows because blocks are finite. -/
theorem invCipherUndoesCipher : Obligations.InvCipherUndoesCipher := fun r b _ =>
  ⟨invCipher_cipher (schedule r) b, cipher_invCipher (schedule r) b⟩

/-- Settles O16: the machine's recursions over the rounds are the folds, with as many rounds as the schedule has. -/
theorem blockCommandsComplete : Obligations.BlockCommandsComplete := by
  intro s hkey hnwr
  rw [← scheduleRounds_schedule hkey, ← cipher_eq_encipher, ← invCipher_eq_decipher]
  exact ⟨transformsState_of_exec rfl rfl hnwr (exec_encBlock hkey) rfl rfl,
    transformsState_of_exec rfl rfl hnwr (exec_decBlock hkey) rfl rfl⟩

/-- Settles O17: the first command leaves the key alone, so the second one has the same schedule. -/
theorem encBlockThenDecBlockRestores : Obligations.EncBlockThenDecBlockRestores := by
  rintro s i j hkey (⟨rfl, rfl⟩ | ⟨rfl, rfl⟩)
  · exact ⟨_, _, exec_encBlock hkey, exec_decBlock hkey, invCipher_cipher (schedule s.regs) s.regs.state, rfl⟩
  · exact ⟨_, _, exec_decBlock hkey, exec_encBlock hkey, cipher_invCipher (schedule s.regs) s.regs.state, rfl⟩

end Sys2Proof.Proofs

/-! ## Checks that fail before any access (43_modes.md R171 to R173, R178) -/

namespace Sys2Proof.Machine

open Sys2Proof.Reference

theorem keySizeOk_eq_false {r : Regs} (h : ¬ ValidKey r) : keySizeOk r = false :=
  Bool.eq_false_iff.2 (mt (keySizeOk_iff r).1 h)

theorem encryptCheck_dataSize {r : Regs} (h : r.len.toNat % 16 ≠ 0) :
    encryptCheck false r = some .invalidDataSize := by
  simp [encryptCheck, dataLength, h]

/-- A data size that passes leaves the key size and the capacity to check. -/
theorem encryptCheck_of_dataSize {pad : Bool} {r : Regs} (hmod : pad = false → r.len.toNat % 16 = 0) :
    encryptCheck pad r =
      if keySizeOk r = false then some .invalidKeySize
      else if r.cap.toNat < encryptedBytes pad r then some .invalidBufferSize else none := by
  have hsize : (!pad && dataLength r % 16 != 0) = false := by
    cases pad with
    | false => simp [dataLength, hmod rfl]
    | true => rfl
  simp [encryptCheck, hsize, outSize_eq, capacity]

theorem encryptCheck_keySize {pad : Bool} {r : Regs} (hmod : pad = false → r.len.toNat % 16 = 0) (hkey : ¬ ValidKey r) :
    encryptCheck pad r = some .invalidKeySize := by
  rw [encryptCheck_of_dataSize hmod, if_pos (keySizeOk_eq_false hkey)]

theorem encryptCheck_bufferSize {pad : Bool} {r : Regs} (hmod : pad = false → r.len.toNat % 16 = 0) (hkey : ValidKey r)
    (hcap : r.cap.toNat < encryptedBytes pad r) : encryptCheck pad r = some .invalidBufferSize := by
  rw [encryptCheck_of_dataSize hmod, if_neg (by simp [(keySizeOk_iff r).2 hkey]), if_pos hcap]

theorem decryptCheck_dataSize {pad : Bool} {r : Regs} (h : r.len.toNat % 16 ≠ 0 ∨ pad = true ∧ r.len.toNat = 0) :
    decryptCheck pad r = some .invalidDataSize := by
  rcases h with hmod | ⟨rfl, hempty⟩
  · simp [decryptCheck, dataLength, hmod]
  · simp [decryptCheck, dataLength, hempty]

/-- A data size that passes leaves the key size and the capacity to check. -/
theorem decryptCheck_of_dataSize {pad : Bool} {r : Regs} (hmod : r.len.toNat % 16 = 0)
    (hpad : pad = true → r.len.toNat ≠ 0) : decryptCheck pad r =
      if keySizeOk r = false then some .invalidKeySize
      else if r.cap.toNat + (if pad then 16 else 0) < r.len.toNat then some .invalidBufferSize else none := by
  cases pad with
  | false => by_cases hcap : r.cap.toNat < r.len.toNat <;> simp [decryptCheck, dataLength, capacity, hmod, hcap]
  | true => simp [decryptCheck, dataLength, capacity, hmod, hpad rfl, Nat.lt_sub_iff_add_lt]

theorem decryptCheck_keySize {pad : Bool} {r : Regs} (hmod : r.len.toNat % 16 = 0) (hpad : pad = true → r.len.toNat ≠ 0)
    (hkey : ¬ ValidKey r) : decryptCheck pad r = some .invalidKeySize := by
  rw [decryptCheck_of_dataSize hmod hpad, if_pos (keySizeOk_eq_false hkey)]

theorem decryptCheck_bufferSize {pad : Bool} {r : Regs} (hmod : r.len.toNat % 16 = 0)
    (hpad : pad = true → r.len.toNat ≠ 0) (hkey : ValidKey r)
    (hcap : r.cap.toNat + (if pad then 16 else 0) < r.len.toNat) : decryptCheck pad r = some .invalidBufferSize := by
  rw [decryptCheck_of_dataSize hmod hpad, if_neg (by simp [(keySizeOk_iff r).2 hkey]), if_pos hcap]

theorem keyCheck_keySize {r : Regs} (hkey : ¬ ValidKey r) : keyCheck r = some .invalidKeySize := by
  simp [keyCheck, keySizeOk_eq_false hkey]

theorem roundKeyCheck_keySize {r : Regs} (hkey : ¬ ValidKey r) (k : Nat) :
    roundKeyCheck k r = some .invalidKeySize := by
  simp [roundKeyCheck, keySizeOk_eq_false hkey]

theorem ctrCheck_keySize {r : Regs} (hkey : ¬ ValidKey r) : ctrCheck r = some .invalidKeySize := by
  simp [ctrCheck, keySizeOk_eq_false hkey]

theorem ctrCheck_nonceSize {r : Regs} (hkey : ValidKey r) (hnonce : 16 < r.noncelen.toNat) :
    ctrCheck r = some .invalidNonceSize := by
  simp [ctrCheck, (keySizeOk_iff r).2 hkey, hnonce]

/-- A command that begins with a check makes no access if the check fails. -/
theorem failsUntouched_of_check {i : Instr} {s : State} {check : Option ErrCode} {code : ErrCode} {k : State → Run Unit}
    (hnwr : s.internal.nwr = 0) (hexec : exec i s = finish (checked check s k)) (hcheck : check = some code) :
    FailsUntouched code i s := by
  subst hcheck
  refine ⟨_, hexec, ?_, rfl, rfl⟩
  simpa using completes_afterAccesses (xs := []) hnwr rfl code

/-- Both encryptions begin with the check of R172. -/
theorem exec_encryption_checked {i : Instr} {pad : Bool} (hi : i = .ecbEnc pad ∨ ∃ iven, i = .cbcEnc pad iven)
    (s : State) : ∃ k, exec i s = finish (checked (encryptCheck pad s.regs) s k) := by
  rcases hi with rfl | ⟨iven, rfl⟩
  · exact ⟨_, rfl⟩
  · exact ⟨_, rfl⟩

/-- Both decryptions begin with the check of R173. -/
theorem exec_decryption_checked {i : Instr} {pad : Bool} (hi : i = .ecbDec pad ∨ ∃ iven, i = .cbcDec pad iven)
    (s : State) : ∃ k, exec i s = finish (checked (decryptCheck pad s.regs) s k) := by
  rcases hi with rfl | ⟨iven, rfl⟩
  · exact ⟨_, rfl⟩
  · exact ⟨_, rfl⟩

end Sys2Proof.Machine

namespace Sys2Proof.Proofs

open Sys2Proof.Machine Sys2Proof.Reference

/-- Settles O21: each command begins with its check, and each premise says which of the check's tests is the first to
fail. -/
theorem failedChecksTouchNothing : Obligations.FailedChecksTouchNothing := by
  intro s hnwr
  refine ⟨fun k hkey => ?_, fun pad i hi => ?_, fun pad i hi => ?_, fun hkey hnonce =>
    failsUntouched_of_check hnwr rfl (ctrCheck_nonceSize hkey hnonce)⟩
  · exact ⟨failsUntouched_of_check hnwr rfl (roundKeyCheck_keySize hkey k),
      failsUntouched_of_check hnwr rfl (roundKeyCheck_keySize hkey k),
      failsUntouched_of_check hnwr rfl (keyCheck_keySize hkey),
      failsUntouched_of_check hnwr rfl (keyCheck_keySize hkey),
      failsUntouched_of_check hnwr rfl (ctrCheck_keySize hkey)⟩
  · obtain ⟨k, hexec⟩ := exec_encryption_checked hi s
    refine ⟨fun hpad hmod => ?_, fun hmod hkey => ?_, fun hmod hkey hcap => ?_⟩
    · subst hpad
      exact failsUntouched_of_check hnwr hexec (encryptCheck_dataSize hmod)
    · exact failsUntouched_of_check hnwr hexec (encryptCheck_keySize hmod hkey)
    · exact failsUntouched_of_check hnwr hexec (encryptCheck_bufferSize hmod hkey hcap)
  · obtain ⟨k, hexec⟩ := exec_decryption_checked hi s
    refine ⟨fun hsize => ?_, fun hmod hpad hkey => ?_, fun hmod hpad hkey hcap => ?_⟩
    · exact failsUntouched_of_check hnwr hexec (decryptCheck_dataSize hsize)
    · exact failsUntouched_of_check hnwr hexec (decryptCheck_keySize hmod hpad hkey)
    · exact failsUntouched_of_check hnwr hexec (decryptCheck_bufferSize hmod hpad hkey hcap)

end Sys2Proof.Proofs

/-! ## Block modes whose accesses the platform admits (43_modes.md R174 to R177, R180 to R183) -/

namespace Sys2Proof.Machine

open Sys2Proof.Reference

/-- With its accesses admitted, a command that writes `n` blocks whole completes with them written and counted. -/
theorem BlockRun.outcome_whole {B : BlockRun} {s : State} {n : Nat} (hmem : B.mem = s.mem) (hwhole : B.WritesWhole n)
    (hnwr : s.internal.nwr = 0) (hr : ReadsAdmitted s B.regs.src (dataLength B.regs))
    (hw : WritesAdmitted s B.regs.dst (16 * n)) (code : ErrCode) :
    ∃ t, accessesOutcome ((List.range n).flatMap B.accesses) code s = t ∧
      Completes code (16 * n) s.regs.state s.regs.gfres s t ∧ t.mem = (B.after n).1 := by
  refine ⟨_, accessesOutcome_admitted (accesses_admitted hwhole (min_le_left ..) hr hw) code,
    completes_afterAccesses hnwr (length_writesOf_accesses hwhole) code, ?_⟩
  rw [complete_mem, afterAccesses_mem, ← hmem, applyWrites_accesses hwhole]

/-- With its accesses admitted, a command that writes `n` blocks whole and `bs` of the last one completes with these
written and counted. -/
theorem BlockRun.outcome_last {B : BlockRun} {s : State} {n : Nat} {bs : List Byte} (hmem : B.mem = s.mem)
    (hwhole : B.WritesWhole n) (hout : B.out n (B.block n) = bs) (hnwr : s.internal.nwr = 0)
    (hr : ReadsAdmitted s B.regs.src (dataLength B.regs)) (hw : WritesAdmitted s B.regs.dst (16 * n + bs.length))
    (code : ErrCode) :
    ∃ t, accessesOutcome ((List.range (n + 1)).flatMap B.accesses) code s = t ∧
      Completes code (16 * n + bs.length) s.regs.state s.regs.gfres s t ∧
      t.mem = Memory.writeBytes bs (byteAddr B.regs.dst (16 * n)) (B.after n).1 := by
  subst hout
  have hadmitted : ∀ x ∈ (List.range (n + 1)).flatMap B.accesses, x.admitted s.platform = true := by
    rw [List.range_succ, List.flatMap_append, List.flatMap_singleton, accesses]
    exact List.forall_mem_append.2 ⟨accesses_admitted hwhole (min_le_left ..) hr fun k hk => hw k (by omega),
      List.forall_mem_append.2 ⟨blockReads_admitted (min_le_left ..) hr _,
        writeAccesses_admitted (writesAdmitted_part hw le_rfl)⟩⟩
  refine ⟨_, accessesOutcome_admitted hadmitted code,
    completes_afterAccesses hnwr (length_writesOf_accesses_succ hwhole) code, ?_⟩
  rw [complete_mem, afterAccesses_mem, List.range_succ, List.flatMap_append, List.flatMap_singleton, writesOf_append,
    applyWrites_append, ← hmem, applyWrites_accesses hwhole]
  simp [accesses]
  rfl

theorem exec_encryption_completes {pad cbc iven : Bool} {s : State} (hkey : ValidKey s.regs)
    (hmod : pad = false → s.regs.len.toNat % 16 = 0) (hcap : encryptedBytes pad s.regs ≤ s.regs.cap.toNat)
    (hiven : cbc = false → iven = false) (hnwr : s.internal.nwr = 0) (hr : ReadsAdmitted s s.regs.src s.regs.len.toNat)
    (hw : WritesAdmitted s s.regs.dst (encryptedBytes pad s.regs)) :
    ∃ t, exec (if cbc then .cbcEnc pad iven else .ecbEnc pad) s = .next t ∧
      Completes .ok (encryptedBytes pad s.regs) s.regs.state s.regs.gfres s t ∧
      t.mem = (encryptBlocks cbc s.regs (encryptedBytes pad s.regs / 16) s.mem (firstChain iven s.regs)).1 := by
  have hn : 16 * (encryptedBytes pad s.regs / 16) = encryptedBytes pad s.regs :=
    Nat.mul_div_cancel' (Nat.dvd_of_mod_eq_zero (encryptedBytes_mod hmod))
  obtain ⟨t, ht, hcompletes, hmem⟩ := BlockRun.outcome_whole (B := encryption cbc iven s) rfl
    (encryption_writesWhole cbc iven s _) hnwr hr (hn.symm ▸ hw) .ok
  exact ⟨t, ht ▸ exec_encryption (encryptCheck_eq_none hmod hkey hcap) hiven, hn ▸ hcompletes, hmem⟩

theorem exec_unpaddedDecryption_completes {cbc iven : Bool} {s : State} (hkey : ValidKey s.regs)
    (hmod : s.regs.len.toNat % 16 = 0) (hcap : s.regs.len.toNat ≤ s.regs.cap.toNat)
    (hiven : cbc = false → iven = false) (hnwr : s.internal.nwr = 0) (hr : ReadsAdmitted s s.regs.src s.regs.len.toNat)
    (hw : WritesAdmitted s s.regs.dst s.regs.len.toNat) :
    ∃ t, exec (if cbc then .cbcDec false iven else .ecbDec false) s = .next t ∧
      Completes .ok s.regs.len.toNat s.regs.state s.regs.gfres s t ∧
      t.mem = (decryptBlocks cbc s.regs (s.regs.len.toNat / 16) s.mem (firstChain iven s.regs)).1 := by
  have hn : 16 * (s.regs.len.toNat / 16) = s.regs.len.toNat := Nat.mul_div_cancel' (Nat.dvd_of_mod_eq_zero hmod)
  obtain ⟨t, ht, hcompletes, hmem⟩ := BlockRun.outcome_whole (B := decryption cbc iven false s) rfl
    (decryption_writesWhole (by simp)) hnwr hr (hn.symm ▸ hw) .ok
  exact ⟨t, ht ▸ exec_decryption (decryptCheck_eq_none hmod (by simp) hkey hcap) hiven, hn ▸ hcompletes, hmem⟩

/-- The last block that a decryption makes is the one the statements speak of. -/
theorem decryption_block_last {cbc iven pad : Bool} {s : State} {n : Nat} (hn : 16 * (n + 1) = s.regs.len.toNat) :
    (decryption cbc iven pad s).block n = lastPlain cbc iven s := by
  simp only [lastPlain, earlierBlocks]
  rw [show s.regs.len.toNat / 16 - 1 = n by omega, show s.regs.len.toNat - 16 = 16 * n by omega]
  rfl

/-- A decryption with unpadding ends as the unpadding of its last block does, with the earlier blocks written whole and of
the last one what the unpadding lets out. -/
theorem exec_paddedDecryption_completes {cbc iven : Bool} {s : State} {code : ErrCode} {bs : List Byte}
    (hkey : ValidKey s.regs) (hmod : s.regs.len.toNat % 16 = 0) (hlen : s.regs.len.toNat ≠ 0)
    (hcap : s.regs.len.toNat - 16 ≤ s.regs.cap.toNat) (hiven : cbc = false → iven = false) (hnwr : s.internal.nwr = 0)
    (hcode : unpadCode s.regs (lastPlain cbc iven s) = code) (hbytes : unpaddedBytes s.regs (lastPlain cbc iven s) = bs)
    (hr : ReadsAdmitted s s.regs.src s.regs.len.toNat)
    (hw : WritesAdmitted s s.regs.dst (s.regs.len.toNat - 16 + bs.length)) :
    ∃ t, exec (if cbc then .cbcDec true iven else .ecbDec true) s = .next t ∧
      Completes code (s.regs.len.toNat - 16 + bs.length) s.regs.state s.regs.gfres s t ∧
      t.mem = Memory.writeBytes bs (byteAddr s.regs.dst (s.regs.len.toNat - 16)) (earlierBlocks cbc iven s).1 := by
  obtain ⟨n, hn⟩ : ∃ n, 16 * (n + 1) = s.regs.len.toNat := ⟨s.regs.len.toNat / 16 - 1, by omega⟩
  have hexec := exec_decryption (decryptCheck_eq_none (pad := true) hmod (fun _ => hlen) hkey
    (Nat.sub_le_iff_le_add.1 hcap)) hiven
  have hblock : (decryption cbc iven true s).block n = lastPlain cbc iven s := decryption_block_last hn
  have hout : (decryption cbc iven true s).out n ((decryption cbc iven true s).block n) = bs := by
    rw [hblock, ← hbytes]
    exact if_pos (by simpa [dataLength] using hn)
  have hend : decryptCode true (decryption cbc iven true s) 0 (n + 1) = code := by
    rw [decryptCode, ← hcode, ← hblock, Nat.zero_add]
    rfl
  rw [show s.regs.len.toNat - 16 = 16 * n by omega] at hw ⊢
  rw [show s.regs.len.toNat / 16 = n + 1 by omega, hend] at hexec
  obtain ⟨t, ht, hcompletes, hmem⟩ := BlockRun.outcome_last (B := decryption cbc iven true s) rfl
    (decryption_writesWhole fun _ => by simp only [dataLength]; omega) hout hnwr hr hw code
  refine ⟨t, ht ▸ hexec, hcompletes, hmem.trans ?_⟩
  rw [earlierBlocks, show s.regs.len.toNat / 16 - 1 = n by omega]
  rfl

/-- A last block whose padding is bad, or whose data does not fit, lets nothing out. -/
theorem unpad_of_failed {r : Regs} {b : Block} {code : ErrCode}
    (h : code = .invalidKey ∧ (∀ p, ¬ PaddedBy b p) ∨
      code = .invalidBufferSize ∧ ∃ p, PaddedBy b p ∧ r.cap.toNat < r.len.toNat - p) :
    unpadCode r b = code ∧ unpaddedBytes r b = [] := by
  have hcode : unpadCode r b = code := by
    rcases h with ⟨rfl, hbad⟩ | ⟨rfl, p, hp, hcap⟩
    · exact if_neg (mt (padValid_iff b).1 (hbad _))
    · have hlength := paddedBy_padLength hp
      rw [unpadCode, if_pos ((padValid_iff b).2 (hlength.symm ▸ hp)), hlength]
      exact if_neg hcap.not_ge
  refine ⟨hcode, if_neg ?_⟩
  rcases h with ⟨rfl, -⟩ | ⟨rfl, -⟩ <;> simp [hcode]

end Sys2Proof.Machine

namespace Sys2Proof.Proofs

open Sys2Proof.Machine Sys2Proof.Reference

/-- Settles O22: both encryptions write every output block whole. -/
theorem encryptionsComplete : Obligations.EncryptionsComplete := fun _ _ hkey hmod hcap hnwr hr hw =>
  ⟨exec_encryption_completes (cbc := false) (iven := false) hkey hmod hcap (fun _ => rfl) hnwr hr hw,
    fun iven => exec_encryption_completes (cbc := true) (iven := iven) hkey hmod hcap (by simp) hnwr hr hw⟩

/-- Settles O23: without unpadding both decryptions write every output block whole. -/
theorem unpaddedDecryptionsComplete : Obligations.UnpaddedDecryptionsComplete := fun _ hkey hmod hcap hnwr hr hw =>
  ⟨exec_unpaddedDecryption_completes (cbc := false) (iven := false) hkey hmod hcap (fun _ => rfl) hnwr hr hw,
    fun iven => exec_unpaddedDecryption_completes (cbc := true) (iven := iven) hkey hmod hcap (by simp) hnwr hr hw⟩

/-- Settles O24: the unpadding of the last block lets `16 - p` bytes out. -/
theorem paddedDecryptionsComplete : Obligations.PaddedDecryptionsComplete := by
  intro s cbc iven p hkey hmod hlen hiven hnwr hp hcap hr hw
  obtain ⟨hcode, hbytes⟩ := unpad_of_paddedBy hp hcap
  obtain ⟨hlow, hhigh, -⟩ := hp
  have hcount : s.regs.len.toNat - 16 + ((blockBytes (lastPlain cbc iven s)).take (16 - p)).length =
      s.regs.len.toNat - p := by
    rw [List.length_take, blockBytes_length]
    omega
  obtain ⟨t, hexec, hcompletes, hmem⟩ := exec_paddedDecryption_completes hkey hmod hlen (by omega) hiven hnwr hcode
    hbytes hr (hcount.symm ▸ hw)
  exact ⟨t, hexec, hcount ▸ hcompletes, hmem⟩

/-- Settles O25: the unpadding of the last block fails and lets nothing out. -/
theorem failedUnpaddingKeepsEarlierBlocks : Obligations.FailedUnpaddingKeepsEarlierBlocks := by
  intro s cbc iven code hkey hmod hlen hcap hiven hnwr hfail hr hw
  obtain ⟨hcode, hbytes⟩ := unpad_of_failed hfail
  exact exec_paddedDecryption_completes hkey hmod hlen hcap hiven hnwr hcode hbytes hr hw

end Sys2Proof.Proofs

/-! ## `CTR` whose accesses the platform admits, once and twice (43_modes.md R184, R185) -/

namespace Sys2Proof.Machine

open Sys2Proof.Reference

/-- With its accesses admitted, `CTR` completes with its keystream XORed into memory. -/
theorem exec_ctr_admitted {s : State} (hkey : ValidKey s.regs) (hnonce : s.regs.noncelen.toNat ≤ 16)
    (hr : ReadsAdmitted s s.regs.src s.regs.len.toNat) (hw : WritesAdmitted s s.regs.src s.regs.len.toNat) :
    exec .ctr s =
      .next (complete .ok (afterAccesses (ctrAccesses (keystream s.regs) s.regs.src s.mem) s)) := by
  rw [exec_ctr hkey hnonce, accessesOutcome_admitted]
  exact ctrAccesses_admitted ((keystream_length s.regs).symm ▸ hr) ((keystream_length s.regs).symm ▸ hw) s.mem

/-- The keystream depends on the key, the nonce and the data's length. -/
theorem keystream_congr {r r' : Regs} (hkey : r'.key = r.key) (hkeylen : r'.keylen = r.keylen)
    (hnonce : r'.noncelen = r.noncelen) (hiv : r'.iv = r.iv) (hlen : r'.len = r.len) : keystream r' = keystream r := by
  rw [keystream, dataLength, hlen]
  refine List.map_congr_left fun i _ => ?_
  simp only [keystreamByte, counterStart, schedule_congr hkey hkeylen, hnonce, hiv]

/-- `CTR` writes to the bytes of its buffer. -/
theorem mem_writesOf_ctrAccesses {ks : List Byte} {a : Word} {m : Memory} {w : Word × Byte}
    (h : w ∈ writesOf (ctrAccesses ks a m)) : ∃ i < ks.length, byteAddr a i = w.1 := by
  induction ks generalizing a m with
  | nil => cases h
  | cons k ks ih =>
    rw [ctrAccesses, writesOf_cons_read, writesOf_cons_write, List.mem_cons] at h
    rcases h with rfl | h
    · exact ⟨0, by simp, byteAddr_zero a⟩
    · obtain ⟨i, hi, hw⟩ := ih h
      exact ⟨i + 1, by simpa using hi, by simpa using hw⟩

/-- A keystream XORed in twice leaves every byte reading as before. -/
theorem read_ctrMemory_ctrMemory {ks : List Byte} (hlen : ks.length ≤ 2 ^ 32) (a : Word) (m : Memory) (x : Nat) :
    (ctrMemory ks a (ctrMemory ks a m)).read x = m.read x := by
  by_cases hx : ∃ i < ks.length, (byteAddr a i).toNat = x
  · obtain ⟨i, hi, rfl⟩ := hx
    rw [read_ctrMemory hlen a _ hi, read_ctrMemory hlen a m hi, BitVec.xor_assoc, BitVec.xor_self, BitVec.xor_zero]
  · have hother (m : Memory) : (ctrMemory ks a m).read x = m.read x :=
      applyWrites_read_other m _ x fun w hw he => by
        obtain ⟨i, hi, hwi⟩ := mem_writesOf_ctrAccesses hw
        exact hx ⟨i, hi, hwi ▸ he⟩
    rw [hother, hother]

/-- Writes to listed bytes list no other. -/
theorem applyWrites_listed_eq_none_iff {m : Memory} {ws : List (Word × Byte)}
    (h : ∀ w ∈ ws, m.listed w.1.toNat ≠ none) (x : Nat) : (applyWrites ws m).listed x = none ↔ m.listed x = none := by
  induction ws generalizing m with
  | nil => rfl
  | cons w ws ih =>
    obtain ⟨hw, hws⟩ := List.forall_mem_cons.1 h
    have hwrite (y : Nat) : (m.write w.1.toNat w.2).listed y = none ↔ m.listed y = none := by
      rw [Memory.listed_write]
      split
      · next hy => simpa [hy] using hw
      · rfl
    exact (ih fun v hv => mt (hwrite _).1 (hws v hv)).trans (hwrite x)

theorem ctrMemory_listed_eq_none_iff {ks : List Byte} {a : Word} {m : Memory}
    (h : ∀ i < ks.length, m.listed (byteAddr a i).toNat ≠ none) (x : Nat) :
    (ctrMemory ks a m).listed x = none ↔ m.listed x = none :=
  applyWrites_listed_eq_none_iff (fun w hw => by
    obtain ⟨i, hi, hwi⟩ := mem_writesOf_ctrAccesses hw
    exact hwi ▸ h i hi) x

/-- Memories in canonical form that list the same addresses and read alike are equal. -/
theorem Memory.ext_of_read {m m' : Memory} (h : m.wf) (h' : m'.wf) (hl : ∀ a, m.listed a = none ↔ m'.listed a = none)
    (hr : ∀ a, m.read a = m'.read a) : m = m' := by
  refine Memory.ext_of_listed h h' fun a => ?_
  cases hm : m.listed a with
  | none => exact ((hl a).1 hm).symm
  | some v =>
    obtain ⟨v', hm'⟩ := Option.ne_none_iff_exists'.1 (mt (hl a).2 (by simp [hm]))
    rw [hm', ← Memory.read_listed hm, ← Memory.read_listed hm', hr a]

end Sys2Proof.Machine

namespace Sys2Proof.Proofs

open Sys2Proof.Machine Sys2Proof.Reference

/-- Settles O26: the accesses XOR the keystream into the buffer. -/
theorem ctrCompletes : Obligations.CtrCompletes := by
  intro s hkey hnonce hnwr hr hw
  have hlen : (keystream s.regs).length = s.regs.len.toNat := keystream_length s.regs
  refine ⟨_, exec_ctr_admitted hkey hnonce hr hw, completes_afterAccesses hnwr ?_ .ok, fun i hi => ?_, fun a ha => ?_⟩
  · rw [length_writesOf_ctrAccesses, hlen]
  · refine (read_ctrMemory (by omega) s.regs.src s.mem (hlen.symm ▸ hi)).trans ?_
    simp [keystream]
  · exact read_ctrMemory_other (hlen.symm ▸ ha) s.mem

/-- Settles O49: the first `CTR` keeps the registers that the keystream depends on, so the second one XORs the same
keystream in again. -/
theorem ctrTwiceRestoresMemory : Obligations.CtrTwiceRestoresMemory := by
  intro s hkey hnonce hr hw
  have hlen : (keystream s.regs).length = s.regs.len.toNat := keystream_length s.regs
  let t := complete .ok (afterAccesses (ctrAccesses (keystream s.regs) s.regs.src s.mem) s)
  have hstream : keystream t.regs = keystream s.regs := keystream_congr rfl rfl rfl rfl rfl
  have hsecond : exec .ctr t = .next (complete .ok (afterAccesses
      (ctrAccesses (keystream s.regs) s.regs.src (ctrMemory (keystream s.regs) s.regs.src s.mem)) t)) := by
    rw [← hstream]
    exact exec_ctr_admitted (s := t) hkey hnonce hr hw
  have hread := read_ctrMemory_ctrMemory (ks := keystream s.regs) (by omega) s.regs.src s.mem
  refine ⟨t, _, exec_ctr_admitted hkey hnonce hr hw, hsecond, rfl, rfl, hread, fun hwf hlisted => ?_⟩
  have honce := ctrMemory_listed_eq_none_iff (hlen.symm ▸ hlisted)
  have htwice := ctrMemory_listed_eq_none_iff fun i hi => mt (honce _).1 (hlisted i (hlen ▸ hi))
  exact Memory.ext_of_read (applyWrites_wf (applyWrites_wf hwf _) _) hwf (fun a => (htwice a).trans (honce a)) hread

end Sys2Proof.Proofs

/-! ## The completing step (60_exceptions.md R225, R229) -/

namespace Sys2Proof.Machine

open Sys2Proof.Reference

/-- With no cycle left, the step is the command in flight. -/
theorem step_eq_runCommand {s : State} (hb : s.regs.status.busy = true) (hc : s.countdown = 0) :
    step s = runCommand s := by
  rw [step, cycle, if_pos hb, if_pos hc]

theorem runCommand_of_legal {s : State} {i : Instr} (h : decode s.regs.cmd = .ok i) : runCommand s = exec i s := by
  simp only [runCommand, h]

theorem runCommand_of_illegal {s : State} {why : IllegalWord} (h : decode s.regs.cmd = .error why) :
    runCommand s = .next (complete .illegalCommand s) := by
  simp only [runCommand, h]

theorem withFetchWord_cmd (s : State) (w : Word) : (s.withFetchWord 32 w.toNat).regs.cmd = w := by
  show BitVec.ofNat 32 (w.toNat % 2 ^ 32) = w
  rw [Nat.mod_eq_of_lt w.isLt, BitVec.ofNat_toNat, BitVec.setWidth_eq]

/-- A completion in the state in which the command was issued. -/
theorem completes_unchanged {s : State} (hnwr : s.internal.nwr = 0) (code : ErrCode) :
    Completes code 0 s.regs.state s.regs.gfres s (complete code s) := by
  simpa using completes_afterAccesses (xs := []) hnwr rfl code

theorem roundKeyCheck_index {k : Nat} {r : Regs} (hkey : ValidKey r) (hk : roundsOf r < k) :
    roundKeyCheck k r = some .illegalCommand := by
  have hcount : roundCount (keyWordCount r) = roundsOf r := roundCount_keyWordsOf hkey
  simp [roundKeyCheck, (keySizeOk_iff r).2 hkey, hcount, hk]

end Sys2Proof.Machine

namespace Sys2Proof.Proofs

open Sys2Proof.Machine Sys2Proof.Reference

/-- Settles O5: the completing step runs `CMD`, which holds the word that `withFetchWord` places. -/
theorem stepRunsDecodedCommand : Obligations.StepRunsDecodedCommand := by
  refine ⟨fun s i hb hc hi => (step_eq_runCommand hb hc).trans (runCommand_of_legal hi), fun s w i hi => ?_⟩
  have hcmd := withFetchWord_cmd s w
  refine ⟨(step_withFetchWord s 32 w.toNat).trans (runCommand_of_legal ?_), hcmd⟩
  rw [hcmd]
  exact hi

/-- Settles O6: an illegal word completes in the state it finds, and a round-key index above `Nr` fails the check that
both commands begin with. -/
theorem illegalCommandChangesOnlyStatus : Obligations.IllegalCommandChangesOnlyStatus := by
  refine ⟨fun s why hb hc hwhy hnwr => ?_, fun s k hkey hk hnwr => ?_⟩
  · have hstep := (step_eq_runCommand hb hc).trans (runCommand_of_illegal hwhy)
    exact ⟨_, hstep, completes_unchanged hnwr _, ⟨rfl, rfl⟩, rfl⟩
  · have hcheck := roundKeyCheck_index hkey hk
    exact ⟨failsUntouched_of_check hnwr rfl hcheck, failsUntouched_of_check hnwr rfl hcheck⟩

end Sys2Proof.Proofs

/-! ## Reset (70_reset_and_hazards.md R250, R251) -/

namespace Sys2Proof.Machine

/-- A reset clears the engine's registers, and keeps the platform and the host's side, whatever it abandons. -/
theorem assertReset_frame (s : State) :
    (assertReset s).regs = .reset ∧ (assertReset s).internal = .cleared ∧ (assertReset s).platform = s.platform ∧
      (assertReset s).script = s.script ∧ (assertReset s).owned = s.owned := by
  cases hb : s.regs.status.busy with
  | false =>
    rw [assertReset_idle hb]
    exact ⟨rfl, rfl, rfl, rfl, rfl⟩
  | true =>
    rw [assertReset_busy hb]
    exact ⟨rfl, rfl, rfl, rfl, rfl⟩

theorem assertReset_idle_mem {s : State} (hb : s.regs.status.busy = false) : (assertReset s).mem = s.mem := by
  rw [assertReset_idle hb, resetEngine_mem]

/-- Of the write sequence of the command in flight a first part stays written. -/
theorem assertReset_busy_mem {s : State} (hb : s.regs.status.busy = true) :
    ∃ n, (assertReset s).mem = applyWrites ((pendingWrites s).take n) s.mem :=
  ⟨_, by rw [assertReset_busy hb]⟩

theorem pendingWrites_of_next {s u : State} (h : runCommand { s with trace := [] } = .next u) :
    pendingWrites s = tracedWrites u.trace := by
  simp only [pendingWrites, h]

/-- The write sequence of the command in flight does not depend on what lies outside the engine. -/
theorem pendingWrites_outside (o s : State) : pendingWrites (outside o s) = pendingWrites s := by
  obtain ⟨code, u, state, gfres, hrun, -⟩ := runCommand_inversion { s with trace := [] }
  have houtside := runCommand_outside o hrun
  exact (pendingWrites_of_next (s := outside o s) houtside).trans (pendingWrites_of_next hrun).symm

/-- An illegal word in flight has nothing to write. -/
theorem pendingWrites_of_illegal {s : State} {why : IllegalWord} (h : decode s.regs.cmd = .error why) :
    pendingWrites s = [] :=
  pendingWrites_of_next (runCommand_of_illegal (s := { s with trace := [] }) h)

theorem pendingWrites_of_legal {s u : State} {i : Instr} (hi : decode s.regs.cmd = .ok i)
    (h : exec i { s with trace := [] } = .next u) : pendingWrites s = tracedWrites u.trace :=
  pendingWrites_of_next ((runCommand_of_legal (s := { s with trace := [] }) hi).trans h)

end Sys2Proof.Machine

namespace Sys2Proof.Proofs

open Sys2Proof.Machine Sys2Proof.Reference

/-- Settles O48: taking the action changes the script and the cycles left only, on which the write sequence of the command
in flight does not depend. -/
theorem resetLeavesFirstPartOfWrites : Obligations.ResetLeavesFirstPartOfWrites := by
  intro s xs hnext
  obtain ⟨c, hstep⟩ := step_hostIsNext hnext
  let s' : State := { s with script := xs, countdown := c }
  obtain ⟨hregs, hinternal, hplatform, hscript, howned⟩ := assertReset_frame s'
  have hpending : pendingWrites s' = pendingWrites s := pendingWrites_outside s' s
  refine ⟨assertReset s', hstep, hregs, hinternal, hplatform, hscript, howned,
    fun hb => assertReset_idle_mem (s := s') hb, fun hb why hwhy => ?_, fun hb i u hi hu => ?_⟩
  · obtain ⟨n, hmem⟩ := assertReset_busy_mem (s := s') hb
    rw [hmem, hpending, pendingWrites_of_illegal hwhy, List.take_nil]
    rfl
  · obtain ⟨n, hmem⟩ := assertReset_busy_mem (s := s') hb
    rw [hpending, pendingWrites_of_legal hi hu] at hmem
    exact ⟨n, hmem⟩

end Sys2Proof.Proofs

/-! ## The codes a command completes with (60_exceptions.md R221, R222, R228) -/

namespace Sys2Proof.Machine

open Sys2Proof.Reference

/-- The platform refuses an access of the command to its source or destination (20_memory.md R62, R66). -/
def RefusesAccess (i : Instr) (s : State) : Prop :=
  (∃ k < s.regs.len.toNat, memAdmit s.platform .read (byteAddr s.regs.src k) = false) ∨
  ∃ k < (if i = .ctr then s.regs.len else s.regs.cap).toNat,
    memAdmit s.platform .write (byteAddr (if i = .ctr then s.regs.src else s.regs.dst) k) = false

/-- The code stands in the command's row of the table of R221, and is `BUS_ERROR` only where an access is refused. -/
def CodeOfTable (i : Instr) (s : State) (code : ErrCode) : Prop :=
  code ∈ possibleCodes i ∧ (code = .busError → RefusesAccess i s)

/-- One of some codes that stand in the command's row and are not `BUS_ERROR`. -/
theorem CodeOfTable.of_mem {i : Instr} {s : State} {code : ErrCode} {codes row : List ErrCode}
    (hrow : possibleCodes i = row) (hcodes : ∀ c ∈ codes, c ∈ row ∧ c ≠ .busError) (h : code ∈ codes) :
    CodeOfTable i s code := by
  obtain ⟨hmem, hne⟩ := hcodes code h
  exact ⟨hrow ▸ hmem, fun hbus => absurd hbus hne⟩

theorem busError_mem_possibleCodes {i : Instr} (hi : IsMode i = true) : .busError ∈ possibleCodes i := by
  cases i with
  | ecbEnc | cbcEnc | ecbDec | cbcDec | ctr => simp [possibleCodes]
  | _ => cases hi

theorem refusesAccess_of_allowed {i : Instr} {s : State} {x : Access} (h : allowedAccess i s.regs x.kind x.addr)
    (hx : x.admitted s.platform = false) : RefusesAccess i s := by
  obtain ⟨-, hbounds⟩ := allowedAccess_inBounds h
  obtain ⟨kind, a, b⟩ := x
  cases kind with
  | read =>
    rw [if_pos (.inr rfl)] at hbounds
    obtain ⟨k, hk, rfl⟩ := hbounds
    exact .inl ⟨k, hk, hx⟩
  | write =>
    right
    by_cases hctr : i = .ctr
    · rw [if_pos (.inl hctr)] at hbounds
      obtain ⟨k, hk, rfl⟩ := hbounds
      simp only [if_pos hctr]
      exact ⟨k, hk, hx⟩
    · rw [if_neg (by simp [hctr])] at hbounds
      obtain ⟨k, hk, rfl⟩ := hbounds
      simp only [if_neg hctr]
      exact ⟨k, hk, hx⟩

/-- `s` on a platform that admits every access. -/
def onOpenPlatform (s : State) : State := { s with platform := ⟨0, false, [], []⟩ }

theorem admitted_onOpenPlatform (s : State) (x : Access) : x.admitted (onOpenPlatform s).platform = true := by
  obtain ⟨kind, a, b⟩ := x
  cases kind <;> rfl

/-- What a command would access on a platform that refuses nothing lies in its source or destination: there it makes all
of these accesses. -/
theorem allowedAccess_of_openPlatform {i : Instr} {s : State} {xs : List Access} {code : ErrCode}
    (h : exec i (onOpenPlatform s) = .next (accessesOutcome xs code (onOpenPlatform s))) :
    ∀ x ∈ xs, allowedAccess i s.regs x.kind x.addr := by
  rw [accessesOutcome_admitted fun x _ => admitted_onOpenPlatform s x] at h
  obtain ⟨_, u, state, gfres, he, hu⟩ := exec_inversion i (onOpenPlatform s)
  obtain ⟨ys, htrace, -, -, hall⟩ := hu.accesses
  have hsame : ys ++ s.trace = xs.reverse ++ s.trace := by
    have := congrArg State.trace (Host.Outcome.next.inj (he.symm.trans h))
    exact htrace.symm.trans this
  rw [List.append_cancel_right hsame] at hall
  exact fun x hx => (hall x (List.mem_reverse.2 hx)).2

/-- A command that makes accesses and then ends with `code` completes with `code`, or with `BUS_ERROR` because one of
them is refused. -/
theorem codeOfTable_of_accesses {i : Instr} {s t : State} {xs : List Access} {code : ErrCode}
    (hopen : exec i (onOpenPlatform s) = .next (accessesOutcome xs code (onOpenPlatform s)))
    (hexec : exec i s = .next (accessesOutcome xs code s)) (hcode : CodeOfTable i s code)
    (h : exec i s = .next t) : CodeOfTable i s t.regs.status.err := by
  rw [hexec] at h
  cases h
  by_cases hall : xs.all (·.admitted s.platform) = true
  · rw [show (accessesOutcome xs code s).regs.status.err = code from if_pos hall]
    exact hcode
  · rw [show (accessesOutcome xs code s).regs.status.err = .busError from if_neg hall]
    obtain ⟨x, hx, hrefused⟩ := List.all_eq_false.1 (Bool.eq_false_iff.2 hall)
    have hallowed := allowedAccess_of_openPlatform hopen x hx
    exact ⟨busError_mem_possibleCodes (allowedAccess_inBounds hallowed).1,
      fun _ => refusesAccess_of_allowed hallowed (Bool.eq_false_iff.2 hrefused)⟩

/-- A command whose check fails completes with the check's code. -/
theorem err_of_failed {i : Instr} {s t : State} {check : Option ErrCode} {code : ErrCode} {k : State → Run Unit}
    (hexec : exec i s = finish (checked check s k)) (hcheck : check = some code) (h : exec i s = .next t) :
    t.regs.status.err = code := by
  subst hcheck
  rw [hexec] at h
  cases h
  rfl

/-- A command that only checks before it computes completes with the check's code or `OK`. -/
theorem codeOfTable_of_checked {i : Instr} {s t : State} {check : Option ErrCode} {codes row : List ErrCode}
    {f : State → State} (hrow : possibleCodes i = row) (hcodes : ∀ c ∈ .ok :: codes, c ∈ row ∧ c ≠ .busError)
    (hcheck : ∀ {code}, check = some code → code ∈ codes)
    (h : finish (checked check s fun s => .done () (f s)) = .next t) : CodeOfTable i s t.regs.status.err := by
  refine .of_mem hrow hcodes ?_
  cases check with
  | none => cases h; exact List.mem_cons_self
  | some code => cases h; exact List.mem_cons_of_mem _ (hcheck rfl)

theorem encryptCheck_code {pad : Bool} {r : Regs} {code : ErrCode} (h : encryptCheck pad r = some code) :
    code ∈ [.invalidDataSize, .invalidKeySize, .invalidBufferSize] := by
  unfold encryptCheck at h
  split_ifs at h <;> cases h <;> decide

theorem decryptCheck_code {pad : Bool} {r : Regs} {code : ErrCode} (h : decryptCheck pad r = some code) :
    code ∈ [.invalidDataSize, .invalidKeySize, .invalidBufferSize] := by
  unfold decryptCheck at h
  split_ifs at h <;> cases h <;> decide

theorem ctrCheck_code {r : Regs} {code : ErrCode} (h : ctrCheck r = some code) :
    code ∈ [.invalidKeySize, .invalidNonceSize] := by
  unfold ctrCheck at h
  split_ifs at h <;> cases h <;> decide

theorem keyCheck_code {r : Regs} {code : ErrCode} (h : keyCheck r = some code) : code ∈ [.invalidKeySize] := by
  unfold keyCheck at h
  split_ifs at h
  cases h
  decide

theorem roundKeyCheck_code {k : Nat} {r : Regs} {code : ErrCode} (h : roundKeyCheck k r = some code) :
    code ∈ [.invalidKeySize, .illegalCommand] := by
  unfold roundKeyCheck at h
  split_ifs at h <;> cases h <;> decide

/-- The code of an unpadding (43_modes.md R176, R177). -/
theorem unpadCode_mem (r : Regs) (b : Block) : unpadCode r b ∈ [.ok, .invalidKey, .invalidBufferSize] := by
  unfold unpadCode
  split_ifs <;> decide

theorem decryptCode_mem (pad : Bool) (B : BlockRun) (j n : Nat) :
    decryptCode pad B j n ∈ [.ok, .invalidKey, .invalidBufferSize] := by
  unfold decryptCode
  split_ifs
  · exact unpadCode_mem _ _
  · decide

/-- Both encryptions: a check fails, or the accesses of the blocks end with `OK` (43_modes.md R180, R182). -/
theorem encryption_codeOfTable {i : Instr} {pad : Bool} {s t : State}
    (hi : i = .ecbEnc pad ∨ ∃ iven, i = .cbcEnc pad iven) (h : exec i s = .next t) :
    CodeOfTable i s t.regs.status.err := by
  have hrow : possibleCodes i = [.ok, .invalidDataSize, .invalidKeySize, .invalidBufferSize, .busError] := by
    rcases hi with rfl | ⟨iven, rfl⟩ <;> rfl
  cases hcheck : encryptCheck pad s.regs with
  | some code =>
    obtain ⟨k, hexec⟩ := exec_encryption_checked hi s
    rw [err_of_failed hexec hcheck h]
    exact .of_mem hrow (by decide) (encryptCheck_code hcheck)
  | none =>
    obtain ⟨cbc, iven, hiven, rfl⟩ := mode_flags hi
    exact codeOfTable_of_accesses (exec_encryption (s := onOpenPlatform s) hcheck hiven) (exec_encryption hcheck hiven)
      (.of_mem (codes := [.ok]) hrow (by decide) List.mem_cons_self) h

/-- Both decryptions: a check fails, or the accesses of the blocks end with the code of the last block's unpadding
(43_modes.md R181, R183). -/
theorem decryption_codeOfTable {i : Instr} {pad : Bool} {s t : State}
    (hi : i = .ecbDec pad ∨ ∃ iven, i = .cbcDec pad iven) (h : exec i s = .next t) :
    CodeOfTable i s t.regs.status.err := by
  have hrow : possibleCodes i =
      [.ok, .invalidDataSize, .invalidKeySize, .invalidBufferSize, .invalidKey, .busError] := by
    rcases hi with rfl | ⟨iven, rfl⟩ <;> rfl
  cases hcheck : decryptCheck pad s.regs with
  | some code =>
    obtain ⟨k, hexec⟩ := exec_decryption_checked hi s
    rw [err_of_failed hexec hcheck h]
    exact .of_mem hrow (by decide) (decryptCheck_code hcheck)
  | none =>
    obtain ⟨cbc, iven, hiven, rfl⟩ := mode_flags hi
    exact codeOfTable_of_accesses (exec_decryption (s := onOpenPlatform s) hcheck hiven) (exec_decryption hcheck hiven)
      (.of_mem hrow (by decide) (decryptCode_mem ..)) h

theorem ctrCheck_none {r : Regs} (h : ctrCheck r = none) : ValidKey r ∧ r.noncelen.toNat ≤ 16 := by
  unfold ctrCheck at h
  split_ifs at h with hkey hnonce
  exact ⟨(keySizeOk_iff r).1 (by simpa using hkey), by simpa using hnonce⟩

theorem ctr_codeOfTable {s t : State} (h : exec .ctr s = .next t) : CodeOfTable .ctr s t.regs.status.err := by
  cases hcheck : ctrCheck s.regs with
  | some code =>
    rw [err_of_failed rfl hcheck h]
    exact .of_mem rfl (by decide) (ctrCheck_code hcheck)
  | none =>
    obtain ⟨hkey, hnonce⟩ := ctrCheck_none hcheck
    exact codeOfTable_of_accesses (exec_ctr (s := onOpenPlatform s) hkey hnonce) (exec_ctr hkey hnonce)
      (.of_mem (codes := [.ok]) rfl (by decide) List.mem_cons_self) h

/-- Every command completes with a code of its row. -/
theorem exec_codeOfTable {i : Instr} {s t : State} (h : exec i s = .next t) : CodeOfTable i s t.regs.status.err := by
  cases i with
  | gfDouble | gfMul | subBytes | invSubBytes | shiftRows | invShiftRows | mixColumns | invMixColumns =>
    cases h
    exact .of_mem (codes := [.ok]) rfl (by decide) List.mem_cons_self
  | addRoundKey k | keyExpand k =>
    exact codeOfTable_of_checked (row := [.ok, .invalidKeySize, .illegalCommand]) rfl (by decide) roundKeyCheck_code h
  | encBlock | decBlock => exact codeOfTable_of_checked rfl (by decide) keyCheck_code h
  | ecbEnc pad => exact encryption_codeOfTable (.inl rfl) h
  | cbcEnc pad iven => exact encryption_codeOfTable (.inr ⟨iven, rfl⟩) h
  | ecbDec pad => exact decryption_codeOfTable (.inl rfl) h
  | cbcDec pad iven => exact decryption_codeOfTable (.inr ⟨iven, rfl⟩) h
  | ctr => exact ctr_codeOfTable h

end Sys2Proof.Machine

namespace Sys2Proof.Proofs

open Sys2Proof.Machine

/-- Settles O30: a command ends with a code of its checks, of its last block's unpadding, with `OK`, or at an access that
is refused. -/
theorem completionCodesAreThoseOfTheTable : Obligations.CompletionCodesAreThoseOfTheTable :=
  fun _ _ _ h => exec_codeOfTable h

end Sys2Proof.Proofs
